-- ==== Sys2Proof/Word.lean ====
section
/-! DEFINITION. The word types of the engine and the width of a number (spec/00_scope.md R7 to R10). -/

namespace Sys2Proof

/-- A host register and every counter of the engine: CSR_W = 32 bits (R8, 92_eei_decisions.md D23). -/
abbrev Word := BitVec 32

/-- One input symbol, an 8-bit code unit (R7, SYM_W). -/
abbrev Symbol := BitVec 8

/-- A character: one 16-bit UTF-16 code unit (R10). -/
abbrev Char16 := BitVec 16

/-- A string: a finite sequence of characters (R10). -/
abbrev Str := List Char16

/-- `bitlength(v)` of R9: the number of bits needed to write `v` in binary. -/
def bitlength (v : Nat) : Nat := if v = 0 then 0 else Nat.log2 v + 1

/-- An address space held as plain data: (index, element) pairs. An index that is not listed holds no
value of its own; what a read of it answers is said where it is read (log entries 2 and 3). -/
abbrev Memory (α : Type) := List (Nat × α)

end Sys2Proof
end

