-- ==== Sys2Proof/Config.lean ====
section
/-! DEFINITION. What an instance of the engine fixes (spec/00_scope.md R8) and the free values the spec leaves open. -/

namespace Sys2Proof

/-- OUT_BYTE_ORDER of R8: the byte order of a 16-bit output character for a host that views OUT as bytes. -/
inductive ByteOrder where
  | little
  | big
  deriving DecidableEq, Repr, Inhabited

/-- The open parameters of R8. Each limit is a 32-bit word, so that it is at most 2^32 - 1 as R8 and
92_eei_decisions.md D23 require. Log entries 5 and 6. -/
structure Config where
  /-- MAX_IN: the largest input length that a run accepts. -/
  maxIn : Word
  /-- MAX_DICT: the largest DICTLEN, counting the three reserved slots. -/
  maxDict : Word
  /-- MAX_OUT: the largest output length, in characters. -/
  maxOut : Word
  /-- OUT_BYTE_ORDER. -/
  outByteOrder : ByteOrder
  deriving DecidableEq, Repr

/-- The constraints of R8 on the parameters. -/
abbrev Config.wf (c : Config) : Prop := 1 ≤ c.maxIn.toNat ∧ 4 ≤ c.maxDict.toNat

/-- Free value: the byte order that R8 leaves OPEN. Log entry 6. -/
opaque Config.openByteOrder : ByteOrder

/-- Free value: the symbol that cell `index` of IN holds after reset number `epoch` until the host
writes it (10_state.md R44, "unspecified (any value)"). Log entry 2. -/
opaque Config.freeSymbol : (epoch index : Nat) → Symbol

/-- Free value: the `draw`-th word a host read returns where the spec says any value of the right
width (70_reset_and_hazards.md R205). Log entry 4. -/
opaque Config.freeWord : (draw : Nat) → Word

/-- Free value: the `draw`-th character a host read of OUT returns where the spec says any value of the
right width (R205, 60_exceptions.md R186). Log entries 3 and 4. -/
opaque Config.freeChar : (draw : Nat) → Char16

/-- The reference values of R8: every limit as large as CSR_W allows (log entry 5). -/
def Config.reference : Config :=
  { maxIn := 0xFFFFFFFF, maxDict := 0xFFFFFFFF, maxOut := 0xFFFFFFFF,
    outByteOrder := Config.openByteOrder }

end Sys2Proof
end

