-- ==== Sys2Proof/Syntax.lean ====
section
/-! DEFINITION. The tokens of the lz-string stream, the engine's instructions (spec/30_encoding.md R76 to R84). -/

namespace Sys2Proof

/-- The two alphabets (00_scope.md R2); CTRL.ALPHABET = 0 is `uriSafe` and 1 is `base64` (10_state.md R37). -/
inductive Alphabet where
  | uriSafe
  | base64
  deriving DecidableEq, Repr

/-- One token: a row of opcode_table.json each. -/
inductive Instr where
  /-- LIT8, an 8-bit literal (42_tokens.md R141). -/
  | lit8 (ch : BitVec 8)
  /-- LIT16, a 16-bit literal (R142). -/
  | lit16 (ch : BitVec 16)
  /-- END, the end-of-stream marker (R143). -/
  | endMark
  /-- REF k, a back-reference to entry `k` (R144). -/
  | ref (k : Nat)
  /-- SELF, the self-referential extension (R145). -/
  | selfRef
  /-- BAD_LOOP, an illegal code `c` above DICTLEN (R146). -/
  | badLoop (c : Nat)
  /-- BAD_FIRST, the illegal first code 3 (R147). -/
  | badFirst
  deriving DecidableEq, Repr

/-- The pseudo-instruction CHAR c of R84. -/
def Instr.char (c : Char16) : Instr :=
  if c.toNat < 256 then .lit8 (c.setWidth 8) else .lit16 c

/-- One line of the assembly notation of R83. -/
inductive AsmLine where
  | tok (i : Instr)
  /-- `RAW v, n`: the n-bit field v, with no meaning implied. -/
  | raw (v n : Nat)
  deriving DecidableEq, Repr

/-- What, beside the stream, decides how a token is read (R78, R80): whether PHASE is FIRST, the code
width W = INDEXBITS, and DICTLEN, all at the start of the token. -/
structure TokenCtx where
  isFirst : Bool
  width : Nat
  dictLen : Nat
  deriving DecidableEq, Repr

end Sys2Proof
end

