-- ==== Sys2Proof/WellFormed.lean ====
section
/-! DEFINITION. Which tokens can stand in which place of a stream (spec/30_encoding.md R78, R81). -/

namespace Sys2Proof

/-- The contexts a run can be in: FIRST has DICTLEN = 3 and W = 2; LOOP has DICTLEN >= 4 and
W = bitlength(DICTLEN) (30_encoding.md R76, R78). -/
abbrev TokenCtx.legal (x : TokenCtx) : Prop :=
  (x.isFirst = true ∧ x.width = 2 ∧ x.dictLen = 3) ∨
    (x.isFirst = false ∧ 4 ≤ x.dictLen ∧ x.width = bitlength x.dictLen)

/-- The opcode map of R78 read as a check: the token `i` can be written in the context `x`. Literals
and END can stand anywhere (every operand value is legal, R81). -/
def Instr.wellFormed (x : TokenCtx) : Instr → Bool
  | .lit8 _ => true
  | .lit16 _ => true
  | .endMark => true
  | .ref k => !x.isFirst && decide (3 ≤ k) && decide (k < x.dictLen)
  | .selfRef => !x.isFirst
  | .badLoop c => !x.isFirst && decide (x.dictLen < c) && decide (c < 2 ^ x.width)
  | .badFirst => x.isFirst

end Sys2Proof
end

