-- ==== Sys2Proof/Decode.lean ====
section
/-! DEFINITION. The alphabet tables, the bit stream, the token decoder (total on any symbols) and the
encoder (spec/30_encoding.md R70 to R84). -/

namespace Sys2Proof

/-! ## Symbol layer (R70 to R74) -/

/-- MAP(a, s) of 40_bit_reader.md R100 over the tables of R70; `none` is ⊥ (R71). The order of the
symbols is the spec's general knowledge (log entry 15). -/
def mapSymbol (a : Alphabet) (s : Symbol) : Option (BitVec 7) :=
  let c := s.toNat
  if 0x41 ≤ c ∧ c ≤ 0x5A then some (BitVec.ofNat 7 (c - 0x41))
  else if 0x61 ≤ c ∧ c ≤ 0x7A then some (BitVec.ofNat 7 (c - 0x61 + 26))
  else if 0x30 ≤ c ∧ c ≤ 0x39 then some (BitVec.ofNat 7 (c - 0x30 + 52))
  else if c = 0x2B then some 62
  else match a with
    | .uriSafe => if c = 0x2D then some 63 else if c = 0x24 then some 64 else none
    | .base64 => if c = 0x2F then some 63 else if c = 0x3D then some 64 else none

/-- The symbol of a value below 64, and of 64 (R70), the inverse of `mapSymbol`. -/
def symbolOf (a : Alphabet) (v : Nat) : Symbol :=
  if v < 26 then BitVec.ofNat 8 (0x41 + v)
  else if v < 52 then BitVec.ofNat 8 (0x61 + (v - 26))
  else if v < 62 then BitVec.ofNat 8 (0x30 + (v - 52))
  else if v = 62 then 0x2B
  else match a with
    | .uriSafe => if v = 63 then 0x2D else 0x24
    | .base64 => if v = 63 then 0x2F else 0x3D

/-- The six bits a value contributes, in stream order: bit 5 first (R74). Bit 6 is never read (R73). -/
def symbolBits (v : BitVec 7) : List Bool :=
  [v.getLsbD 5, v.getLsbD 4, v.getLsbD 3, v.getLsbD 2, v.getLsbD 1, v.getLsbD 0]

/-- The bits of the symbols before the first unmapped one. -/
def mappedBits (a : Alphabet) : List Symbol → List Bool
  | [] => []
  | s :: ss =>
    match mapSymbol a s with
    | some v => symbolBits v ++ mappedBits a ss
    | none => []

/-- The index, counted from `base`, of the first unmapped symbol. -/
def firstUnmapped (a : Alphabet) (base : Nat) : List Symbol → Option Nat
  | [] => none
  | s :: ss =>
    match mapSymbol a s with
    | some _ => firstUnmapped a (base + 1) ss
    | none => some base

/-! ## Fields (R75) -/

/-- Take an n-bit field off a stream: the first bit is bit 0 (R75). `none`: fewer than n bits are left. -/
def takeField : Nat → List Bool → Option (Nat × List Bool)
  | 0, bs => some (0, bs)
  | _ + 1, [] => none
  | n + 1, b :: bs =>
    match takeField n bs with
    | none => none
    | some (v, rest) => some (b.toNat + 2 * v, rest)

/-! ## Token layer (R76 to R82) -/

/-- What a code selects (the opcode map of R78). -/
inductive CodeClass where
  | lit8
  | lit16
  | endMark
  | ref (k : Nat)
  | selfRef
  | badLoop (c : Nat)
  | badFirst
  deriving DecidableEq, Repr

/-- The dispatch of 42_tokens.md R140 on the code `c`, in the order it tests. -/
def codeClass (x : TokenCtx) (c : Nat) : CodeClass :=
  if c = 0 then .lit8
  else if c = 1 then .lit16
  else if c = 2 then .endMark
  else if c < x.dictLen then .ref c
  else if c = x.dictLen then (if x.isFirst then .badFirst else .selfRef)
  else .badLoop c

/-- Decode one token off a bit stream. `none`: the stream ends inside the token. -/
def decodeBits (x : TokenCtx) (bits : List Bool) : Option (Instr × List Bool) :=
  match takeField x.width bits with
  | none => none
  | some (c, rest) =>
    match codeClass x c with
    | .lit8 => (takeField 8 rest).map fun p => (.lit8 (BitVec.ofNat 8 p.1), p.2)
    | .lit16 => (takeField 16 rest).map fun p => (.lit16 (BitVec.ofNat 16 p.1), p.2)
    | .endMark => some (.endMark, rest)
    | .ref k => some (.ref k, rest)
    | .selfRef => some (.selfRef, rest)
    | .badLoop c => some (.badLoop c, rest)
    | .badFirst => some (.badFirst, rest)

/-- The decoder's answers, by name. -/
inductive Decoded where
  /-- A token, and the mapped bits after it. -/
  | token (i : Instr) (rest : List Bool)
  /-- The symbol at `index` is fetched and is not in the alphabet (60_exceptions.md R181). -/
  | illegalCharacter (index : Nat)
  /-- The symbols end inside the token (60_exceptions.md R183). -/
  | endOfBuffer
  deriving DecidableEq, Repr

/-- Decode the token that starts with the bits `ahead` (what is left of the symbol in VALUE) and goes on
in `syms`, whose first symbol has index `base`. Symbols are mapped as they are fetched: one that the
token never reaches is not looked at, but for the eager refill of 40_bit_reader.md R108, which fetches
the symbol after a token that ends with the last bit of a symbol. -/
def decodeFrom (a : Alphabet) (x : TokenCtx) (ahead : List Bool) (base : Nat) (syms : List Symbol) : Decoded :=
  match decodeBits x (ahead ++ mappedBits a syms) with
  | some (i, b :: rest) => .token i (b :: rest)
  | some (i, []) =>
    match firstUnmapped a base syms with
    | some k => .illegalCharacter k
    | none => .token i []
  | none =>
    match firstUnmapped a base syms with
    | some k => .illegalCharacter k
    | none => .endOfBuffer

/-- Decode the token at the start of a sequence of symbols; total on any symbols. -/
def decodeSymbols (a : Alphabet) (x : TokenCtx) (syms : List Symbol) : Decoded :=
  decodeFrom a x [] 0 syms

/-! ## Encoder (R70, R74, R75, R77, R83) -/

/-- The n-bit field of `v`, least significant bit first (R75). -/
def fieldBits : Nat → Nat → List Bool
  | 0, _ => []
  | n + 1, v => (v % 2 == 1) :: fieldBits n (v / 2)

/-- The code of a token (R78). -/
def codeOf (x : TokenCtx) : Instr → Nat
  | .lit8 _ => 0
  | .lit16 _ => 1
  | .endMark => 2
  | .ref k => k
  | .selfRef => x.dictLen
  | .badLoop c => c
  | .badFirst => 3

/-- The operand field of a token, after its code (R77). -/
def operandBits : Instr → List Bool
  | .lit8 ch => fieldBits 8 ch.toNat
  | .lit16 ch => fieldBits 16 ch.toNat
  | .endMark => []
  | .ref _ => []
  | .selfRef => []
  | .badLoop _ => []
  | .badFirst => []

/-- A token as bits in stream order: its code in W bits, then its operand (R77). -/
def encodeBits (x : TokenCtx) (i : Instr) : List Bool :=
  fieldBits x.width (codeOf x i) ++ operandBits i

/-- The value of six bits in stream order (R74). -/
def sixBits (b5 b4 b3 b2 b1 b0 : Bool) : Nat :=
  32 * b5.toNat + 16 * b4.toNat + 8 * b3.toNat + 4 * b2.toNat + 2 * b1.toNat + b0.toNat

/-- Write a bit stream as symbols, padded with 0 bits to a multiple of 6 (R83). -/
def packSymbols (a : Alphabet) : List Bool → List Symbol
  | b5 :: b4 :: b3 :: b2 :: b1 :: b0 :: rest => symbolOf a (sixBits b5 b4 b3 b2 b1 b0) :: packSymbols a rest
  | [b5, b4, b3, b2, b1] => [symbolOf a (sixBits b5 b4 b3 b2 b1 false)]
  | [b5, b4, b3, b2] => [symbolOf a (sixBits b5 b4 b3 b2 false false)]
  | [b5, b4, b3] => [symbolOf a (sixBits b5 b4 b3 false false false)]
  | [b5, b4] => [symbolOf a (sixBits b5 b4 false false false false)]
  | [b5] => [symbolOf a (sixBits b5 false false false false false)]
  | [] => []

/-- The words of a well-formed token: it alone, as symbols. -/
def encode (a : Alphabet) (x : TokenCtx) (i : Instr) : List Symbol :=
  packSymbols a (encodeBits x i)

/-! ## Assembler (R83, R84) -/

/-- The context of the first token of a run (43_driver.md R163). -/
def TokenCtx.atFirst : TokenCtx := { isFirst := true, width := 2, dictLen := 3 }

/-- The context of a LOOP token with `d` entries and reserved slots (41_dictionary.md R127). -/
def TokenCtx.atLoop (d : Nat) : TokenCtx := { isFirst := false, width := bitlength d, dictLen := d }

/-- The context after a token: the appends of 41_dictionary.md R129. -/
def TokenCtx.after (x : TokenCtx) : Instr → TokenCtx
  | .lit8 _ => TokenCtx.atLoop (if x.isFirst then x.dictLen + 1 else x.dictLen + 2)
  | .lit16 _ => TokenCtx.atLoop (if x.isFirst then x.dictLen + 1 else x.dictLen + 2)
  | .endMark => x
  | .ref _ => TokenCtx.atLoop (x.dictLen + 1)
  | .selfRef => TokenCtx.atLoop (x.dictLen + 1)
  | .badLoop _ => x
  | .badFirst => x

/-- The bits of a program from the context `x` on. -/
def assembleBits (x : TokenCtx) : List AsmLine → List Bool
  | [] => []
  | .tok i :: ls => encodeBits x i ++ assembleBits (x.after i) ls
  | .raw v n :: ls => fieldBits n v ++ assembleBits x ls

/-- The assembler of R83: a program as the symbols of one alphabet. -/
def assemble (a : Alphabet) (prog : List AsmLine) : List Symbol :=
  packSymbols a (assembleBits TokenCtx.atFirst prog)

/-! ## The opcode table's numbering -/

/-- The bits of a table word: bit j of `w` is bit j of the token in stream order, every bit from `nbits`
on is 0, up to the longest token of the context (log entry 17). -/
def tableBits (x : TokenCtx) (nbits w : Nat) : List Bool :=
  fieldBits (x.width + 16) (w % 2 ^ nbits)

/-- The symbols of a table word, as the hardware stores them, and one more symbol, of zero bits, after them. -/
def tableSymbols (a : Alphabet) (x : TokenCtx) (nbits w : Nat) : List Symbol :=
  packSymbols a (tableBits x nbits w) ++ [symbolOf a 0]

/-- The token the decoder reads from a table word in the context `x`. -/
def decodeTableWordAt (x : TokenCtx) (nbits w : Nat) : Option Instr :=
  match decodeSymbols .uriSafe x (tableSymbols .uriSafe x nbits w) with
  | .token i _ => some i
  | .illegalCharacter _ => none
  | .endOfBuffer => none

/-- The token the decoder reads from a table word as the first token of a run, the place where the first
instruction after reset stands (log entry 17). -/
def decodeTableWord (nbits w : Nat) : Option Instr :=
  decodeTableWordAt TokenCtx.atFirst nbits w

end Sys2Proof
end

