-- ==== Sys2Proof/Machine/State.lean ====
section
/-! DEFINITION. Everything the spec gives the engine, as plain data (spec/10_state.md, INVENTORY.md), the
reasons a step can stop, and the state after reset. -/

namespace Sys2Proof.Machine

open Sys2Proof

/-- PHASE (10_state.md R21). The 3-bit values 5 to 7 are never held and have no constructor (log entry 14). -/
inductive Phase where
  | idle
  | init
  | first
  | loop
  | done
  deriving DecidableEq, Repr

/-- ERR (60_exceptions.md R180). The 3-bit values 5 to 7 are never written and have no constructor (log entry 14). -/
inductive ErrKind where
  | none
  | illegalCharacter
  | badEncoding
  | unexpectedEndOfBuffer
  | capacityExceeded
  deriving DecidableEq, Repr

/-- What an agent does next: the host's accesses, the reset input, and the engine's turn (00_scope.md R6,
70_reset_and_hazards.md R200, R208). -/
inductive HostMove where
  /-- The engine takes its next step. -/
  | engineTurn
  /-- The reset input is asserted (R200). -/
  | reset
  /-- A write of `width` bits to the register block (20_memory.md R56). -/
  | csrWrite (offset width : Nat) (data : Word)
  /-- A read of `width` bits of the register block. -/
  | csrRead (offset width : Nat)
  /-- A write of one symbol of IN (20_memory.md R50). -/
  | inWrite (index : Nat) (symbol : Symbol)
  /-- A read back of one symbol of IN (R50). -/
  | inRead (index : Nat)
  /-- A read of one character of OUT (R50). -/
  | outRead (index : Nat)
  /-- A read of one byte of OUT by a host that views OUT as bytes (R55, log entry 6). -/
  | outReadByte (address : Nat)
  deriving DecidableEq, Repr

structure State where
  /-- The parameters of the instance (00_scope.md R8); no step changes them. -/
  config : Config
  /-- PHASE (10_state.md R21). -/
  phase : Phase
  /-- ALPHA (R22). -/
  alpha : Alphabet
  /-- N (R23). -/
  n : Word
  /-- VALUE (R24). -/
  value : BitVec 7
  /-- BITPOS (R25). -/
  bitPos : BitVec 6
  /-- SYMIDX (R26). -/
  symIdx : Word
  /-- DRAINED (R27). -/
  drained : Bool
  /-- INDEXBITS (R29). -/
  indexBits : BitVec 6
  /-- EUG (R30). -/
  eug : Word
  /-- DICTLEN (R31). -/
  dictLen : Word
  /-- DICT (R32): the entries that were appended in this run, by index. -/
  dict : Memory Str
  /-- LAST (R33). -/
  last : Str
  /-- OUT (R34), the output buffer. -/
  out : Memory Char16
  /-- OUT_LEN (R34, R40). -/
  outLen : Word
  /-- ERR (R35). -/
  err : ErrKind
  /-- ERR_INFO (R35, R41). -/
  errInfo : Word
  /-- CTRL.ALPHABET (R37). -/
  ctrlAlphabet : Alphabet
  /-- IN_LEN (R39). -/
  inLen : Word
  /-- IN (20_memory.md R50), the input buffer: the cells written since reset. -/
  input : Memory Symbol
  /-- The model's own: how many resets there were; names what IN holds unwritten (log entry 2). -/
  epoch : Nat
  /-- The model's own: how many free values host reads have drawn (log entry 4). -/
  draws : Nat
  /-- The model's own: the moves of the agents still to come, the next one first (log entry 7). -/
  host : List HostMove
  /-- The model's own: what the host's last read returned (log entry 8). -/
  readData : Word
  deriving DecidableEq, Repr

/-- Why the machine stops. No fault can be met from a state that keeps the invariant of Safety.lean and
whose agents stay inside IN and OUT; each is safe (the model stops, the spec gives no effect). -/
inductive Fault where
  /-- Raised by every token outside PHASE FIRST and LOOP: no step is enabled (43_driver.md R173), and
  before INIT it would read run registers that hold no value (10_state.md R43). Safe. -/
  | tokenOutsideRun
  /-- Raised by REF, SELF's codes and the illegal codes where R78 says the token cannot occur (a REF
  outside 3 .. DICTLEN-1 or in FIRST, BAD_LOOP with a code not above DICTLEN, BAD_FIRST in LOOP). The
  decoder never gives such a token. Safe. -/
  | tokenCannotOccur
  /-- Raised by REF k when DICT holds no string at k (10_state.md R32); no reachable state. Safe. -/
  | dictEntryAbsent
  /-- Raised by FIRSTCHAR of the empty string (41_dictionary.md R126); no reachable state. Safe. -/
  | firstCharOfEmpty
  /-- Raised by a host access to IN at or above MAX_IN: no such index (20_memory.md R50). Safe. -/
  | inIndexOutside
  /-- Raised by a host access to OUT at or above MAX_OUT: no such index (R50). Safe. -/
  | outIndexOutside
  deriving DecidableEq, Repr

/-- What the model gives no move. -/
inductive Refusal where
  /-- Raised by an arm of exec whose token has no meaning yet; none is left. Safe. -/
  | notModelled (mnemonic : String)
  /-- Raised by a host register access at an offset that is no multiple of 4 (20_memory.md R56,
  93_implementation_defined.md I6: refuse). Safe. -/
  | csrMisaligned
  /-- Raised by a host register access that is not 32 bits wide (R56, I6: refuse). Safe. -/
  | csrNotWholeWord
  /-- Raised by a host write below IN_LEN while BUSY (70_reset_and_hazards.md R204, I5: refuse). Unsafe of
  a host that breaks this duty: the spec says so itself (20_memory.md R58). -/
  | inWriteWhileBusy
  /-- Raised by a host write of IN_LEN while BUSY (R204, I5: refuse). Unsafe in the same way. -/
  | inLenWriteWhileBusy
  /-- Raised by a host write that changes CTRL.ALPHABET while BUSY (R204, I5: refuse). Unsafe in the same way. -/
  | alphabetChangeWhileBusy
  deriving DecidableEq, Repr

/-- Right after reset (10_state.md R44, 70_reset_and_hazards.md R201). The run registers, to which R43
gives no value, have INIT's starting values or zero (log entry 1). -/
def State.reset : State :=
  { config := Config.reference
    phase := .idle
    alpha := .uriSafe
    n := 0
    value := 0
    bitPos := 32
    symIdx := 1
    drained := false
    indexBits := 2
    eug := 4
    dictLen := 3
    dict := []
    last := []
    out := []
    outLen := 0
    err := .none
    errInfo := 0
    ctrlAlphabet := .uriSafe
    inLen := 0
    input := []
    epoch := 0
    draws := 0
    host := []
    readData := 0 }

end Sys2Proof.Machine
end

