-- ==== Sys2Proof/Machine/Ops.lean ====
section
/-! DEFINITION. The named operations: memory, the bit reader (spec/40_bit_reader.md), the dictionary and the
string reconstructor (spec/41_dictionary.md), the start and the end of a run, and taking an error
(spec/60_exceptions.md R185). -/

namespace Sys2Proof.Machine

open Sys2Proof

/-! ## Memory (20_memory.md R50) -/

/-- The element at an index, if the index is listed. -/
def memGet {α : Type} : Memory α → Nat → Option α
  | [], _ => none
  | (k, v) :: m, a => if k = a then some v else memGet m a

/-- Store an element, keeping the indices strictly rising. -/
def memPut {α : Type} : Memory α → Nat → α → Memory α
  | [], a, v => [(a, v)]
  | (k, w) :: m, a, v =>
    if a < k then (a, v) :: (k, w) :: m
    else if a = k then (a, v) :: m
    else (k, w) :: memPut m a v

/-- Store elements at consecutive indices (the MemWrite loop of 41_dictionary.md R130). -/
def memPutAll {α : Type} : Memory α → Nat → List α → Memory α
  | m, _, [] => m
  | m, a, v :: vs => memPutAll (memPut m a v) (a + 1) vs

/-- The canonical form: indices strictly rising. An unlisted index holds no value, so no entry can be
equal to what an unlisted index holds. -/
abbrev Memory.wf {α : Type} (m : Memory α) : Prop := (m.map Prod.fst).Pairwise (· < ·)

/-- `MemRead(IN, i, 1)` (00_scope.md R11): the symbol in cell `i` of IN, or the unspecified symbol it has
held since reset (10_state.md R44, log entry 2). -/
def inSymbol (s : State) (i : Nat) : Symbol :=
  (memGet s.input i).getD (Config.freeSymbol s.epoch i)

/-! ## Results of an operation -/

/-- An operation gives a value and a state, raises an error (00_scope.md R11, R12) in the state it had
reached, or stops. -/
inductive Eff (α : Type) where
  | ok (a : α) (s : State)
  | raised (e : ErrKind) (info : Word) (s : State)
  | stop (f : Fault)
  deriving Repr

/-- One operation after another; nothing runs after an error (R12). -/
def Eff.andThen {α β : Type} (m : Eff α) (f : α → State → Eff β) : Eff β :=
  match m with
  | .ok a s => f a s
  | .raised e info s => .raised e info s
  | .stop r => .stop r

/-! ## Error entry and the ends of a run -/

/-- Taking an error (60_exceptions.md R185): ERR <- e, ERR_INFO <- i, PHASE <- DONE. Nothing is saved
and there is no handler; a new START is the only way on (R188). -/
def errorEntry (e : ErrKind) (info : Word) (s : State) : State :=
  { s with err := e, errInfo := info, phase := .done }

/-- The successful end of a run (43_driver.md R166). -/
def endRun (s : State) : State :=
  { s with phase := .done, err := .none, errInfo := 0 }

/-- The end of a step: an error that it raised is entered as its last action (R167, R185). -/
def conclude (m : Eff Unit) : Host.Outcome State Fault Refusal :=
  match m with
  | .ok _ s => .next s
  | .raised e info s => .next (errorEntry e info s)
  | .stop f => .fault f

/-! ## Bit reader (40_bit_reader.md R101 to R108) -/

/-- BITPOS <- BITPOS >> 1. -/
def rotate (s : State) : State := { s with bitPos := s.bitPos >>> 1 }

/-- BITPOS <- 32. -/
def restartBitPos (s : State) : State := { s with bitPos := 32 }

/-- VALUE <- v; SYMIDX <- SYMIDX + 1 (R103). -/
def loadSymbol (v : BitVec 7) (s : State) : State :=
  { s with value := v, symIdx := s.symIdx + 1 }

/-- DRAINED <- 1 (R104). -/
def drain (s : State) : State := { s with drained := true }

/-- The refill of R103 and R104, eager (R108), with the bit `b` that is returned after it. -/
def refill (b : Bool) (s : State) : Eff Bool :=
  if s.symIdx < s.n then
    match mapSymbol s.alpha (inSymbol s s.symIdx.toNat) with
    | none => .raised .illegalCharacter s.symIdx s
    | some v => .ok b (loadSymbol v s)
  else .ok b (drain s)

/-- The bit of VALUE that BITPOS marks (R101). -/
def currentBit (s : State) : Bool := (s.value &&& s.bitPos.setWidth 7) != 0

/-- READBIT() of R101. -/
def readBit (s : State) : Eff Bool :=
  if s.drained then .raised .unexpectedEndOfBuffer 0 s
  else if (rotate s).bitPos = 0 then refill (currentBit s) (restartBitPos (rotate s))
  else .ok (currentBit s) (rotate s)

/-- The loop of READBITS (R105), with the field so far and the weight of the next bit. -/
def readBitsFrom : (left field power : Nat) → State → Eff Nat
  | 0, r, _, s => .ok r s
  | left + 1, r, power, s =>
    (readBit s).andThen fun b s' => readBitsFrom left (r + b.toNat * power) (power * 2) s'

/-- READBITS(n) of R105. -/
def readBits (n : Nat) (s : State) : Eff Nat := readBitsFrom n 0 1 s

/-! ## Dictionary (41_dictionary.md R121 to R126) -/

/-- DICT[DICTLEN] <- str; DICTLEN <- DICTLEN + 1. -/
def pushEntry (str : Str) (s : State) : State :=
  { s with dict := memPut s.dict s.dictLen.toNat str, dictLen := s.dictLen + 1 }

/-- EUG <- EUG - 1, and the growth of R122: at 0, EUG <- 2^INDEXBITS with INDEXBITS before its increment. -/
def countEntry (s : State) : State :=
  { s with
    eug := if s.eug - 1 = 0 then BitVec.ofNat 32 (2 ^ s.indexBits.toNat) else s.eug - 1
    indexBits := if s.eug - 1 = 0 then s.indexBits + 1 else s.indexBits }

/-- APPEND(str) of R121, counted. -/
def append (str : Str) (s : State) : Eff Unit :=
  if s.dictLen = s.config.maxDict then .raised .capacityExceeded 2 s
  else .ok () (countEntry (pushEntry str s))

/-- SEED_APPEND(str) of R123, uncounted. -/
def seedAppend (str : Str) (s : State) : Eff Unit :=
  if s.dictLen = s.config.maxDict then .raised .capacityExceeded 2 s
  else .ok () (pushEntry str s)

/-- DICT[k] of R125. -/
def lookupEntry (k : Nat) (s : State) : Eff Str :=
  match memGet s.dict k with
  | some str => .ok str s
  | none => .stop .dictEntryAbsent

/-- FIRSTCHAR(str) of R126. -/
def firstChar (str : Str) (s : State) : Eff Char16 :=
  match str with
  | c :: _ => .ok c s
  | [] => .stop .firstCharOfEmpty

/-- The writes of EMIT: OUT[OUT_LEN + i] <- str[i]; OUT_LEN <- OUT_LEN + |str|. -/
def writeOut (str : Str) (s : State) : State :=
  { s with
    out := memPutAll s.out s.outLen.toNat str
    outLen := BitVec.ofNat 32 (s.outLen.toNat + str.length) }

/-- EMIT(str) of R130: the capacity is checked before any write. -/
def emit (str : Str) (s : State) : Eff Unit :=
  if s.outLen.toNat + str.length > s.config.maxOut.toNat then .raised .capacityExceeded 3 s
  else .ok () (writeOut str s)

/-- LAST <- tok. -/
def setLast (tok : Str) (s : State) : State := { s with last := tok }

/-- The width bump after the first token (R124), and PHASE <- LOOP (43_driver.md R164). -/
def enterLoop (s : State) : State := { s with indexBits := s.indexBits + 1, phase := .loop }

/-- What a FIRST step does with its token (43_driver.md R164). -/
def finishFirst (tok : Str) (s : State) : Eff Unit :=
  (emit tok s).andThen fun _ s => .ok () (enterLoop (setLast tok s))

/-- What a LOOP step does with its token (43_driver.md R165). -/
def finishLoop (tok : Str) (s : State) : Eff Unit :=
  (emit tok s).andThen fun _ s =>
  (firstChar tok s).andThen fun c s =>
  (append (s.last ++ [c]) s).andThen fun _ s => .ok () (setLast tok s)

/-! ## The start of a run (43_driver.md R160 to R163) -/

/-- START accepted: PHASE <- INIT (R160). -/
def startRun (s : State) : State := { s with phase := .init }

/-- The first lines of INIT_STEP (R161): latch the inputs, clear the results. -/
def latchRun (s : State) : State :=
  { s with alpha := s.ctrlAlphabet, n := s.inLen, outLen := 0, err := .none, errInfo := 0 }

/-- The starting values of R163 with the seed symbol's value (R162); PHASE <- FIRST. -/
def seedRun (v : BitVec 7) (s : State) : State :=
  { s with
    value := v, bitPos := 32, symIdx := 1, drained := false, indexBits := 2, eug := 4,
    dictLen := 3, dict := [], last := [], phase := .first }

/-- Reset at any time (70_reset_and_hazards.md R200, 10_state.md R44). The parameters are the instance's;
what IN holds unwritten is named anew (log entry 2); the host keeps its own side. -/
def resetFrom (s : State) : State :=
  { State.reset with
    config := s.config, epoch := s.epoch + 1, draws := s.draws, host := s.host, readData := s.readData }

end Sys2Proof.Machine
end

