-- ==== Sys2Proof/Machine/Operands.lean ====
section
/-! DEFINITION. Reading a token off the stream: its code and its operand field (spec/42_tokens.md R140,
spec/30_encoding.md R76 to R82). -/

namespace Sys2Proof.Machine

open Sys2Proof

/-- What decides how the next token is read (30_encoding.md R78, R80). -/
def tokenCtx (s : State) : TokenCtx :=
  { isFirst := decide (s.phase = .first), width := s.indexBits.toNat, dictLen := s.dictLen.toNat }

/-- The 8-bit literal operand of format L8 (30_encoding.md R77, R82). -/
def readChar8 (s : State) : Eff Instr :=
  (readBits 8 s).andThen fun v s => .ok (.lit8 (BitVec.ofNat 8 v)) s

/-- The 16-bit literal operand of format L16. -/
def readChar16 (s : State) : Eff Instr :=
  (readBits 16 s).andThen fun v s => .ok (.lit16 (BitVec.ofNat 16 v)) s

/-- The operand a code asks for; the code's class is fixed by the state at the token's start. -/
def readOperand (k : CodeClass) (s : State) : Eff Instr :=
  match k with
  | .lit8 => readChar8 s
  | .lit16 => readChar16 s
  | .endMark => .ok .endMark s
  | .ref k => .ok (.ref k) s
  | .selfRef => .ok .selfRef s
  | .badLoop c => .ok (.badLoop c) s
  | .badFirst => .ok .badFirst s

/-- Fetch the next token: `c <- READBITS(INDEXBITS)`, dispatch on it, read its operand (R140). -/
def fetchToken (s : State) : Eff Instr :=
  (readBits s.indexBits.toNat s).andThen fun c s' => readOperand (codeClass (tokenCtx s) c) s'

/-- The zero-extended character of an 8-bit literal (30_encoding.md R82). -/
def zext16 (ch : BitVec 8) : Char16 := ch.setWidth 16

end Sys2Proof.Machine
end

