-- ==== Sys2Proof/Machine/BackReference.lean ====
section
/-! DEFINITION. The back-reference and the self-referential extension (spec/42_tokens.md R144, R145). -/

namespace Sys2Proof.Machine

open Sys2Proof

/-- REF k (R144). In FIRST it cannot occur. -/
def execRef (k : Nat) (s : State) : Host.Outcome State Fault Refusal :=
  match s.phase with
  | .loop =>
    if 3 ≤ k ∧ k < s.dictLen.toNat then
      conclude ((lookupEntry k s).andThen fun tok s => finishLoop tok s)
    else .fault .tokenCannotOccur
  | .first => .fault .tokenCannotOccur
  | .idle => .fault .tokenOutsideRun
  | .init => .fault .tokenOutsideRun
  | .done => .fault .tokenOutsideRun

/-- SELF (R145). In FIRST its code is illegal (R147). -/
def execSelfRef (s : State) : Host.Outcome State Fault Refusal :=
  match s.phase with
  | .loop => conclude ((firstChar s.last s).andThen fun c s => finishLoop (s.last ++ [c]) s)
  | .first => .next (errorEntry .badEncoding s.dictLen s)
  | .idle => .fault .tokenOutsideRun
  | .init => .fault .tokenOutsideRun
  | .done => .fault .tokenOutsideRun

end Sys2Proof.Machine
end

