-- ==== Sys2Proof/Machine/Control.lean ====
section
/-! DEFINITION. The end-of-stream marker and the illegal codes (spec/42_tokens.md R143, R146, R147). -/

namespace Sys2Proof.Machine

open Sys2Proof

/-- END (R143): the run ends with success. -/
def execEndMark (s : State) : Host.Outcome State Fault Refusal :=
  match s.phase with
  | .first => .next (endRun s)
  | .loop => .next (endRun s)
  | .idle => .fault .tokenOutsideRun
  | .init => .fault .tokenOutsideRun
  | .done => .fault .tokenOutsideRun

/-- BAD_LOOP c (R146, and the last line of R140): a code above DICTLEN raises BadEncoding(c). -/
def execBadLoop (c : Nat) (s : State) : Host.Outcome State Fault Refusal :=
  match s.phase with
  | .first =>
    if s.dictLen.toNat < c then .next (errorEntry .badEncoding (BitVec.ofNat 32 c) s)
    else .fault .tokenCannotOccur
  | .loop =>
    if s.dictLen.toNat < c then .next (errorEntry .badEncoding (BitVec.ofNat 32 c) s)
    else .fault .tokenCannotOccur
  | .idle => .fault .tokenOutsideRun
  | .init => .fault .tokenOutsideRun
  | .done => .fault .tokenOutsideRun

/-- BAD_FIRST (R147): the first code 3 raises BadEncoding(3). -/
def execBadFirst (s : State) : Host.Outcome State Fault Refusal :=
  match s.phase with
  | .first => .next (errorEntry .badEncoding 3 s)
  | .loop => .fault .tokenCannotOccur
  | .idle => .fault .tokenOutsideRun
  | .init => .fault .tokenOutsideRun
  | .done => .fault .tokenOutsideRun

end Sys2Proof.Machine
end

