-- ==== Sys2Proof/Machine/Literal.lean ====
section
/-! DEFINITION. The literals (spec/42_tokens.md R141, R142). -/

namespace Sys2Proof.Machine

open Sys2Proof

/-- The effect that R141 and R142 give a literal character, in FIRST and in LOOP. -/
def literal (ch : Char16) (s : State) : Host.Outcome State Fault Refusal :=
  match s.phase with
  | .first => conclude ((seedAppend [ch] s).andThen fun _ s => finishFirst [ch] s)
  | .loop => conclude ((append [ch] s).andThen fun _ s => finishLoop [ch] s)
  | .idle => .fault .tokenOutsideRun
  | .init => .fault .tokenOutsideRun
  | .done => .fault .tokenOutsideRun

/-- LIT8 (R141): the operand is zero-extended. -/
def execLit8 (ch : BitVec 8) (s : State) : Host.Outcome State Fault Refusal := literal (zext16 ch) s

/-- LIT16 (R142): every value is taken as one character. -/
def execLit16 (ch : BitVec 16) (s : State) : Host.Outcome State Fault Refusal := literal ch s

end Sys2Proof.Machine
end

