-- ==== Sys2Proof/Machine/Dispatch.lean ====
section
/-! DEFINITION. One arm for each token. -/

namespace Sys2Proof.Machine

open Sys2Proof

def exec (i : Instr) (s : State) : Host.Outcome State Fault Refusal :=
  match i with
  | .lit8 ch => Sys2Proof.Machine.execLit8 ch s
  | .lit16 ch => Sys2Proof.Machine.execLit16 ch s
  | .endMark => Sys2Proof.Machine.execEndMark s
  | .ref k => Sys2Proof.Machine.execRef k s
  | .selfRef => Sys2Proof.Machine.execSelfRef s
  | .badLoop c => Sys2Proof.Machine.execBadLoop c s
  | .badFirst => Sys2Proof.Machine.execBadFirst s

end Sys2Proof.Machine
end

