-- ==== Sys2Proof/Machine/Flags.lean ====
section
/-! DEFINITION. The host registers' words: CTRL, STATUS and their fields (spec/10_state.md R36 to R42, R45). The
engine has no condition codes (R45). -/

namespace Sys2Proof.Machine

open Sys2Proof

/-- The encoding of PHASE (10_state.md R21). -/
def Phase.code : Phase → BitVec 3
  | .idle => 0
  | .init => 1
  | .first => 2
  | .loop => 3
  | .done => 4

/-- The encoding of ERR (60_exceptions.md R180). -/
def ErrKind.code : ErrKind → BitVec 3
  | .none => 0
  | .illegalCharacter => 1
  | .badEncoding => 2
  | .unexpectedEndOfBuffer => 3
  | .capacityExceeded => 4

/-- STATUS.BUSY: PHASE is INIT, FIRST or LOOP (10_state.md R38). -/
def busy (s : State) : Bool :=
  match s.phase with
  | .idle => false
  | .init => true
  | .first => true
  | .loop => true
  | .done => false

/-- STATUS.DONE: PHASE is DONE (R38). -/
def done (s : State) : Bool := decide (s.phase = .done)

/-- STATUS.ERR: the error of the run that ended, 0 while BUSY (R38, log entry 21). -/
def statusErr (s : State) : BitVec 3 := if busy s then 0 else s.err.code

/-- The word STATUS reads: BUSY bit 0, DONE bit 1, ERR bits 6:4, the rest 0 (R38). -/
def statusWord (s : State) : Word :=
  (BitVec.ofBool (busy s)).setWidth 32 ||| ((BitVec.ofBool (done s)).setWidth 32 <<< 1)
    ||| ((statusErr s).setWidth 32 <<< 4)

/-- The encoding of the alphabet select (R37, 92_eei_decisions.md D19). -/
def alphabetBit : Alphabet → Bool
  | .uriSafe => false
  | .base64 => true

/-- The alphabet a CTRL word selects: its bit 1 (R37). -/
def ctrlAlphabetOf (data : Word) : Alphabet := if data.getLsbD 1 then .base64 else .uriSafe

/-- The START bit of a CTRL word (R37). -/
def ctrlStartOf (data : Word) : Bool := data.getLsbD 0

/-- The word CTRL reads: START always 0, ALPHABET bit 1, the rest 0 (R37). -/
def ctrlWord (s : State) : Word := (BitVec.ofBool (alphabetBit s.ctrlAlphabet)).setWidth 32 <<< 1

/-- Whether OUT and OUT_LEN are a run's result: STATUS.DONE = 1 and STATUS.ERR = NONE (R34, R40). -/
def resultValid (s : State) : Bool := decide (s.phase = .done) && decide (s.err = .none)

end Sys2Proof.Machine
end

