-- ==== Sys2Proof/Machine/Driver.lean ====
section
/-! DEFINITION. The decompression state machine: the INIT, FIRST and LOOP steps (spec/43_driver.md R161 to R167)
and the placing of a table word where the next token is read. -/

namespace Sys2Proof.Machine

open Sys2Proof

/-- INIT_STEP and SEED (R161 to R163). -/
def initStep (s : State) : Host.Outcome State Fault Refusal :=
  let t := latchRun s
  if t.config.maxIn < t.n then .next (errorEntry .capacityExceeded 1 t)
  else if t.n = 0 then .next (endRun t)
  else
    match mapSymbol t.alpha (inSymbol t 0) with
    | none => .next (errorEntry .illegalCharacter 0 t)
    | some v => .next (seedRun v t)

/-- DECODE_NEXT and what the step does with its result (42_tokens.md R140): fetch a token and run it. -/
def tokenStep (s : State) : Host.Outcome State Fault Refusal :=
  match fetchToken s with
  | .ok i s' => exec i s'
  | .raised e info s' => .next (errorEntry e info s')
  | .stop f => .fault f

/-- FIRST_STEP (R164). -/
def firstStep (s : State) : Host.Outcome State Fault Refusal := tokenStep s

/-- LOOP_STEP (R165): the DRAINED check comes before any read. -/
def loopStep (s : State) : Host.Outcome State Fault Refusal :=
  if s.drained then .next (errorEntry .unexpectedEndOfBuffer 0 s) else tokenStep s

/-- The engine's next step (R173). In IDLE and DONE none is enabled, and the engine waits: nothing
changes (60_exceptions.md R194, log entry 9). -/
def engineStep (s : State) : Host.Outcome State Fault Refusal :=
  match s.phase with
  | .idle => .next s
  | .init => initStep s
  | .first => firstStep s
  | .loop => loopStep s
  | .done => .next s

/-- `s` with `syms` as the whole input, its first symbol seeded, and the engine's turn next. -/
def placeSymbols (syms : List Symbol) (s : State) : State :=
  { s with
    input := memPutAll s.input 0 syms
    inLen := BitVec.ofNat 32 syms.length
    n := BitVec.ofNat 32 syms.length
    value := (mapSymbol s.alpha (syms.headD 0)).getD 0
    bitPos := 32
    symIdx := 1
    drained := false
    host := .engineTurn :: s.host }

/-- The registers of a run at its first token, as START and INIT leave them (R160 to R163), for a state
that is not at a token. -/
def atToken (s : State) : State :=
  match s.phase with
  | .first => s
  | .loop => s
  | .idle => seedRun 0 (latchRun s)
  | .init => seedRun 0 (latchRun s)
  | .done => seedRun 0 (latchRun s)

/-- `s` with a table word as its next token (log entry 17). -/
def placeWord (nbits w : Nat) (s : State) : State :=
  let t := atToken s
  placeSymbols (tableSymbols t.alpha (tokenCtx t) nbits w) t

end Sys2Proof.Machine
end

