-- ==== Sys2Proof/Machine/HostPort.lean ====
section
/-! DEFINITION. The moves of the host and of the reset input (spec/10_state.md R36 to R42, spec/20_memory.md R50 to
R59, spec/43_driver.md R160, spec/70_reset_and_hazards.md R200 to R207). -/

namespace Sys2Proof.Machine

open Sys2Proof

/-- The host's read returns `w`. -/
def returnWord (w : Word) (s : State) : Host.Outcome State Fault Refusal :=
  .next { s with readData := w }

/-- The host's read returns any word (R205): a free value, and the next read draws another. -/
def returnFreeWord (s : State) : Host.Outcome State Fault Refusal :=
  .next { s with readData := Config.freeWord s.draws, draws := s.draws + 1 }

/-- The host's read returns any character's word under `f`. -/
def returnFreeChar (f : Char16 → Word) (s : State) : Host.Outcome State Fault Refusal :=
  .next { s with readData := f (Config.freeChar s.draws), draws := s.draws + 1 }

/-- A write to CTRL (43_driver.md R160): ALPHABET is stored, then START in IDLE or DONE starts a run.
While BUSY, START is ignored (R206) and a changed ALPHABET is no move of the host (R204). -/
def ctrlWrite (data : Word) (s : State) : Host.Outcome State Fault Refusal :=
  let t := { s with ctrlAlphabet := ctrlAlphabetOf data }
  if busy s then
    if ctrlAlphabetOf data = s.ctrlAlphabet then .next s else .refused .alphabetChangeWhileBusy
  else if ctrlStartOf data then .next (startRun t)
  else .next t

/-- A write to IN_LEN (10_state.md R39, 70_reset_and_hazards.md R204). -/
def inLenWrite (data : Word) (s : State) : Host.Outcome State Fault Refusal :=
  if busy s then .refused .inLenWriteWhileBusy else .next { s with inLen := data }

/-- A whole-word write at a multiple of 4 (10_state.md R36): STATUS, OUT_LEN, ERR_INFO and the reserved
offsets ignore it (R38, log entry 11). -/
def csrWriteWord (offset : Nat) (data : Word) (s : State) : Host.Outcome State Fault Refusal :=
  if offset = 0x00 then ctrlWrite data s
  else if offset = 0x08 then inLenWrite data s
  else .next s

/-- OUT_LEN as the host reads it (R40): the register after reset and after a success, else any value. -/
def outLenRead (s : State) : Host.Outcome State Fault Refusal :=
  if s.phase = .idle ∨ resultValid s then returnWord s.outLen s else returnFreeWord s

/-- ERR_INFO as the host reads it (R41): any value while BUSY (R205). -/
def errInfoRead (s : State) : Host.Outcome State Fault Refusal :=
  if busy s then returnFreeWord s else returnWord s.errInfo s

/-- A whole-word read at a multiple of 4 (R36). Reserved offsets read 0. -/
def csrReadWord (offset : Nat) (s : State) : Host.Outcome State Fault Refusal :=
  if offset = 0x00 then returnWord (ctrlWord s) s
  else if offset = 0x04 then returnWord (statusWord s) s
  else if offset = 0x08 then returnWord s.inLen s
  else if offset = 0x0C then outLenRead s
  else if offset = 0x10 then errInfoRead s
  else returnWord 0 s

/-- A register access must be 32 bits wide at a multiple of 4 (20_memory.md R56); others are refused. -/
def csrAccess (offset width : Nat) (k : Host.Outcome State Fault Refusal) : Host.Outcome State Fault Refusal :=
  if offset % 4 ≠ 0 then .refused .csrMisaligned
  else if width ≠ 32 then .refused .csrNotWholeWord
  else k

/-- A host write of IN (20_memory.md R50, 70_reset_and_hazards.md R204, log entry 12). -/
def inWrite (i : Nat) (b : Symbol) (s : State) : Host.Outcome State Fault Refusal :=
  if s.config.maxIn.toNat ≤ i then .fault .inIndexOutside
  else if busy s ∧ i < s.inLen.toNat then .refused .inWriteWhileBusy
  else .next { s with input := memPut s.input i b }

/-- A host read back of IN (R50). -/
def inRead (i : Nat) (s : State) : Host.Outcome State Fault Refusal :=
  if s.config.maxIn.toNat ≤ i then .fault .inIndexOutside
  else returnWord ((inSymbol s i).setWidth 32) s

/-- The character of OUT that a host can rely on at index `i`: a run ended with success and `i` is below
OUT_LEN (10_state.md R34, 70_reset_and_hazards.md R207). -/
def resultChar (s : State) (i : Nat) : Option Char16 :=
  if resultValid s ∧ i < s.outLen.toNat then memGet s.out i else none

/-- A host read of OUT at index `i`, seen through `f` (R50); any value where OUT is no result (log entry 3). -/
def outReadWith (f : Char16 → Word) (i : Nat) (s : State) : Host.Outcome State Fault Refusal :=
  if s.config.maxOut.toNat ≤ i then .fault .outIndexOutside
  else
    match resultChar s i with
    | some c => returnWord (f c) s
    | none => returnFreeChar f s

/-- Byte `j` (0 or 1) of a character under OUT_BYTE_ORDER (00_scope.md R8, log entry 6). -/
def charByte (o : ByteOrder) (j : Nat) (c : Char16) : Word :=
  match o with
  | .little => if j = 0 then (c.extractLsb' 0 8).setWidth 32 else (c.extractLsb' 8 8).setWidth 32
  | .big => if j = 0 then (c.extractLsb' 8 8).setWidth 32 else (c.extractLsb' 0 8).setWidth 32

/-- One move of the agents. -/
def agentMove (m : HostMove) (s : State) : Host.Outcome State Fault Refusal :=
  match m with
  | .engineTurn => engineStep s
  | .reset => .next (resetFrom s)
  | .csrWrite offset width data => csrAccess offset width (csrWriteWord offset data s)
  | .csrRead offset width => csrAccess offset width (csrReadWord offset s)
  | .inWrite i b => inWrite i b s
  | .inRead i => inRead i s
  | .outRead i => outReadWith (fun c => c.setWidth 32) i s
  | .outReadByte a => outReadWith (charByte s.config.outByteOrder (a % 2)) (a / 2) s

/-- The next entry of the script moves; an empty script leaves the turn to the engine (log entry 7). -/
def scheduledMove (s : State) : Host.Outcome State Fault Refusal :=
  match s.host with
  | [] => engineStep s
  | m :: rest => agentMove m { s with host := rest }

end Sys2Proof.Machine
end

