-- ==== Sys2Proof/Machine/Step.lean ====
section
/-! DEFINITION. One step of the machine, and where its next token is read. -/

namespace Sys2Proof.Machine

open Sys2Proof

/-- One atomic transition (spec/70_reset_and_hazards.md R208): of the engine, of the host, or reset. -/
def step (s : State) : Host.Outcome State Fault Refusal := scheduledMove s

/-- `s` with the table word `w` as the token that the next step fetches and runs. -/
def State.withFetchWord (s : State) (nbits w : Nat) : State := placeWord nbits w s

end Sys2Proof.Machine
end

