-- ==== Sys2Proof/Safety.lean ====
section
/-! DEFINITION. The terms the claims use: the bit cursor and the stream (spec/10_state.md R28, spec/30_encoding.md
R74), what lies ahead of the cursor, and the invariant of the machine (spec/10_state.md R46, spec/41_dictionary.md
R127, R132). -/

namespace Sys2Proof.Machine

open Sys2Proof

/-! ## The bit cursor (10_state.md R28) and the stream (30_encoding.md R74, R75) -/

/-- `consumed` of R28: how many input bits have been read. -/
def consumed (s : State) : Nat :=
  if s.drained then 6 * s.n.toNat else 6 * s.symIdx.toNat - (Nat.log2 s.bitPos.toNat + 1)

/-- Bit `j` of the stream (R74): bit `5 - (j mod 6)` of MAP(ALPHA, IN[floor(j / 6)]). -/
def streamBit (s : State) (j : Nat) : Bool :=
  match mapSymbol s.alpha (inSymbol s (j / 6)) with
  | some v => v.getLsbD (5 - j % 6)
  | none => false

/-- The n-bit field that starts at stream bit `j` (R75): the sum over i < n of bit (j + i) times 2^i. -/
def streamField (s : State) (j : Nat) : Nat → Nat
  | 0 => 0
  | n + 1 => streamField s j n + (streamBit s (j + n)).toNat * 2 ^ n

/-- IN[i] is in the alphabet of the run. -/
def isMapped (s : State) (i : Nat) : Prop := ∃ v, mapSymbol s.alpha (inSymbol s i) = some v

/-! ## What lies ahead of the cursor -/

/-- The bits of VALUE that are still to be read, in stream order. -/
def aheadBits (s : State) : List Bool :=
  if s.drained then [] else (symbolBits s.value).drop (5 - Nat.log2 s.bitPos.toNat)

/-- The symbols of IN that are still to be fetched. -/
def aheadSymbols (s : State) : List Symbol :=
  (List.range' s.symIdx.toNat (s.n.toNat - s.symIdx.toNat)).map (inSymbol s)

/-- The pure decoder of Decode.lean on what lies ahead of the cursor. -/
def decodeAhead (s : State) : Decoded :=
  decodeFrom s.alpha (tokenCtx s) (aheadBits s) s.symIdx.toNat (aheadSymbols s)

/-- The state in which the engine takes its turn, if the turn is the engine's. -/
def engineTurnState (s : State) : Option State :=
  match s.host with
  | [] => some s
  | .engineTurn :: rest => some { s with host := rest }
  | _ :: _ => none

/-- The string a token emits in the state `s` (42_tokens.md R141 to R145). -/
def tokenString (s : State) : Instr → Option Str
  | .lit8 ch => some [zext16 ch]
  | .lit16 ch => some [ch]
  | .endMark => none
  | .ref k => memGet s.dict k
  | .selfRef => s.last.head?.map fun c => s.last ++ [c]
  | .badLoop _ => none
  | .badFirst => none

/-- `t` is `s` but for the registers of the bit reader. -/
def sameButReader (s t : State) : Prop :=
  t = { s with value := t.value, bitPos := t.bitPos, symIdx := t.symIdx, drained := t.drained }

/-! ## The invariant -/

/-- BITPOS is one-hot (10_state.md R25). -/
def oneHot (b : BitVec 6) : Prop := b = 1 ∨ b = 2 ∨ b = 4 ∨ b = 8 ∨ b = 16 ∨ b = 32

/-- The bit reader of a run between two operations (R24 to R27). -/
structure ReaderOk (s : State) : Prop where
  bitPos : oneHot s.bitPos
  symIdx_pos : 1 ≤ s.symIdx.toNat
  symIdx_le : s.symIdx.toNat ≤ s.n.toNat
  value : mapSymbol s.alpha (inSymbol s (s.symIdx.toNat - 1)) = some s.value
  drained : s.drained = true → s.symIdx = s.n ∧ s.bitPos = 32

/-- The width invariant of 41_dictionary.md R127. -/
def widthOk (s : State) : Prop :=
  s.indexBits.toNat = bitlength s.dictLen.toNat ∧
    s.eug.toNat + s.dictLen.toNat = 2 ^ s.indexBits.toNat

/-- Every entry below DICTLEN is there, is not empty and has length at most its index less 2 (R132). -/
def entriesOk (s : State) : Prop :=
  ∀ k, 3 ≤ k → k < s.dictLen.toNat →
    ∃ str, memGet s.dict k = some str ∧ str ≠ [] ∧ str.length ≤ k - 2

/-- LAST equals some entry (10_state.md R33). -/
def lastOk (s : State) : Prop :=
  ∃ k, 3 ≤ k ∧ k < s.dictLen.toNat ∧ memGet s.dict k = some s.last

/-- Every character below OUT_LEN has been written (R34). -/
def outOk (s : State) : Prop := ∀ i, i < s.outLen.toNat → ∃ c, memGet s.out i = some c

/-- What holds in phases FIRST and LOOP: the latched inputs are the host's registers (R22, R23, with the
host duty of 70_reset_and_hazards.md R204), and no error is held (10_state.md R35). -/
structure RunOk (s : State) : Prop where
  reader : ReaderOk s
  n_eq : s.n = s.inLen
  alpha_eq : s.alpha = s.ctrlAlphabet
  n_le : s.n.toNat ≤ s.config.maxIn.toNat
  noError : s.err = .none
  outWritten : outOk s

/-- What holds in phase FIRST (43_driver.md R163). -/
structure FirstOk (s : State) : Prop where
  dictLen : s.dictLen = 3
  indexBits : s.indexBits = 2
  eug : s.eug = 4
  dict : s.dict = []
  last : s.last = []
  outLen : s.outLen = 0

/-- What holds in phase LOOP (10_state.md R46, R33). -/
structure LoopOk (s : State) : Prop where
  dictLen : 4 ≤ s.dictLen.toNat
  width : widthOk s
  entries : entriesOk s
  last : lastOk s

/-- The invariant of the machine. -/
structure EngineInv (s : State) : Prop where
  config : s.config.wf
  inputWf : Memory.wf s.input
  outWf : Memory.wf s.out
  dictWf : Memory.wf s.dict
  inputBelow : ∀ p ∈ s.input, p.1 < s.config.maxIn.toNat
  outBelow : ∀ p ∈ s.out, p.1 < s.config.maxOut.toNat
  dictBelow : ∀ p ∈ s.dict, 3 ≤ p.1 ∧ p.1 < s.dictLen.toNat
  dictLen_ge : 3 ≤ s.dictLen.toNat
  dictLen_le : s.dictLen.toNat ≤ s.config.maxDict.toNat
  outLen_le : s.outLen.toNat ≤ s.config.maxOut.toNat
  bitPos : oneHot s.bitPos
  value_le : s.value.toNat ≤ 64
  errInfo : s.err = .none → s.errInfo = 0
  idle : s.phase = .idle → s.err = .none ∧ s.outLen = 0
  run : s.phase = .first ∨ s.phase = .loop → RunOk s
  first : s.phase = .first → FirstOk s
  loop : s.phase = .loop → LoopOk s
  result : s.phase = .done → s.err = .none → outOk s

/-- What a run is determined in by its input (43_driver.md R168): PHASE, ERR, ERR_INFO, OUT_LEN and the
characters below it, after an error too. (What OUT_LEN and OUT hold after an error is log entry 19's.) -/
def sameResult (s t : State) : Prop :=
  s.phase = t.phase ∧ s.err = t.err ∧ s.errInfo = t.errInfo ∧ s.outLen = t.outLen ∧
    ∀ i, i < s.outLen.toNat → memGet s.out i = memGet t.out i

end Sys2Proof.Machine
end

