-- ==== Sys2Proof/Certificates/Slice0/Obligations.lean ====
section
/-! DEFINITION. The statements about the engine that are put to the provers. Each says which rule of spec/ it
formalises; a clause that rests on a choice of the model names the log entry. -/

open Sys2Proof
open Sys2Proof.Machine

/-! ## Reset -/

/-- 10_state.md R44, 70_reset_and_hazards.md R201: the values that the spec gives for reset. -/
def Obligations.ResetIsIdleAndClear : Prop :=
  State.reset.phase = .idle ∧ State.reset.ctrlAlphabet = .uriSafe ∧ ctrlWord State.reset = 0 ∧
    State.reset.inLen = 0 ∧ statusWord State.reset = 0 ∧ State.reset.outLen = 0 ∧
    State.reset.err = .none ∧ State.reset.errInfo = 0

/-- 70_reset_and_hazards.md R200: reset takes effect in any state, abandons a run without error entry and
keeps the instance's parameters. -/
def Obligations.ResetAbandonsAnyRun : Prop :=
  ∀ (s : State) (rest : List HostMove), s.host = .reset :: rest →
    ∃ t, step s = .next t ∧ t.phase = .idle ∧ t.err = .none ∧ t.errInfo = 0 ∧ t.outLen = 0 ∧
      t.ctrlAlphabet = .uriSafe ∧ t.inLen = 0 ∧ statusWord t = 0 ∧ t.config = s.config ∧ t.host = rest

/-! ## Alphabets, decoding and encoding -/

/-- 30_encoding.md R70, R71: each table in the order of its values, 65 symbols, and every other symbol is
unmapped. The order is the spec's general knowledge (log entry 15). -/
def Obligations.AlphabetTablesAsListed : Prop :=
  ∀ (s : Symbol) (v : BitVec 7),
    (mapSymbol .uriSafe s = some v ↔
      (List.range' 0x41 26 ++ List.range' 0x61 26 ++ List.range' 0x30 10 ++ [0x2B, 0x2D, 0x24])[v.toNat]?
        = some s.toNat) ∧
    (mapSymbol .base64 s = some v ↔
      (List.range' 0x41 26 ++ List.range' 0x61 26 ++ List.range' 0x30 10 ++ [0x2B, 0x2F, 0x3D])[v.toNat]?
        = some s.toNat)

/-- 30_encoding.md R72: symbols that avoid `-`, `$`, `/` and `=` decode the same way under both alphabets. -/
def Obligations.AlphabetsAgreeOffTheDivergentSymbols : Prop :=
  ∀ (x : TokenCtx) (syms : List Symbol),
    (∀ s ∈ syms, s ≠ 0x2D ∧ s ≠ 0x24 ∧ s ≠ 0x2F ∧ s ≠ 0x3D) →
      decodeSymbols .uriSafe x syms = decodeSymbols .base64 x syms

/-- 30_encoding.md R73: a value-64 symbol contributes six 0 bits, like `A`. -/
def Obligations.PaddingSymbolsReadAsZeroBits : Prop :=
  ∀ (ss : List Symbol),
    mappedBits .uriSafe (0x24 :: ss) = List.replicate 6 false ++ mappedBits .uriSafe ss ∧
      mappedBits .base64 (0x3D :: ss) = List.replicate 6 false ++ mappedBits .base64 ss ∧
      mappedBits .uriSafe (0x24 :: ss) = mappedBits .uriSafe (0x41 :: ss) ∧
      mappedBits .base64 (0x3D :: ss) = mappedBits .base64 (0x41 :: ss)

/-- 30_encoding.md R75 to R78: decoding an encoded well-formed token gives it back, with every operand,
whatever follows in the stream. -/
def Obligations.DecodeOfEncodeIsTheToken : Prop :=
  ∀ (x : TokenCtx) (i : Instr) (rest : List Bool), x.legal → i.wellFormed x = true →
    decodeBits x (encodeBits x i ++ rest) = some (i, rest)

/-- 30_encoding.md R70, R74, R79, R83: the same through the symbols of either alphabet; what is left is the
padding, fewer than six 0 bits. -/
def Obligations.DecodeOfEncodedSymbolsIsTheToken : Prop :=
  ∀ (a : Alphabet) (x : TokenCtx) (i : Instr), x.legal → i.wellFormed x = true →
    ∃ k, k < 6 ∧ decodeSymbols a x (encode a x i) = .token i (List.replicate k false)

/-- 30_encoding.md R78: each word has one meaning. What decodes is well-formed, and its encoding is the
bits that were read. -/
def Obligations.EncodeOfDecodeIsTheStream : Prop :=
  ∀ (x : TokenCtx) (i : Instr) (bits rest : List Bool), x.legal → decodeBits x bits = some (i, rest) →
    i.wellFormed x = true ∧ bits = encodeBits x i ++ rest

/-- 30_encoding.md R78: SELF is always writable in LOOP, illegal codes exist exactly when DICTLEN is
below 2^W - 1, and in FIRST the code 3 is the only illegal one. -/
def Obligations.IllegalCodesExistExactlyBelowFullWidth : Prop :=
  (∀ x : TokenCtx, x.legal → x.isFirst = false →
    x.dictLen < 2 ^ x.width ∧ codeClass x x.dictLen = .selfRef ∧
      ((∃ c, c < 2 ^ x.width ∧ codeClass x c = .badLoop c) ↔ x.dictLen < 2 ^ x.width - 1)) ∧
  (∀ x : TokenCtx, x.legal → x.isFirst = true → ∀ c, c < 2 ^ x.width →
    (codeClass x c = .badFirst ↔ c = 3) ∧ ∀ k, codeClass x c ≠ .badLoop k ∧ codeClass x c ≠ .ref k)

/-- Words written out from the spec's own examples (42_tokens.md R141 to R147, 95_test_vectors.md) decode to
the tokens they stand for. -/
def Obligations.WordsOfTheSpecDecode : Prop :=
  decodeBits TokenCtx.atFirst [false, false, true, false, false, false, false, true, true, false]
      = some (.lit8 97, []) ∧
    decodeBits TokenCtx.atFirst
        [true, false, false, false, true, true, false, true, false, true, false, false, false, false, false, true,
          false, false] = some (.lit16 0x20AC, []) ∧
    decodeBits TokenCtx.atFirst [false, true] = some (.endMark, []) ∧
    decodeBits TokenCtx.atFirst [true, true] = some (.badFirst, []) ∧
    decodeBits (TokenCtx.atLoop 6) [true, false, true] = some (.ref 5, []) ∧
    decodeBits (TokenCtx.atLoop 4) [false, false, true] = some (.selfRef, []) ∧
    decodeBits (TokenCtx.atLoop 4) [true, false, true] = some (.badLoop 5, [])

/-! ## Bit reader -/

/-- 40_bit_reader.md R102: READBIT with DRAINED = 1 raises UnexpectedEndOfBuffer(0), changes nothing, and
nothing else raises that error. -/
def Obligations.ReadBitOnDrainedRaises : Prop :=
  (∀ s : State, s.drained = true → readBit s = .raised .unexpectedEndOfBuffer 0 s) ∧
    ∀ (s t : State) (info : Word), readBit s = .raised .unexpectedEndOfBuffer info t →
      s.drained = true ∧ info = 0 ∧ t = s

/-- 40_bit_reader.md R101: with BITPOS = 2^(k+1), READBIT returns bit k+1 of VALUE and halves BITPOS. -/
def Obligations.ReadBitReturnsTheMarkedBit : Prop :=
  ∀ (s : State) (k : Nat), s.drained = false → k < 5 → s.bitPos = BitVec.ofNat 6 (2 ^ (k + 1)) →
    readBit s = .ok (s.value.getLsbD (k + 1)) { s with bitPos := BitVec.ofNat 6 (2 ^ k) }

/-- 40_bit_reader.md R101, R103, R104: the READBIT that empties BITPOS returns bit 0 and refills: a mapped
symbol is loaded, an unmapped one raises IllegalCharacter(SYMIDX), and at the end of the input DRAINED is set. -/
def Obligations.LastBitOfASymbolRefills : Prop :=
  ∀ s : State, s.drained = false → s.bitPos = 1 →
    (∀ v, s.symIdx < s.n → mapSymbol s.alpha (inSymbol s s.symIdx.toNat) = some v →
      readBit s = .ok (s.value.getLsbD 0) { s with bitPos := 32, value := v, symIdx := s.symIdx + 1 }) ∧
    (s.symIdx < s.n → mapSymbol s.alpha (inSymbol s s.symIdx.toNat) = none →
      readBit s = .raised .illegalCharacter s.symIdx { s with bitPos := 32 }) ∧
    (¬ s.symIdx < s.n → readBit s = .ok (s.value.getLsbD 0) { s with bitPos := 32, drained := true })

/-- 40_bit_reader.md R106, 30_encoding.md R75: READBITS(n) at cursor j returns the n-bit field at stream bit j
and leaves the cursor at j + n, if the bits are there and the symbols it fetches are mapped (R108: with the
one after the field where the field ends a symbol). -/
def Obligations.ReadBitsReturnsTheStreamField : Prop :=
  ∀ (s : State) (n : Nat), ReaderOk s → consumed s + n ≤ 6 * s.n.toNat →
    (∀ i, i < s.n.toNat → consumed s < 6 * i → 6 * i ≤ consumed s + n → isMapped s i) →
      ∃ t, readBits n s = .ok (streamField s (consumed s) n) t ∧ consumed t = consumed s + n ∧
        ReaderOk t ∧ sameButReader s t

/-- 40_bit_reader.md R106, 60_exceptions.md R183: a field that runs past the input raises
UnexpectedEndOfBuffer(0), if every symbol still to be fetched is mapped. -/
def Obligations.ReadBitsPastTheEndRaises : Prop :=
  ∀ (s : State) (n : Nat), ReaderOk s → 6 * s.n.toNat < consumed s + n →
    (∀ i, i < s.n.toNat → consumed s < 6 * i → isMapped s i) →
      ∃ t, readBits n s = .raised .unexpectedEndOfBuffer 0 t ∧ sameButReader s t

/-- 40_bit_reader.md R106, R108, 60_exceptions.md R181: the first unmapped symbol that the field fetches
raises IllegalCharacter with its index. -/
def Obligations.ReadBitsRaisesAtTheFirstUnmappedSymbol : Prop :=
  ∀ (s : State) (n k : Nat), ReaderOk s → k < s.n.toNat → consumed s < 6 * k → 6 * k ≤ consumed s + n →
    ¬ isMapped s k → (∀ i, i < k → consumed s < 6 * i → isMapped s i) →
      ∃ t, readBits n s = .raised .illegalCharacter (BitVec.ofNat 32 k) t ∧ sameButReader s t

/-! ## A step and the decoder -/

/-- 42_tokens.md R140, 43_driver.md R164, R165: where the symbols at the cursor decode to a token, the step is
that token's meaning in the state with the cursor moved past the token's bits, and the token is well-formed there. -/
def Obligations.StepRunsDecodedInstruction : Prop :=
  ∀ (s u : State) (i : Instr) (rest : List Bool), engineTurnState s = some u → EngineInv u →
    u.phase = .first ∨ u.phase = .loop → decodeAhead u = .token i rest →
      ∃ t, step s = exec i t ∧ sameButReader u t ∧ ReaderOk t ∧ i.wellFormed (tokenCtx u) = true ∧
        consumed t = consumed u + (encodeBits (tokenCtx u) i).length ∧
        aheadBits t ++ mappedBits t.alpha (aheadSymbols t) = rest

/-- 40_bit_reader.md R101 to R108, 42_tokens.md R140: fetching a token with the bit reader's registers refines
the pure decoder on the symbols ahead, errors included. -/
def Obligations.FetchRefinesTheDecoder : Prop :=
  ∀ s : State, ReaderOk s →
    (∀ i rest, decodeAhead s = .token i rest →
      ∃ t, fetchToken s = .ok i t ∧ sameButReader s t ∧ ReaderOk t ∧
        aheadBits t ++ mappedBits t.alpha (aheadSymbols t) = rest) ∧
    (∀ k, decodeAhead s = .illegalCharacter k →
      ∃ t, fetchToken s = .raised .illegalCharacter (BitVec.ofNat 32 k) t ∧ sameButReader s t) ∧
    (decodeAhead s = .endOfBuffer →
      ∃ t, fetchToken s = .raised .unexpectedEndOfBuffer 0 t ∧ sameButReader s t)

/-- 43_driver.md R167: an error met while the token is read ends the run, and no token runs. -/
def Obligations.ReadErrorEndsTheRun : Prop :=
  ∀ (s t : State) (e : ErrKind) (info : Word), s.host = [] →
    s.phase = .first ∨ (s.phase = .loop ∧ s.drained = false) → fetchToken s = .raised e info t →
      step s = .next (errorEntry e info t) ∧ (errorEntry e info t).phase = .done

/-- 43_driver.md R165, 60_exceptions.md R183: a LOOP step with DRAINED = 1 raises UnexpectedEndOfBuffer(0)
before any read. That every other register, OUT and OUT_LEN stay as they are is the model's choice (log entry 19):
60_exceptions.md R186 leaves them at any value after an error. -/
def Obligations.LoopStepOnDrainedRaises : Prop :=
  ∀ s : State, s.host = [] → s.phase = .loop → s.drained = true →
    step s = .next { s with err := .unexpectedEndOfBuffer, errInfo := 0, phase := .done }

/-! ## Dictionary and output -/

/-- 41_dictionary.md R121, R122: a full dictionary raises CapacityExceeded(2); otherwise the entry lands at
DICTLEN, DICTLEN and EUG count, and at EUG = 0 the width grows with EUG set from the old width. -/
def Obligations.AppendCountsAndGrows : Prop :=
  ∀ (s : State) (str : Str),
    (s.dictLen = s.config.maxDict → append str s = .raised .capacityExceeded 2 s) ∧
    (s.dictLen ≠ s.config.maxDict → ∃ t, append str s = .ok () t ∧
      t = { s with dict := t.dict, dictLen := s.dictLen + 1, eug := t.eug, indexBits := t.indexBits } ∧
      memGet t.dict s.dictLen.toNat = some str ∧
      (∀ k, k ≠ s.dictLen.toNat → memGet t.dict k = memGet s.dict k) ∧
      (s.eug ≠ 1 → t.eug = s.eug - 1 ∧ t.indexBits = s.indexBits) ∧
      (s.eug = 1 → t.eug = BitVec.ofNat 32 (2 ^ s.indexBits.toNat) ∧ t.indexBits = s.indexBits + 1))

/-- 41_dictionary.md R123: the first token's append leaves EUG and INDEXBITS as they are. -/
def Obligations.SeedAppendIsUncounted : Prop :=
  ∀ (s : State) (str : Str),
    (s.dictLen = s.config.maxDict → seedAppend str s = .raised .capacityExceeded 2 s) ∧
    (s.dictLen ≠ s.config.maxDict → ∃ t, seedAppend str s = .ok () t ∧
      t = { s with dict := t.dict, dictLen := s.dictLen + 1 } ∧
      memGet t.dict s.dictLen.toNat = some str ∧
      ∀ k, k ≠ s.dictLen.toNat → memGet t.dict k = memGet s.dict k)

/-- 41_dictionary.md R127: a counted append keeps INDEXBITS = bitlength(DICTLEN), EUG = 2^INDEXBITS - DICTLEN
and 1 <= EUG <= 2^(INDEXBITS - 1). -/
def Obligations.AppendKeepsTheWidthInvariant : Prop :=
  ∀ (s t : State) (str : Str), 4 ≤ s.dictLen.toNat → s.dictLen.toNat ≤ s.config.maxDict.toNat → widthOk s →
    append str s = .ok () t →
      widthOk t ∧ 1 ≤ t.eug.toNat ∧ t.eug.toNat ≤ 2 ^ (t.indexBits.toNat - 1)

/-- 41_dictionary.md R130: EMIT checks the capacity before any write, then writes the characters in order
from OUT_LEN on, and nothing else. -/
def Obligations.EmitWritesInOrderOrRaises : Prop :=
  ∀ (s : State) (str : Str),
    (s.config.maxOut.toNat < s.outLen.toNat + str.length → emit str s = .raised .capacityExceeded 3 s) ∧
    (s.outLen.toNat + str.length ≤ s.config.maxOut.toNat → ∃ t, emit str s = .ok () t ∧
      t = { s with out := t.out, outLen := t.outLen } ∧ t.outLen.toNat = s.outLen.toNat + str.length ∧
      (∀ i, i < str.length → memGet t.out (s.outLen.toNat + i) = str[i]?) ∧
      ∀ a, a < s.outLen.toNat ∨ s.outLen.toNat + str.length ≤ a → memGet t.out a = memGet s.out a)

/-! ## Tokens: results -/

/-- 42_tokens.md R141, R142 (FIRST), 41_dictionary.md R124: LIT8 and LIT16 as the first token. -/
def Obligations.FirstLiteralCompletes : Prop :=
  ∀ s : State, s.phase = .first → s.dictLen = 3 → s.config.maxDict ≠ 3 →
    s.outLen.toNat + 1 ≤ s.config.maxOut.toNat →
      (∀ ch : BitVec 8, exec (.lit8 ch) s = .next
        { s with dict := memPut s.dict 3 [ch.setWidth 16], dictLen := 4,
                 out := memPut s.out s.outLen.toNat (ch.setWidth 16), outLen := s.outLen + 1,
                 last := [ch.setWidth 16], indexBits := s.indexBits + 1, phase := .loop }) ∧
      (∀ ch : BitVec 16, exec (.lit16 ch) s = .next
        { s with dict := memPut s.dict 3 [ch], dictLen := 4,
                 out := memPut s.out s.outLen.toNat ch, outLen := s.outLen + 1,
                 last := [ch], indexBits := s.indexBits + 1, phase := .loop })

/-- 42_tokens.md R141, R142 (LOOP): LIT8 and LIT16 append [ch] and LAST ++ [ch], both counted, emit ch and
set LAST. The width invariant of 41_dictionary.md R127 fixes EUG and INDEXBITS. -/
def Obligations.LoopLiteralCompletes : Prop :=
  ∀ (s : State) (i : Instr) (ch : Char16),
    (∃ b : BitVec 8, i = .lit8 b ∧ ch = b.setWidth 16) ∨ i = .lit16 ch →
    s.phase = .loop → 4 ≤ s.dictLen.toNat → widthOk s → s.dictLen.toNat + 2 ≤ s.config.maxDict.toNat →
    s.outLen.toNat + 1 ≤ s.config.maxOut.toNat →
      ∃ t, exec i s = .next t ∧
        t = { s with dict := t.dict, dictLen := s.dictLen + 2, eug := t.eug, indexBits := t.indexBits,
                     out := t.out, outLen := s.outLen + 1, last := [ch] } ∧
        memGet t.dict s.dictLen.toNat = some [ch] ∧
        memGet t.dict (s.dictLen.toNat + 1) = some (s.last ++ [ch]) ∧
        (∀ k, k ≠ s.dictLen.toNat → k ≠ s.dictLen.toNat + 1 → memGet t.dict k = memGet s.dict k) ∧
        memGet t.out s.outLen.toNat = some ch ∧
        (∀ a, a ≠ s.outLen.toNat → memGet t.out a = memGet s.out a) ∧ widthOk t

/-- 42_tokens.md R144: REF k emits DICT[k] whole, appends LAST ++ [DICT[k][0]] and sets LAST. -/
def Obligations.BackReferenceCompletes : Prop :=
  ∀ (s : State) (k : Nat) (c : Char16) (cs : Str), s.phase = .loop → 3 ≤ k → k < s.dictLen.toNat →
    memGet s.dict k = some (c :: cs) → 4 ≤ s.dictLen.toNat → widthOk s →
    s.dictLen.toNat + 1 ≤ s.config.maxDict.toNat →
    s.outLen.toNat + (c :: cs).length ≤ s.config.maxOut.toNat →
      ∃ t, exec (.ref k) s = .next t ∧
        t = { s with dict := t.dict, dictLen := s.dictLen + 1, eug := t.eug, indexBits := t.indexBits,
                     out := t.out, outLen := t.outLen, last := c :: cs } ∧
        memGet t.dict s.dictLen.toNat = some (s.last ++ [c]) ∧
        (∀ j, j ≠ s.dictLen.toNat → memGet t.dict j = memGet s.dict j) ∧
        t.outLen.toNat = s.outLen.toNat + (c :: cs).length ∧
        (∀ j, j < (c :: cs).length → memGet t.out (s.outLen.toNat + j) = (c :: cs)[j]?) ∧
        (∀ a, a < s.outLen.toNat ∨ s.outLen.toNat + (c :: cs).length ≤ a → memGet t.out a = memGet s.out a) ∧
        widthOk t

/-- 42_tokens.md R145: SELF emits LAST ++ [LAST[0]], appends that string once, at the index that was its
code, and sets LAST to it. -/
def Obligations.SelfExtensionCompletes : Prop :=
  ∀ (s : State) (c : Char16) (cs : Str), s.phase = .loop → s.last = c :: cs → 4 ≤ s.dictLen.toNat → widthOk s →
    s.dictLen.toNat + 1 ≤ s.config.maxDict.toNat →
    s.outLen.toNat + (c :: cs ++ [c]).length ≤ s.config.maxOut.toNat →
      ∃ t, exec .selfRef s = .next t ∧
        t = { s with dict := t.dict, dictLen := s.dictLen + 1, eug := t.eug, indexBits := t.indexBits,
                     out := t.out, outLen := t.outLen, last := c :: cs ++ [c] } ∧
        memGet t.dict (codeOf (tokenCtx s) .selfRef) = some (c :: cs ++ [c]) ∧
        (∀ j, j ≠ s.dictLen.toNat → memGet t.dict j = memGet s.dict j) ∧
        t.outLen.toNat = s.outLen.toNat + (c :: cs ++ [c]).length ∧
        (∀ j, j < (c :: cs ++ [c]).length → memGet t.out (s.outLen.toNat + j) = (c :: cs ++ [c])[j]?) ∧
        (∀ a, a < s.outLen.toNat ∨ s.outLen.toNat + (c :: cs ++ [c]).length ≤ a →
          memGet t.out a = memGet s.out a) ∧
        widthOk t

/-- 42_tokens.md R143, 43_driver.md R166: END ends the run with success; STATUS reads BUSY = 0, DONE = 1 and
ERR = 0, and OUT[0 .. OUT_LEN-1] is the result. -/
def Obligations.EndMarkCompletes : Prop :=
  ∀ s : State, s.phase = .first ∨ s.phase = .loop →
    ∃ t, exec .endMark s = .next t ∧ t = { s with phase := .done, err := .none, errInfo := 0 } ∧
      statusWord t = 2 ∧ ∀ a, a < s.outLen.toNat → resultChar t a = memGet s.out a

/-- 42_tokens.md R146, R140 (last line): a code above DICTLEN raises BadEncoding(c). In FIRST no 2-bit code is above
DICTLEN (30_encoding.md R78), and what the form does there is the model's choice (log entry 10). That nothing else
of the state changes is the model's choice too (log entry 19): R186 leaves it at any value after an error. -/
def Obligations.IllegalLoopCodeRaises : Prop :=
  ∀ (s : State) (c : Nat), s.phase = .loop ∨ s.phase = .first → s.dictLen.toNat < c →
    exec (.badLoop c) s = .next { s with err := .badEncoding, errInfo := BitVec.ofNat 32 c, phase := .done }

/-- 42_tokens.md R147: the first code 3 raises BadEncoding(3). That nothing else of the state changes is the model's
choice (log entry 19): R186 leaves it at any value after an error. -/
def Obligations.IllegalFirstCodeRaises : Prop :=
  ∀ s : State, s.phase = .first →
    exec .badFirst s = .next { s with err := .badEncoding, errInfo := 3, phase := .done }

/-! ## Tokens: where they raise and where they stop -/

/-- 60_exceptions.md R187, R184: a literal in LOOP raises CapacityExceeded(2) at its first append before it
could raise CapacityExceeded(3) at EMIT, that before its second append, and the second append last. What DICTLEN,
DICT, OUT, OUT_LEN and LAST hold after the error is the model's choice (log entry 19): R186 leaves them at any value. -/
def Obligations.LiteralCapacityOrder : Prop :=
  ∀ (s : State) (i : Instr) (ch : Char16),
    (∃ b : BitVec 8, i = .lit8 b ∧ ch = b.setWidth 16) ∨ i = .lit16 ch → s.phase = .loop →
    (s.dictLen = s.config.maxDict → exec i s = .next (errorEntry .capacityExceeded 2 s)) ∧
    (s.dictLen ≠ s.config.maxDict → s.config.maxOut.toNat < s.outLen.toNat + 1 →
      ∃ t, exec i s = .next t ∧ t.phase = .done ∧ t.err = .capacityExceeded ∧ t.errInfo = 3 ∧
        t.dictLen = s.dictLen + 1 ∧ t.out = s.out ∧ t.outLen = s.outLen ∧ t.last = s.last) ∧
    (s.dictLen ≠ s.config.maxDict → s.outLen.toNat + 1 ≤ s.config.maxOut.toNat →
      s.dictLen + 1 = s.config.maxDict →
      ∃ t, exec i s = .next t ∧ t.phase = .done ∧ t.err = .capacityExceeded ∧ t.errInfo = 2 ∧
        t.dictLen = s.dictLen + 1 ∧ memGet t.out s.outLen.toNat = some ch ∧ t.last = s.last)

/-- 60_exceptions.md R184, 41_dictionary.md R123, R130: the first literal raises CapacityExceeded(2) at its
append and CapacityExceeded(3) at EMIT, where the capacity is exceeded. In a run DICTLEN is 3 there, so the first
clause needs MAX_DICT = 3, which 00_scope.md R8 and 41_dictionary.md R123 rule out. What the state, OUT, OUT_LEN and
LAST among it, holds after the error is the model's choice (log entry 19): R186 leaves it at any value. -/
def Obligations.FirstLiteralCapacity : Prop :=
  ∀ (s : State) (i : Instr), (∃ ch, i = .lit8 ch) ∨ (∃ ch, i = .lit16 ch) → s.phase = .first →
    (s.dictLen = s.config.maxDict → exec i s = .next (errorEntry .capacityExceeded 2 s)) ∧
    (s.dictLen ≠ s.config.maxDict → s.config.maxOut.toNat < s.outLen.toNat + 1 →
      ∃ t, exec i s = .next t ∧ t.phase = .done ∧ t.err = .capacityExceeded ∧ t.errInfo = 3 ∧
        t.out = s.out ∧ t.outLen = s.outLen ∧ t.last = s.last)

/-- 60_exceptions.md R187, R184, 42_tokens.md R144, R145: REF and SELF raise CapacityExceeded(3) at EMIT, with
nothing written and nothing appended, before they could raise CapacityExceeded(2) at their append, with the string
written. What OUT, OUT_LEN, DICT, DICTLEN and LAST hold after the error is the model's choice (log entry 19): R186
leaves them at any value. -/
def Obligations.BackReferenceCapacityOrder : Prop :=
  ∀ (s : State) (i : Instr) (tok : Str), s.phase = .loop →
    (∃ k, i = .ref k ∧ 3 ≤ k ∧ k < s.dictLen.toNat) ∨ i = .selfRef →
    tokenString s i = some tok → tok ≠ [] →
    (s.config.maxOut.toNat < s.outLen.toNat + tok.length →
      exec i s = .next (errorEntry .capacityExceeded 3 s)) ∧
    (s.outLen.toNat + tok.length ≤ s.config.maxOut.toNat → s.dictLen = s.config.maxDict →
      ∃ t, exec i s = .next t ∧ t.phase = .done ∧ t.err = .capacityExceeded ∧ t.errInfo = 2 ∧
        t.outLen.toNat = s.outLen.toNat + tok.length ∧
        (∀ j, j < tok.length → memGet t.out (s.outLen.toNat + j) = tok[j]?) ∧
        t.dict = s.dict ∧ t.dictLen = s.dictLen ∧ t.last = s.last)

/-- 43_driver.md R173, 10_state.md R43: outside FIRST and LOOP no step that takes a token is enabled. That a token
put there stops, by the fault tokenOutsideRun, is the model's choice (log entry 10). -/
def Obligations.TokensOutsideARunStop : Prop :=
  ∀ (s : State) (i : Instr), s.phase ≠ .first → s.phase ≠ .loop → exec i s = .fault .tokenOutsideRun

/-- 30_encoding.md R78, 42_tokens.md R144 to R147: the forms that cannot occur stop by name, and SELF's code
in FIRST is illegal. (Log entry 10.) -/
def Obligations.TokensThatCannotOccurStop : Prop :=
  ∀ s : State,
    (∀ k, s.phase = .loop → ¬ (3 ≤ k ∧ k < s.dictLen.toNat) → exec (.ref k) s = .fault .tokenCannotOccur) ∧
    (∀ k, s.phase = .first → exec (.ref k) s = .fault .tokenCannotOccur) ∧
    (∀ k, s.phase = .loop → 3 ≤ k → k < s.dictLen.toNat → memGet s.dict k = none →
      exec (.ref k) s = .fault .dictEntryAbsent) ∧
    (s.phase = .loop → s.last = [] → exec .selfRef s = .fault .firstCharOfEmpty) ∧
    (s.phase = .first → exec .selfRef s = .next (errorEntry .badEncoding s.dictLen s)) ∧
    (∀ c, s.phase = .first ∨ s.phase = .loop → ¬ s.dictLen.toNat < c →
      exec (.badLoop c) s = .fault .tokenCannotOccur) ∧
    (s.phase = .loop → exec .badFirst s = .fault .tokenCannotOccur)

/-! ## Tokens: frames -/

/-- 42_tokens.md R141, R142: what LIT8 and LIT16 leave unchanged, whether they complete or raise. Where they raise,
what the internal registers, OUT and LAST hold is the model's choice (log entry 19): R186 leaves them at any value. -/
def Obligations.LiteralFrame : Prop :=
  ∀ (s t : State) (i : Instr), (∃ ch, i = .lit8 ch) ∨ (∃ ch, i = .lit16 ch) → exec i s = .next t →
    t.config = s.config ∧ t.alpha = s.alpha ∧ t.n = s.n ∧ t.value = s.value ∧ t.bitPos = s.bitPos ∧
      t.symIdx = s.symIdx ∧ t.drained = s.drained ∧ t.ctrlAlphabet = s.ctrlAlphabet ∧ t.inLen = s.inLen ∧
      t.input = s.input ∧ t.epoch = s.epoch ∧ t.draws = s.draws ∧ t.host = s.host ∧ t.readData = s.readData ∧
      (∀ a, a ≠ s.outLen.toNat → memGet t.out a = memGet s.out a) ∧
      (∀ k, k ≠ s.dictLen.toNat → k ≠ (s.dictLen + 1).toNat → memGet t.dict k = memGet s.dict k) ∧
      ((t.phase = .loop ∧ t.err = s.err ∧ t.errInfo = s.errInfo) ∨
        (t.phase = .done ∧ t.err = .capacityExceeded ∧ (t.errInfo = 2 ∨ t.errInfo = 3) ∧ t.last = s.last))

/-- 42_tokens.md R144, R145: what REF and SELF leave unchanged, whether they complete or raise: OUT outside
the |tok| characters from OUT_LEN on, DICT outside DICTLEN. Where they raise, what the internal registers, OUT and
LAST hold is the model's choice (log entry 19): R186 leaves them at any value. SELF in FIRST is log entry 10's. -/
def Obligations.BackReferenceFrame : Prop :=
  ∀ (s t : State) (i : Instr), (∃ k, i = .ref k) ∨ i = .selfRef → exec i s = .next t →
    t.config = s.config ∧ t.alpha = s.alpha ∧ t.n = s.n ∧ t.value = s.value ∧ t.bitPos = s.bitPos ∧
      t.symIdx = s.symIdx ∧ t.drained = s.drained ∧ t.ctrlAlphabet = s.ctrlAlphabet ∧ t.inLen = s.inLen ∧
      t.input = s.input ∧ t.epoch = s.epoch ∧ t.draws = s.draws ∧ t.host = s.host ∧ t.readData = s.readData ∧
      (∀ tok, tokenString s i = some tok → ∀ a, a < s.outLen.toNat ∨ s.outLen.toNat + tok.length ≤ a →
        memGet t.out a = memGet s.out a) ∧
      (tokenString s i = none → t.out = s.out) ∧
      (∀ k, k ≠ s.dictLen.toNat → memGet t.dict k = memGet s.dict k) ∧
      ((t.phase = .loop ∧ t.err = s.err ∧ t.errInfo = s.errInfo) ∨
        (t.phase = .done ∧ t.last = s.last ∧
          ((t.err = .capacityExceeded ∧ (t.errInfo = 2 ∨ t.errInfo = 3)) ∨
            (s.phase = .first ∧ t.err = .badEncoding))))

/-- 42_tokens.md R143, R146, R147: END and the illegal codes store nothing; only PHASE, ERR and ERR_INFO change. For
the illegal codes that is the model's choice (log entry 19): R186 leaves the internal registers and OUT at any value
after an error. BAD_LOOP in FIRST is log entry 10's. -/
def Obligations.ControlTokenFrame : Prop :=
  ∀ (s t : State) (i : Instr), i = .endMark ∨ (∃ c, i = .badLoop c) ∨ i = .badFirst → exec i s = .next t →
    t = { s with phase := .done, err := t.err, errInfo := t.errInfo } ∧
      ∀ a, memGet t.out a = memGet s.out a ∧ inSymbol t a = inSymbol s a

/-! ## Errors -/

/-- 60_exceptions.md R185: error entry sets ERR, ERR_INFO and PHASE, STATUS reads BUSY = 0, DONE = 1 and
ERR = e, and the rest of the raising step is abandoned. That everything else stays is the model's choice (log entry
19): R186 leaves the internal registers, OUT and OUT_LEN at any value after an error. -/
def Obligations.ErrorEntrySetsTheRegisters : Prop :=
  ∀ (s : State) (e : ErrKind) (info : Word),
    errorEntry e info s = { s with err := e, errInfo := info, phase := .done } ∧
      statusWord (errorEntry e info s) = 2 ||| (e.code.setWidth 32 <<< 4) ∧
      ∀ rest : Unit → State → Eff Unit,
        conclude ((Eff.raised e info s).andThen rest) = .next (errorEntry e info s)

/-! ## Driver and host -/

/-- 43_driver.md R160, 10_state.md R37: a CTRL write in IDLE or DONE stores ALPHABET, and with START = 1 it
starts a run: BUSY reads 1 and DONE 0. -/
def Obligations.StartInIdleOrDone : Prop :=
  ∀ (s : State) (data : Word) (rest : List HostMove), s.host = .csrWrite 0x00 32 data :: rest →
    s.phase = .idle ∨ s.phase = .done →
    (data.getLsbD 0 = true → ∃ t, step s = .next t ∧
      t = { s with host := rest, phase := .init, ctrlAlphabet := if data.getLsbD 1 then .base64 else .uriSafe } ∧
      statusWord t = 1) ∧
    (data.getLsbD 0 = false → step s = .next
      { s with host := rest, ctrlAlphabet := if data.getLsbD 1 then .base64 else .uriSafe })

/-- 70_reset_and_hazards.md R206, 10_state.md R37: a CTRL write while BUSY that leaves ALPHABET as it is does
nothing, START or not. -/
def Obligations.StartWhileBusyIsIgnored : Prop :=
  ∀ (s : State) (data : Word) (rest : List HostMove), s.host = .csrWrite 0x00 32 data :: rest →
    s.phase = .init ∨ s.phase = .first ∨ s.phase = .loop →
    data.getLsbD 1 = alphabetBit s.ctrlAlphabet → step s = .next { s with host := rest }

/-- 43_driver.md R161 to R163: the INIT step: a too long input, an empty input, an unmapped first symbol, and
the seed with the starting values. That OUT_LEN is 0 where the step ends with an error is the model's choice (log
entry 19): R186 leaves it at any value there. -/
def Obligations.InitStepSeedsOrEnds : Prop :=
  ∀ s : State, s.host = [] → s.phase = .init →
    (s.config.maxIn < s.inLen → ∃ t, step s = .next t ∧ t.phase = .done ∧ t.err = .capacityExceeded ∧
      t.errInfo = 1 ∧ t.outLen = 0) ∧
    (s.inLen = 0 → ∃ t, step s = .next t ∧ t.phase = .done ∧ t.err = .none ∧ t.errInfo = 0 ∧ t.outLen = 0) ∧
    (s.inLen ≠ 0 → ¬ s.config.maxIn < s.inLen → mapSymbol s.ctrlAlphabet (inSymbol s 0) = none →
      ∃ t, step s = .next t ∧ t.phase = .done ∧ t.err = .illegalCharacter ∧ t.errInfo = 0 ∧ t.outLen = 0) ∧
    (∀ v, s.inLen ≠ 0 → ¬ s.config.maxIn < s.inLen → mapSymbol s.ctrlAlphabet (inSymbol s 0) = some v →
      step s = .next
        { s with alpha := s.ctrlAlphabet, n := s.inLen, outLen := 0, err := .none, errInfo := 0,
                 value := v, bitPos := 32, symIdx := 1, drained := false, dictLen := 3, dict := [],
                 eug := 4, indexBits := 2, last := [], phase := .first })

/-- 10_state.md R38: the fields of STATUS and their reset value, BUSY and DONE are never both 1, and a host write
to STATUS is ignored. -/
def Obligations.StatusFieldsAndReadOnly : Prop :=
  ∀ s : State,
    ((statusWord s).getLsbD 0 = true ↔ s.phase = .init ∨ s.phase = .first ∨ s.phase = .loop) ∧
    ((statusWord s).getLsbD 1 = true ↔ s.phase = .done) ∧
    (statusWord s).extractLsb' 2 2 = 0 ∧
    ((s.phase = .idle ∨ s.phase = .done) → (statusWord s).extractLsb' 4 3 = s.err.code) ∧
    ((s.phase = .init ∨ s.phase = .first ∨ s.phase = .loop) → (statusWord s).extractLsb' 4 3 = 0) ∧
    (statusWord s).extractLsb' 7 25 = 0 ∧
    ¬ ((statusWord s).getLsbD 0 = true ∧ (statusWord s).getLsbD 1 = true) ∧ statusWord State.reset = 0 ∧
    ∀ (data : Word) (rest : List HostMove), s.host = .csrWrite 0x04 32 data :: rest →
      step s = .next { s with host := rest }

/-- 10_state.md R36, R37, R39 to R41, 20_memory.md R57: CTRL, STATUS, IN_LEN and the reserved offsets read as the spec
says in every phase, and OUT_LEN and ERR_INFO read the registers in IDLE, where they are 0 (R44); a read changes
nothing but what the host was told. (That every word offset from 0x14 on is reserved is log entry 22.) -/
def Obligations.RegisterReadsAreExact : Prop :=
  ∀ (s : State) (rest : List HostMove),
    (s.host = .csrRead 0x00 32 :: rest → step s = .next
      { s with host := rest, readData := if s.ctrlAlphabet = .base64 then 2 else 0 }) ∧
    (s.host = .csrRead 0x04 32 :: rest → step s = .next { s with host := rest, readData := statusWord s }) ∧
    (s.host = .csrRead 0x08 32 :: rest → step s = .next { s with host := rest, readData := s.inLen }) ∧
    (∀ offset, 0x14 ≤ offset → offset % 4 = 0 → s.host = .csrRead offset 32 :: rest →
      step s = .next { s with host := rest, readData := 0 }) ∧
    (s.phase = .idle →
      (s.host = .csrRead 0x0C 32 :: rest → step s = .next { s with host := rest, readData := s.outLen }) ∧
      (s.host = .csrRead 0x10 32 :: rest → step s = .next { s with host := rest, readData := s.errInfo }) ∧
      (EngineInv s → s.host = .csrRead 0x0C 32 :: rest ∨ s.host = .csrRead 0x10 32 :: rest →
        step s = .next { s with host := rest, readData := 0 }))

/-- 10_state.md R36, R38: a host write of STATUS and of the reserved offsets is ignored in every phase; so is one of
OUT_LEN and of ERR_INFO, which the spec calls read-only (log entry 11; log entry 22 for the reserved offsets). -/
def Obligations.WritesOfOtherRegistersAreIgnored : Prop :=
  ∀ (s : State) (rest : List HostMove) (offset : Nat) (data : Word), offset % 4 = 0 → offset ≠ 0x00 → offset ≠ 0x08 →
    s.host = .csrWrite offset 32 data :: rest → step s = .next { s with host := rest }

/-- 20_memory.md R57: a host read of any space has no side effect: it leaves everything as it is but the
model's own fields for the host's side (log entries 4, 7, 8). -/
def Obligations.HostReadsHaveNoSideEffect : Prop :=
  ∀ (s t : State) (m : HostMove) (rest : List HostMove), s.host = m :: rest →
    (∃ o w, m = .csrRead o w) ∨ (∃ i, m = .inRead i) ∨ (∃ i, m = .outRead i) ∨ (∃ a, m = .outReadByte a) →
    step s = .next t → t = { s with host := rest, readData := t.readData, draws := t.draws }

/-- 10_state.md R34, R40, 70_reset_and_hazards.md R202, R207: after a success the host reads OUT_LEN and each
character below it as the run wrote them; a host that views OUT as bytes sees them in OUT_BYTE_ORDER
(00_scope.md R8; that the low byte is the first one under `little` is log entry 6). -/
def Obligations.ResultIsReadBack : Prop :=
  ∀ (s : State) (rest : List HostMove), s.phase = .done → s.err = .none →
    (s.host = .csrRead 0x0C 32 :: rest → step s = .next { s with host := rest, readData := s.outLen }) ∧
    (∀ i c, i < s.outLen.toNat → i < s.config.maxOut.toNat → memGet s.out i = some c →
      s.host = .outRead i :: rest → step s = .next { s with host := rest, readData := c.setWidth 32 }) ∧
    (∀ a c, a / 2 < s.outLen.toNat → a / 2 < s.config.maxOut.toNat → memGet s.out (a / 2) = some c →
      s.host = .outReadByte a :: rest → step s = .next
        { s with host := rest, readData :=
            if (s.config.outByteOrder = .little ↔ a % 2 = 0) then (c.extractLsb' 0 8).setWidth 32
            else (c.extractLsb' 8 8).setWidth 32 })

/-- 70_reset_and_hazards.md R205, 20_memory.md R59 (4), 60_exceptions.md R186, 10_state.md R34, R44: the host is told
any value by a read of OUT, or of a byte of it, wherever OUT is no result (in IDLE, while BUSY, after an error, and
from OUT_LEN on after a success: log entry 3), by one of OUT_LEN while BUSY and after an error, and by one of ERR_INFO
while BUSY: a free value, another one at each read (log entry 4; log entry 6 for the bytes). -/
def Obligations.UnspecifiedReadsAreFree : Prop :=
  ∀ (s : State) (rest : List HostMove),
    (∀ i, i < s.config.maxOut.toNat → ¬ (s.phase = .done ∧ s.err = .none ∧ i < s.outLen.toNat) →
      s.host = .outRead i :: rest → step s = .next
        { s with host := rest, readData := (Config.freeChar s.draws).setWidth 32, draws := s.draws + 1 }) ∧
    (∀ a, a / 2 < s.config.maxOut.toNat → ¬ (s.phase = .done ∧ s.err = .none ∧ a / 2 < s.outLen.toNat) →
      s.host = .outReadByte a :: rest → step s = .next
        { s with
          host := rest, draws := s.draws + 1
          readData :=
            if (s.config.outByteOrder = .little ↔ a % 2 = 0) then
              ((Config.freeChar s.draws).extractLsb' 0 8).setWidth 32
            else ((Config.freeChar s.draws).extractLsb' 8 8).setWidth 32 }) ∧
    (s.phase = .init ∨ s.phase = .first ∨ s.phase = .loop ∨ (s.phase = .done ∧ s.err ≠ .none) →
      s.host = .csrRead 0x0C 32 :: rest → step s = .next
        { s with host := rest, readData := Config.freeWord s.draws, draws := s.draws + 1 }) ∧
    (s.phase = .init ∨ s.phase = .first ∨ s.phase = .loop →
      s.host = .csrRead 0x10 32 :: rest → step s = .next
        { s with host := rest, readData := Config.freeWord s.draws, draws := s.draws + 1 }) ∧
    (s.phase = .done → s.host = .csrRead 0x10 32 :: rest →
      step s = .next { s with host := rest, readData := s.errInfo })

/-- 20_memory.md R56: a register access that is not a whole word at a multiple of 4 has no move. -/
def Obligations.OddRegisterAccessesAreRefused : Prop :=
  ∀ (s : State) (rest : List HostMove) (offset width : Nat) (data : Word),
    s.host = .csrRead offset width :: rest ∨ s.host = .csrWrite offset width data :: rest →
    (offset % 4 ≠ 0 → step s = .refused .csrMisaligned) ∧
    (offset % 4 = 0 → width ≠ 32 → step s = .refused .csrNotWholeWord)

/-- 70_reset_and_hazards.md R204, 20_memory.md R50, R58, R59 (2), 10_state.md R39: while BUSY the host has no move that
writes IN below IN_LEN, IN_LEN, or a changed ALPHABET, and a write of IN from IN_LEN on is made; outside BUSY every
write of IN below MAX_IN and every write of IN_LEN is made; IN is read back at any time, and a symbol just written
reads as it was written. (That a refused move ends the script is log entry 18, the use of IN_LEN log entry 12.) -/
def Obligations.InputHazardHasNoMove : Prop :=
  ∀ (s : State) (rest : List HostMove),
    (s.phase = .init ∨ s.phase = .first ∨ s.phase = .loop →
      (∀ i b, s.host = .inWrite i b :: rest → i < s.config.maxIn.toNat → i < s.inLen.toNat →
        step s = .refused .inWriteWhileBusy) ∧
      (∀ i b, s.host = .inWrite i b :: rest → i < s.config.maxIn.toNat → s.inLen.toNat ≤ i →
        step s = .next { s with host := rest, input := memPut s.input i b }) ∧
      (∀ data, s.host = .csrWrite 0x08 32 data :: rest → step s = .refused .inLenWriteWhileBusy) ∧
      (∀ data, s.host = .csrWrite 0x00 32 data :: rest → data.getLsbD 1 ≠ alphabetBit s.ctrlAlphabet →
        step s = .refused .alphabetChangeWhileBusy)) ∧
    (s.phase = .idle ∨ s.phase = .done →
      (∀ i b, s.host = .inWrite i b :: rest → i < s.config.maxIn.toNat →
        step s = .next { s with host := rest, input := memPut s.input i b }) ∧
      (∀ data, s.host = .csrWrite 0x08 32 data :: rest → step s = .next { s with host := rest, inLen := data })) ∧
    (∀ i, s.host = .inRead i :: rest → i < s.config.maxIn.toNat →
      step s = .next { s with host := rest, readData := (inSymbol s i).setWidth 32 }) ∧
    (∀ i b t, s.host = .inWrite i b :: rest → step s = .next t →
      inSymbol t i = b ∧ ∀ j, j ≠ i → inSymbol t j = inSymbol s j)

/-! ## The whole machine -/

/-- The invariant holds at reset. (The values of the run registers there are log entry 1's.) -/
def Obligations.InvariantHoldsAtReset : Prop := EngineInv State.reset

/-- 10_state.md R46, 41_dictionary.md R127, R132: every step, of the engine, the host or reset, keeps the
invariant. -/
def Obligations.InvariantKeptByEveryStep : Prop :=
  ∀ s t : State, EngineInv s → step s = .next t → EngineInv t

/-- 43_driver.md R173: every engine step moves PHASE as the transition table says; in IDLE and DONE the
engine changes nothing (log entry 9). -/
def Obligations.PhaseTransitionTable : Prop :=
  ∀ s t : State, s.host = [] → step s = .next t →
    (s.phase = .idle → t = s) ∧ (s.phase = .done → t = s) ∧
    (s.phase = .init → t.phase = .first ∨ t.phase = .done) ∧
    (s.phase = .first → t.phase = .loop ∨ t.phase = .done) ∧
    (s.phase = .loop → t.phase = .loop ∨ t.phase = .done)

/-- 70_reset_and_hazards.md R209, 60_exceptions.md R194, 43_driver.md R169: under the invariant the engine has a next
step in INIT, FIRST and LOOP, and a FIRST or LOOP step that does not end the run consumes at least 2 bits. In IDLE and
DONE the spec's engine takes no step; that its turn is there a step that changes nothing is log entry 9. -/
def Obligations.EngineAlwaysProgresses : Prop :=
  ∀ s : State, EngineInv s → s.host = [] →
    ∃ t, step s = .next t ∧ (s.phase = .idle ∨ s.phase = .done → t = s) ∧
      (s.phase = .first ∨ s.phase = .loop → t.phase ≠ .done → consumed s + 2 ≤ consumed t)

/-- 43_driver.md R169: every run reaches DONE after at most 3N + 3 steps. -/
def Obligations.EveryRunReachesDone : Prop :=
  ∀ s : State, EngineInv s → s.host = [] → s.phase = .init →
    ∃ (k : Nat) (t : State), k ≤ 3 * s.inLen.toNat + 3 ∧ Host.Core.run core k s = .next t ∧ t.phase = .done

/-- 43_driver.md R168, 70_reset_and_hazards.md R203, R204, R206: a run depends only on MAX_IN, MAX_DICT, MAX_OUT, the
alphabet, IN_LEN and IN below it: not on what an earlier run, or reset, left in any other register or in the buffers,
nor on the host's moves during the run. First clause: two runs that no host move comes between agree step by step.
Second clause: a run with any host moves between its steps but a reset (the script is log entry 7's) ends in what the
run without them ends in. OUT_LEN and OUT after an error are in R168's list; R186 leaves them at any value, and that
they hold the partial output is log entry 19. -/
def Obligations.RunDependsOnlyOnItsInput : Prop :=
  ∀ s₁ s₂ : State, s₁.phase = .init → s₂.phase = .init → s₁.host = [] →
    s₁.config.maxIn = s₂.config.maxIn → s₁.config.maxDict = s₂.config.maxDict → s₁.config.maxOut = s₂.config.maxOut →
    s₁.ctrlAlphabet = s₂.ctrlAlphabet → s₁.inLen = s₂.inLen →
    (∀ i, i < s₁.inLen.toNat → inSymbol s₁ i = inSymbol s₂ i) →
    (∀ (k : Nat) (t₁ : State), s₂.host = [] → 0 < k → Host.Core.run core k s₁ = .next t₁ →
      ∃ t₂, Host.Core.run core k s₂ = .next t₂ ∧ sameResult t₁ t₂) ∧
    (∀ (k : Nat) (t₂ : State), .reset ∉ s₂.host → Host.Core.run core k s₂ = .next t₂ → t₂.phase = .done →
      (∀ (j : Nat) (u : State), j < k → Host.Core.run core j s₂ = .next u → u.phase ≠ .done) →
      ∃ (j : Nat) (t₁ : State), j ≤ k ∧ Host.Core.run core j s₁ = .next t₁ ∧ sameResult t₁ t₂)

/-- 41_dictionary.md R131, 10_state.md R46 (5): within a run no step removes or rewrites an entry or decreases
DICTLEN, INDEXBITS or OUT_LEN (R34) or a character below it, and one that raises no error does not move the cursor
back (R28). What a step that raises an error leaves is the model's choice (log entry 19): R186 leaves it at any value. -/
def Obligations.RunNeverShrinks : Prop :=
  ∀ s t : State, EngineInv s → s.host = [] → s.phase = .first ∨ s.phase = .loop → step s = .next t →
    s.dictLen.toNat ≤ t.dictLen.toNat ∧ s.indexBits.toNat ≤ t.indexBits.toNat ∧
      s.outLen.toNat ≤ t.outLen.toNat ∧ (t.err = .none → consumed s ≤ consumed t) ∧
      (∀ k str, memGet s.dict k = some str → memGet t.dict k = some str) ∧
      ∀ a, a < s.outLen.toNat → memGet t.out a = memGet s.out a

/-- 20_memory.md R50, R58, R62, R63: the engine never writes IN, IN_LEN, CTRL.ALPHABET or the parameters (nor the
model's own host-side fields, log entries 2, 4, 7, 8): no token modifies the stream it stands in. -/
def Obligations.EngineNeverWritesTheHostSide : Prop :=
  ∀ s t : State, s.host = [] → step s = .next t →
    t.input = s.input ∧ t.inLen = s.inLen ∧ t.ctrlAlphabet = s.ctrlAlphabet ∧ t.config = s.config ∧
      t.epoch = s.epoch ∧ t.draws = s.draws ∧ t.host = [] ∧ t.readData = s.readData

/-- 41_dictionary.md R123, R124, 43_driver.md R164: after the first token, DICTLEN = 4, EUG = 4 and
INDEXBITS = 3, LAST is its one character, and OUT is LAST. -/
def Obligations.FirstTokenLeavesTheWidthAtThree : Prop :=
  ∀ s t : State, EngineInv s → s.host = [] → s.phase = .first → step s = .next t → t.phase = .loop →
    t.dictLen = 4 ∧ t.eug = 4 ∧ t.indexBits = 3 ∧ t.outLen = 1 ∧
      ∃ c, t.last = [c] ∧ memGet t.dict 3 = some [c] ∧ memGet t.out 0 = some c
end

