-- ==== Sys2Proof/Laws/Decode.lean ====
section
/-! SUPPORT. The laws of fields and of widths that the encoding claims rest on. -/

namespace Sys2Proof

/-- Every number fits in its own bitlength. -/
theorem lt_two_pow_bitlength (v : Nat) : v < 2 ^ bitlength v := by
  by_cases h : v = 0
  · simp [h, bitlength]
  · simpa [bitlength, h] using Nat.lt_log2_self

/-- No shorter width holds it. -/
theorem two_pow_le_of_bitlength {v : Nat} (h : v ≠ 0) : 2 ^ (bitlength v - 1) ≤ v := by
  simpa [bitlength, h] using Nat.log2_self_le h

/-- The bitlength is the width of the interval between two powers of two that holds the number. -/
theorem bitlength_eq_iff {v k : Nat} (h : v ≠ 0) : bitlength v = k + 1 ↔ 2 ^ k ≤ v ∧ v < 2 ^ (k + 1) := by
  simp only [bitlength, if_neg h, Nat.add_right_cancel_iff]
  exact Nat.log2_eq_iff h

@[simp] theorem fieldBits_length (n v : Nat) : (fieldBits n v).length = n := by
  induction n generalizing v with
  | zero => rfl
  | succ n ih => simp [fieldBits, ih]

/-- Reading back a field that was written gives its value (30_encoding.md R75). -/
theorem takeField_fieldBits {n v : Nat} (h : v < 2 ^ n) (rest : List Bool) :
    takeField n (fieldBits n v ++ rest) = some (v, rest) := by
  induction n generalizing v with
  | zero => simp [fieldBits, takeField]; omega
  | succ n ih =>
    have h2 : v / 2 < 2 ^ n := by rw [Nat.pow_succ] at h; omega
    simp only [fieldBits, List.cons_append, takeField, ih h2]
    congr 2
    rcases Nat.mod_two_eq_zero_or_one v with hv | hv <;> simp [hv] <;> omega

/-- A field that was taken is below 2^n, and its bits are the stream's. -/
theorem takeField_eq_some {n : Nat} {bs rest : List Bool} {v : Nat} (h : takeField n bs = some (v, rest)) :
    v < 2 ^ n ∧ bs = fieldBits n v ++ rest := by
  induction n generalizing bs v with
  | zero => simp [takeField] at h; obtain ⟨rfl, rfl⟩ := h; simp [fieldBits]
  | succ n ih =>
    cases bs with
    | nil => simp [takeField] at h
    | cons b bs =>
      simp only [takeField] at h
      cases hr : takeField n bs with
      | none => rw [hr] at h; simp at h
      | some p =>
        obtain ⟨u, r⟩ := p
        rw [hr] at h
        simp at h
        obtain ⟨rfl, rfl⟩ := h
        obtain ⟨h1, h2⟩ := ih hr
        refine ⟨by cases b <;> simp [Nat.pow_succ] <;> omega, ?_⟩
        cases b <;> simp [fieldBits, h2] <;> congr 1 <;> omega

/-- A field of n bits can be taken exactly when n bits are there. -/
theorem takeField_eq_none {n : Nat} {bs : List Bool} : takeField n bs = none ↔ bs.length < n := by
  induction n generalizing bs with
  | zero => simp [takeField]
  | succ n ih =>
    cases bs with
    | nil => simp [takeField]
    | cons b bs =>
      simp only [takeField, List.length_cons, Nat.succ_lt_succ_iff, ← ih]
      cases takeField n bs <;> simp

end Sys2Proof
end

