-- ==== Sys2Proof/Laws/Memory.lean ====
section
/-! SUPPORT. The laws of the memory operations: read after write, and the canonical form. -/

namespace Sys2Proof.Machine

open Sys2Proof

variable {α : Type}

@[simp] theorem memGet_nil (a : Nat) : memGet ([] : Memory α) a = none := rfl

@[simp] theorem memGet_memPut_self (m : Memory α) (a : Nat) (v : α) : memGet (memPut m a v) a = some v := by
  induction m with
  | nil => simp [memPut, memGet]
  | cons p m ih =>
    obtain ⟨k, w⟩ := p
    simp only [memPut]
    split
    · simp [memGet]
    · split
      · simp [memGet]
      · rename_i h; simp [memGet, Ne.symm h, ih]

theorem memGet_memPut_ne (m : Memory α) {a b : Nat} (v : α) (h : b ≠ a) :
    memGet (memPut m a v) b = memGet m b := by
  induction m with
  | nil => simp [memPut, memGet, Ne.symm h]
  | cons p m ih =>
    obtain ⟨k, w⟩ := p
    simp only [memPut]
    split
    · simp [memGet, Ne.symm h]
    · split
      · rename_i h1; subst h1; simp [memGet, Ne.symm h]
      · simp [memGet, ih]

theorem memGet_memPut (m : Memory α) (a b : Nat) (v : α) :
    memGet (memPut m a v) b = if b = a then some v else memGet m b := by
  split
  · rename_i h; subst h; simp
  · exact memGet_memPut_ne m v ‹_›

/-- The indices of a store: those there were, and the one stored to. -/
theorem mem_keys_memPut {m : Memory α} {a : Nat} {v : α} {p : Nat × α} (h : p ∈ memPut m a v) :
    p.1 = a ∨ p ∈ m := by
  induction m with
  | nil => simp [memPut] at h; exact .inl (by rw [h])
  | cons q m ih =>
    obtain ⟨k, w⟩ := q
    simp only [memPut] at h
    split at h
    · rcases List.mem_cons.1 h with h | h
      · exact .inl (by rw [h])
      · exact .inr h
    · split at h
      · rcases List.mem_cons.1 h with h | h
        · exact .inl (by rw [h])
        · exact .inr (List.mem_cons_of_mem _ h)
      · rcases List.mem_cons.1 h with h | h
        · exact .inr (h ▸ List.mem_cons_self)
        · exact (ih h).imp id (List.mem_cons_of_mem _)

theorem memPut_wf {m : Memory α} (hm : Memory.wf m) (a : Nat) (v : α) : Memory.wf (memPut m a v) := by
  induction m with
  | nil => simp [memPut, Memory.wf]
  | cons q m ih =>
    obtain ⟨k, w⟩ := q
    obtain ⟨hk, hm'⟩ := List.pairwise_cons.1 hm
    have hk' : ∀ p ∈ m, k < p.1 := fun p hp => hk p.1 (List.mem_map_of_mem hp)
    simp only [memPut]
    split
    · rename_i hlt
      refine List.pairwise_cons.2 ⟨fun b hb => ?_, hm⟩
      rcases List.mem_cons.1 hb with rfl | hb
      · exact hlt
      · exact Nat.lt_trans hlt (hk b hb)
    · split
      · rename_i heq; subst heq; exact List.pairwise_cons.2 ⟨hk, hm'⟩
      · refine List.pairwise_cons.2 ⟨fun b hb => ?_, ih hm'⟩
        obtain ⟨p, hp, rfl⟩ := List.mem_map.1 hb
        rcases mem_keys_memPut hp with h | h
        · show k < p.1
          rw [h]; omega
        · exact hk' p h

theorem memPutAll_wf {m : Memory α} (hm : Memory.wf m) (a : Nat) (vs : List α) :
    Memory.wf (memPutAll m a vs) := by
  induction vs generalizing m a with
  | nil => exact hm
  | cons v vs ih => exact ih (memPut_wf hm a v) (a + 1)

/-- A run of stores changes nothing outside the stored indices. -/
theorem memGet_memPutAll_outside (m : Memory α) (a : Nat) (vs : List α) {b : Nat}
    (h : b < a ∨ a + vs.length ≤ b) : memGet (memPutAll m a vs) b = memGet m b := by
  induction vs generalizing m a with
  | nil => rfl
  | cons v vs ih =>
    simp only [List.length_cons] at h
    rw [memPutAll, ih _ _ (by omega), memGet_memPut_ne _ _ (by omega)]

/-- A run of stores puts each element at its own index. -/
theorem memGet_memPutAll_inside (m : Memory α) (a : Nat) (vs : List α) {i : Nat} (h : i < vs.length) :
    memGet (memPutAll m a vs) (a + i) = vs[i]? := by
  induction vs generalizing m a i with
  | nil => simp at h
  | cons v vs ih =>
    cases i with
    | zero => rw [memPutAll, memGet_memPutAll_outside _ _ _ (by omega)]; simp
    | succ i =>
      simp only [List.length_cons] at h
      rw [memPutAll, show a + (i + 1) = a + 1 + i by omega, ih _ _ (by omega)]; simp

theorem mem_keys_memPutAll {m : Memory α} {a : Nat} {vs : List α} {p : Nat × α}
    (h : p ∈ memPutAll m a vs) : (a ≤ p.1 ∧ p.1 < a + vs.length) ∨ p ∈ m := by
  induction vs generalizing m a with
  | nil => exact .inr h
  | cons v vs ih =>
    simp only [List.length_cons]
    rcases ih h with h | h
    · exact .inl (by omega)
    · exact (mem_keys_memPut h).imp (fun h => by omega) id

theorem memGet_isSome_mem {m : Memory α} {a : Nat} {v : α} (h : memGet m a = some v) : (a, v) ∈ m := by
  induction m with
  | nil => simp at h
  | cons q m ih =>
    obtain ⟨k, w⟩ := q
    simp only [memGet] at h
    split at h
    · rename_i hk; subst hk; simp at h; subst h; exact List.mem_cons_self
    · exact List.mem_cons_of_mem _ (ih h)

end Sys2Proof.Machine
end

