-- ==== Sys2Proof/Laws/State.lean ====
section
/-! SUPPORT. For every named update of the state and every field, what the field is after the update. -/

namespace Sys2Proof.Machine

open Sys2Proof

/-! ## errorEntry: Error entry (60_exceptions.md R185) -/

@[simp] theorem errorEntry_config (e : ErrKind) (info : Word) (s : State) : (errorEntry e info s).config = s.config := rfl
@[simp] theorem errorEntry_phase (e : ErrKind) (info : Word) (s : State) : (errorEntry e info s).phase = .done := rfl
@[simp] theorem errorEntry_alpha (e : ErrKind) (info : Word) (s : State) : (errorEntry e info s).alpha = s.alpha := rfl
@[simp] theorem errorEntry_n (e : ErrKind) (info : Word) (s : State) : (errorEntry e info s).n = s.n := rfl
@[simp] theorem errorEntry_value (e : ErrKind) (info : Word) (s : State) : (errorEntry e info s).value = s.value := rfl
@[simp] theorem errorEntry_bitPos (e : ErrKind) (info : Word) (s : State) : (errorEntry e info s).bitPos = s.bitPos := rfl
@[simp] theorem errorEntry_symIdx (e : ErrKind) (info : Word) (s : State) : (errorEntry e info s).symIdx = s.symIdx := rfl
@[simp] theorem errorEntry_drained (e : ErrKind) (info : Word) (s : State) : (errorEntry e info s).drained = s.drained := rfl
@[simp] theorem errorEntry_indexBits (e : ErrKind) (info : Word) (s : State) : (errorEntry e info s).indexBits = s.indexBits := rfl
@[simp] theorem errorEntry_eug (e : ErrKind) (info : Word) (s : State) : (errorEntry e info s).eug = s.eug := rfl
@[simp] theorem errorEntry_dictLen (e : ErrKind) (info : Word) (s : State) : (errorEntry e info s).dictLen = s.dictLen := rfl
@[simp] theorem errorEntry_dict (e : ErrKind) (info : Word) (s : State) : (errorEntry e info s).dict = s.dict := rfl
@[simp] theorem errorEntry_last (e : ErrKind) (info : Word) (s : State) : (errorEntry e info s).last = s.last := rfl
@[simp] theorem errorEntry_out (e : ErrKind) (info : Word) (s : State) : (errorEntry e info s).out = s.out := rfl
@[simp] theorem errorEntry_outLen (e : ErrKind) (info : Word) (s : State) : (errorEntry e info s).outLen = s.outLen := rfl
@[simp] theorem errorEntry_err (e : ErrKind) (info : Word) (s : State) : (errorEntry e info s).err = e := rfl
@[simp] theorem errorEntry_errInfo (e : ErrKind) (info : Word) (s : State) : (errorEntry e info s).errInfo = info := rfl
@[simp] theorem errorEntry_ctrlAlphabet (e : ErrKind) (info : Word) (s : State) : (errorEntry e info s).ctrlAlphabet = s.ctrlAlphabet := rfl
@[simp] theorem errorEntry_inLen (e : ErrKind) (info : Word) (s : State) : (errorEntry e info s).inLen = s.inLen := rfl
@[simp] theorem errorEntry_input (e : ErrKind) (info : Word) (s : State) : (errorEntry e info s).input = s.input := rfl
@[simp] theorem errorEntry_epoch (e : ErrKind) (info : Word) (s : State) : (errorEntry e info s).epoch = s.epoch := rfl
@[simp] theorem errorEntry_draws (e : ErrKind) (info : Word) (s : State) : (errorEntry e info s).draws = s.draws := rfl
@[simp] theorem errorEntry_host (e : ErrKind) (info : Word) (s : State) : (errorEntry e info s).host = s.host := rfl
@[simp] theorem errorEntry_readData (e : ErrKind) (info : Word) (s : State) : (errorEntry e info s).readData = s.readData := rfl

/-! ## endRun: The successful end (43_driver.md R166) -/

@[simp] theorem endRun_config (s : State) : (endRun s).config = s.config := rfl
@[simp] theorem endRun_phase (s : State) : (endRun s).phase = .done := rfl
@[simp] theorem endRun_alpha (s : State) : (endRun s).alpha = s.alpha := rfl
@[simp] theorem endRun_n (s : State) : (endRun s).n = s.n := rfl
@[simp] theorem endRun_value (s : State) : (endRun s).value = s.value := rfl
@[simp] theorem endRun_bitPos (s : State) : (endRun s).bitPos = s.bitPos := rfl
@[simp] theorem endRun_symIdx (s : State) : (endRun s).symIdx = s.symIdx := rfl
@[simp] theorem endRun_drained (s : State) : (endRun s).drained = s.drained := rfl
@[simp] theorem endRun_indexBits (s : State) : (endRun s).indexBits = s.indexBits := rfl
@[simp] theorem endRun_eug (s : State) : (endRun s).eug = s.eug := rfl
@[simp] theorem endRun_dictLen (s : State) : (endRun s).dictLen = s.dictLen := rfl
@[simp] theorem endRun_dict (s : State) : (endRun s).dict = s.dict := rfl
@[simp] theorem endRun_last (s : State) : (endRun s).last = s.last := rfl
@[simp] theorem endRun_out (s : State) : (endRun s).out = s.out := rfl
@[simp] theorem endRun_outLen (s : State) : (endRun s).outLen = s.outLen := rfl
@[simp] theorem endRun_err (s : State) : (endRun s).err = .none := rfl
@[simp] theorem endRun_errInfo (s : State) : (endRun s).errInfo = 0 := rfl
@[simp] theorem endRun_ctrlAlphabet (s : State) : (endRun s).ctrlAlphabet = s.ctrlAlphabet := rfl
@[simp] theorem endRun_inLen (s : State) : (endRun s).inLen = s.inLen := rfl
@[simp] theorem endRun_input (s : State) : (endRun s).input = s.input := rfl
@[simp] theorem endRun_epoch (s : State) : (endRun s).epoch = s.epoch := rfl
@[simp] theorem endRun_draws (s : State) : (endRun s).draws = s.draws := rfl
@[simp] theorem endRun_host (s : State) : (endRun s).host = s.host := rfl
@[simp] theorem endRun_readData (s : State) : (endRun s).readData = s.readData := rfl

/-! ## rotate: BITPOS halved (40_bit_reader.md R101) -/

@[simp] theorem rotate_config (s : State) : (rotate s).config = s.config := rfl
@[simp] theorem rotate_phase (s : State) : (rotate s).phase = s.phase := rfl
@[simp] theorem rotate_alpha (s : State) : (rotate s).alpha = s.alpha := rfl
@[simp] theorem rotate_n (s : State) : (rotate s).n = s.n := rfl
@[simp] theorem rotate_value (s : State) : (rotate s).value = s.value := rfl
@[simp] theorem rotate_bitPos (s : State) : (rotate s).bitPos = s.bitPos >>> 1 := rfl
@[simp] theorem rotate_symIdx (s : State) : (rotate s).symIdx = s.symIdx := rfl
@[simp] theorem rotate_drained (s : State) : (rotate s).drained = s.drained := rfl
@[simp] theorem rotate_indexBits (s : State) : (rotate s).indexBits = s.indexBits := rfl
@[simp] theorem rotate_eug (s : State) : (rotate s).eug = s.eug := rfl
@[simp] theorem rotate_dictLen (s : State) : (rotate s).dictLen = s.dictLen := rfl
@[simp] theorem rotate_dict (s : State) : (rotate s).dict = s.dict := rfl
@[simp] theorem rotate_last (s : State) : (rotate s).last = s.last := rfl
@[simp] theorem rotate_out (s : State) : (rotate s).out = s.out := rfl
@[simp] theorem rotate_outLen (s : State) : (rotate s).outLen = s.outLen := rfl
@[simp] theorem rotate_err (s : State) : (rotate s).err = s.err := rfl
@[simp] theorem rotate_errInfo (s : State) : (rotate s).errInfo = s.errInfo := rfl
@[simp] theorem rotate_ctrlAlphabet (s : State) : (rotate s).ctrlAlphabet = s.ctrlAlphabet := rfl
@[simp] theorem rotate_inLen (s : State) : (rotate s).inLen = s.inLen := rfl
@[simp] theorem rotate_input (s : State) : (rotate s).input = s.input := rfl
@[simp] theorem rotate_epoch (s : State) : (rotate s).epoch = s.epoch := rfl
@[simp] theorem rotate_draws (s : State) : (rotate s).draws = s.draws := rfl
@[simp] theorem rotate_host (s : State) : (rotate s).host = s.host := rfl
@[simp] theorem rotate_readData (s : State) : (rotate s).readData = s.readData := rfl

/-! ## restartBitPos: BITPOS back at 32 (R101) -/

@[simp] theorem restartBitPos_config (s : State) : (restartBitPos s).config = s.config := rfl
@[simp] theorem restartBitPos_phase (s : State) : (restartBitPos s).phase = s.phase := rfl
@[simp] theorem restartBitPos_alpha (s : State) : (restartBitPos s).alpha = s.alpha := rfl
@[simp] theorem restartBitPos_n (s : State) : (restartBitPos s).n = s.n := rfl
@[simp] theorem restartBitPos_value (s : State) : (restartBitPos s).value = s.value := rfl
@[simp] theorem restartBitPos_bitPos (s : State) : (restartBitPos s).bitPos = 32 := rfl
@[simp] theorem restartBitPos_symIdx (s : State) : (restartBitPos s).symIdx = s.symIdx := rfl
@[simp] theorem restartBitPos_drained (s : State) : (restartBitPos s).drained = s.drained := rfl
@[simp] theorem restartBitPos_indexBits (s : State) : (restartBitPos s).indexBits = s.indexBits := rfl
@[simp] theorem restartBitPos_eug (s : State) : (restartBitPos s).eug = s.eug := rfl
@[simp] theorem restartBitPos_dictLen (s : State) : (restartBitPos s).dictLen = s.dictLen := rfl
@[simp] theorem restartBitPos_dict (s : State) : (restartBitPos s).dict = s.dict := rfl
@[simp] theorem restartBitPos_last (s : State) : (restartBitPos s).last = s.last := rfl
@[simp] theorem restartBitPos_out (s : State) : (restartBitPos s).out = s.out := rfl
@[simp] theorem restartBitPos_outLen (s : State) : (restartBitPos s).outLen = s.outLen := rfl
@[simp] theorem restartBitPos_err (s : State) : (restartBitPos s).err = s.err := rfl
@[simp] theorem restartBitPos_errInfo (s : State) : (restartBitPos s).errInfo = s.errInfo := rfl
@[simp] theorem restartBitPos_ctrlAlphabet (s : State) : (restartBitPos s).ctrlAlphabet = s.ctrlAlphabet := rfl
@[simp] theorem restartBitPos_inLen (s : State) : (restartBitPos s).inLen = s.inLen := rfl
@[simp] theorem restartBitPos_input (s : State) : (restartBitPos s).input = s.input := rfl
@[simp] theorem restartBitPos_epoch (s : State) : (restartBitPos s).epoch = s.epoch := rfl
@[simp] theorem restartBitPos_draws (s : State) : (restartBitPos s).draws = s.draws := rfl
@[simp] theorem restartBitPos_host (s : State) : (restartBitPos s).host = s.host := rfl
@[simp] theorem restartBitPos_readData (s : State) : (restartBitPos s).readData = s.readData := rfl

/-! ## loadSymbol: A refill (R103) -/

@[simp] theorem loadSymbol_config (v : BitVec 7) (s : State) : (loadSymbol v s).config = s.config := rfl
@[simp] theorem loadSymbol_phase (v : BitVec 7) (s : State) : (loadSymbol v s).phase = s.phase := rfl
@[simp] theorem loadSymbol_alpha (v : BitVec 7) (s : State) : (loadSymbol v s).alpha = s.alpha := rfl
@[simp] theorem loadSymbol_n (v : BitVec 7) (s : State) : (loadSymbol v s).n = s.n := rfl
@[simp] theorem loadSymbol_value (v : BitVec 7) (s : State) : (loadSymbol v s).value = v := rfl
@[simp] theorem loadSymbol_bitPos (v : BitVec 7) (s : State) : (loadSymbol v s).bitPos = s.bitPos := rfl
@[simp] theorem loadSymbol_symIdx (v : BitVec 7) (s : State) : (loadSymbol v s).symIdx = s.symIdx + 1 := rfl
@[simp] theorem loadSymbol_drained (v : BitVec 7) (s : State) : (loadSymbol v s).drained = s.drained := rfl
@[simp] theorem loadSymbol_indexBits (v : BitVec 7) (s : State) : (loadSymbol v s).indexBits = s.indexBits := rfl
@[simp] theorem loadSymbol_eug (v : BitVec 7) (s : State) : (loadSymbol v s).eug = s.eug := rfl
@[simp] theorem loadSymbol_dictLen (v : BitVec 7) (s : State) : (loadSymbol v s).dictLen = s.dictLen := rfl
@[simp] theorem loadSymbol_dict (v : BitVec 7) (s : State) : (loadSymbol v s).dict = s.dict := rfl
@[simp] theorem loadSymbol_last (v : BitVec 7) (s : State) : (loadSymbol v s).last = s.last := rfl
@[simp] theorem loadSymbol_out (v : BitVec 7) (s : State) : (loadSymbol v s).out = s.out := rfl
@[simp] theorem loadSymbol_outLen (v : BitVec 7) (s : State) : (loadSymbol v s).outLen = s.outLen := rfl
@[simp] theorem loadSymbol_err (v : BitVec 7) (s : State) : (loadSymbol v s).err = s.err := rfl
@[simp] theorem loadSymbol_errInfo (v : BitVec 7) (s : State) : (loadSymbol v s).errInfo = s.errInfo := rfl
@[simp] theorem loadSymbol_ctrlAlphabet (v : BitVec 7) (s : State) : (loadSymbol v s).ctrlAlphabet = s.ctrlAlphabet := rfl
@[simp] theorem loadSymbol_inLen (v : BitVec 7) (s : State) : (loadSymbol v s).inLen = s.inLen := rfl
@[simp] theorem loadSymbol_input (v : BitVec 7) (s : State) : (loadSymbol v s).input = s.input := rfl
@[simp] theorem loadSymbol_epoch (v : BitVec 7) (s : State) : (loadSymbol v s).epoch = s.epoch := rfl
@[simp] theorem loadSymbol_draws (v : BitVec 7) (s : State) : (loadSymbol v s).draws = s.draws := rfl
@[simp] theorem loadSymbol_host (v : BitVec 7) (s : State) : (loadSymbol v s).host = s.host := rfl
@[simp] theorem loadSymbol_readData (v : BitVec 7) (s : State) : (loadSymbol v s).readData = s.readData := rfl

/-! ## drain: The refill at the end of the input (R104) -/

@[simp] theorem drain_config (s : State) : (drain s).config = s.config := rfl
@[simp] theorem drain_phase (s : State) : (drain s).phase = s.phase := rfl
@[simp] theorem drain_alpha (s : State) : (drain s).alpha = s.alpha := rfl
@[simp] theorem drain_n (s : State) : (drain s).n = s.n := rfl
@[simp] theorem drain_value (s : State) : (drain s).value = s.value := rfl
@[simp] theorem drain_bitPos (s : State) : (drain s).bitPos = s.bitPos := rfl
@[simp] theorem drain_symIdx (s : State) : (drain s).symIdx = s.symIdx := rfl
@[simp] theorem drain_drained (s : State) : (drain s).drained = true := rfl
@[simp] theorem drain_indexBits (s : State) : (drain s).indexBits = s.indexBits := rfl
@[simp] theorem drain_eug (s : State) : (drain s).eug = s.eug := rfl
@[simp] theorem drain_dictLen (s : State) : (drain s).dictLen = s.dictLen := rfl
@[simp] theorem drain_dict (s : State) : (drain s).dict = s.dict := rfl
@[simp] theorem drain_last (s : State) : (drain s).last = s.last := rfl
@[simp] theorem drain_out (s : State) : (drain s).out = s.out := rfl
@[simp] theorem drain_outLen (s : State) : (drain s).outLen = s.outLen := rfl
@[simp] theorem drain_err (s : State) : (drain s).err = s.err := rfl
@[simp] theorem drain_errInfo (s : State) : (drain s).errInfo = s.errInfo := rfl
@[simp] theorem drain_ctrlAlphabet (s : State) : (drain s).ctrlAlphabet = s.ctrlAlphabet := rfl
@[simp] theorem drain_inLen (s : State) : (drain s).inLen = s.inLen := rfl
@[simp] theorem drain_input (s : State) : (drain s).input = s.input := rfl
@[simp] theorem drain_epoch (s : State) : (drain s).epoch = s.epoch := rfl
@[simp] theorem drain_draws (s : State) : (drain s).draws = s.draws := rfl
@[simp] theorem drain_host (s : State) : (drain s).host = s.host := rfl
@[simp] theorem drain_readData (s : State) : (drain s).readData = s.readData := rfl

/-! ## pushEntry: A new entry (41_dictionary.md R121) -/

@[simp] theorem pushEntry_config (str : Str) (s : State) : (pushEntry str s).config = s.config := rfl
@[simp] theorem pushEntry_phase (str : Str) (s : State) : (pushEntry str s).phase = s.phase := rfl
@[simp] theorem pushEntry_alpha (str : Str) (s : State) : (pushEntry str s).alpha = s.alpha := rfl
@[simp] theorem pushEntry_n (str : Str) (s : State) : (pushEntry str s).n = s.n := rfl
@[simp] theorem pushEntry_value (str : Str) (s : State) : (pushEntry str s).value = s.value := rfl
@[simp] theorem pushEntry_bitPos (str : Str) (s : State) : (pushEntry str s).bitPos = s.bitPos := rfl
@[simp] theorem pushEntry_symIdx (str : Str) (s : State) : (pushEntry str s).symIdx = s.symIdx := rfl
@[simp] theorem pushEntry_drained (str : Str) (s : State) : (pushEntry str s).drained = s.drained := rfl
@[simp] theorem pushEntry_indexBits (str : Str) (s : State) : (pushEntry str s).indexBits = s.indexBits := rfl
@[simp] theorem pushEntry_eug (str : Str) (s : State) : (pushEntry str s).eug = s.eug := rfl
@[simp] theorem pushEntry_dictLen (str : Str) (s : State) : (pushEntry str s).dictLen = s.dictLen + 1 := rfl
@[simp] theorem pushEntry_dict (str : Str) (s : State) : (pushEntry str s).dict = memPut s.dict s.dictLen.toNat str := rfl
@[simp] theorem pushEntry_last (str : Str) (s : State) : (pushEntry str s).last = s.last := rfl
@[simp] theorem pushEntry_out (str : Str) (s : State) : (pushEntry str s).out = s.out := rfl
@[simp] theorem pushEntry_outLen (str : Str) (s : State) : (pushEntry str s).outLen = s.outLen := rfl
@[simp] theorem pushEntry_err (str : Str) (s : State) : (pushEntry str s).err = s.err := rfl
@[simp] theorem pushEntry_errInfo (str : Str) (s : State) : (pushEntry str s).errInfo = s.errInfo := rfl
@[simp] theorem pushEntry_ctrlAlphabet (str : Str) (s : State) : (pushEntry str s).ctrlAlphabet = s.ctrlAlphabet := rfl
@[simp] theorem pushEntry_inLen (str : Str) (s : State) : (pushEntry str s).inLen = s.inLen := rfl
@[simp] theorem pushEntry_input (str : Str) (s : State) : (pushEntry str s).input = s.input := rfl
@[simp] theorem pushEntry_epoch (str : Str) (s : State) : (pushEntry str s).epoch = s.epoch := rfl
@[simp] theorem pushEntry_draws (str : Str) (s : State) : (pushEntry str s).draws = s.draws := rfl
@[simp] theorem pushEntry_host (str : Str) (s : State) : (pushEntry str s).host = s.host := rfl
@[simp] theorem pushEntry_readData (str : Str) (s : State) : (pushEntry str s).readData = s.readData := rfl

/-! ## countEntry: A counted append (R121, R122) -/

@[simp] theorem countEntry_config (s : State) : (countEntry s).config = s.config := rfl
@[simp] theorem countEntry_phase (s : State) : (countEntry s).phase = s.phase := rfl
@[simp] theorem countEntry_alpha (s : State) : (countEntry s).alpha = s.alpha := rfl
@[simp] theorem countEntry_n (s : State) : (countEntry s).n = s.n := rfl
@[simp] theorem countEntry_value (s : State) : (countEntry s).value = s.value := rfl
@[simp] theorem countEntry_bitPos (s : State) : (countEntry s).bitPos = s.bitPos := rfl
@[simp] theorem countEntry_symIdx (s : State) : (countEntry s).symIdx = s.symIdx := rfl
@[simp] theorem countEntry_drained (s : State) : (countEntry s).drained = s.drained := rfl
@[simp] theorem countEntry_indexBits (s : State) : (countEntry s).indexBits = if s.eug - 1 = 0 then s.indexBits + 1 else s.indexBits := rfl
@[simp] theorem countEntry_eug (s : State) : (countEntry s).eug = if s.eug - 1 = 0 then BitVec.ofNat 32 (2 ^ s.indexBits.toNat) else s.eug - 1 := rfl
@[simp] theorem countEntry_dictLen (s : State) : (countEntry s).dictLen = s.dictLen := rfl
@[simp] theorem countEntry_dict (s : State) : (countEntry s).dict = s.dict := rfl
@[simp] theorem countEntry_last (s : State) : (countEntry s).last = s.last := rfl
@[simp] theorem countEntry_out (s : State) : (countEntry s).out = s.out := rfl
@[simp] theorem countEntry_outLen (s : State) : (countEntry s).outLen = s.outLen := rfl
@[simp] theorem countEntry_err (s : State) : (countEntry s).err = s.err := rfl
@[simp] theorem countEntry_errInfo (s : State) : (countEntry s).errInfo = s.errInfo := rfl
@[simp] theorem countEntry_ctrlAlphabet (s : State) : (countEntry s).ctrlAlphabet = s.ctrlAlphabet := rfl
@[simp] theorem countEntry_inLen (s : State) : (countEntry s).inLen = s.inLen := rfl
@[simp] theorem countEntry_input (s : State) : (countEntry s).input = s.input := rfl
@[simp] theorem countEntry_epoch (s : State) : (countEntry s).epoch = s.epoch := rfl
@[simp] theorem countEntry_draws (s : State) : (countEntry s).draws = s.draws := rfl
@[simp] theorem countEntry_host (s : State) : (countEntry s).host = s.host := rfl
@[simp] theorem countEntry_readData (s : State) : (countEntry s).readData = s.readData := rfl

/-! ## writeOut: EMIT's writes (R130) -/

@[simp] theorem writeOut_config (str : Str) (s : State) : (writeOut str s).config = s.config := rfl
@[simp] theorem writeOut_phase (str : Str) (s : State) : (writeOut str s).phase = s.phase := rfl
@[simp] theorem writeOut_alpha (str : Str) (s : State) : (writeOut str s).alpha = s.alpha := rfl
@[simp] theorem writeOut_n (str : Str) (s : State) : (writeOut str s).n = s.n := rfl
@[simp] theorem writeOut_value (str : Str) (s : State) : (writeOut str s).value = s.value := rfl
@[simp] theorem writeOut_bitPos (str : Str) (s : State) : (writeOut str s).bitPos = s.bitPos := rfl
@[simp] theorem writeOut_symIdx (str : Str) (s : State) : (writeOut str s).symIdx = s.symIdx := rfl
@[simp] theorem writeOut_drained (str : Str) (s : State) : (writeOut str s).drained = s.drained := rfl
@[simp] theorem writeOut_indexBits (str : Str) (s : State) : (writeOut str s).indexBits = s.indexBits := rfl
@[simp] theorem writeOut_eug (str : Str) (s : State) : (writeOut str s).eug = s.eug := rfl
@[simp] theorem writeOut_dictLen (str : Str) (s : State) : (writeOut str s).dictLen = s.dictLen := rfl
@[simp] theorem writeOut_dict (str : Str) (s : State) : (writeOut str s).dict = s.dict := rfl
@[simp] theorem writeOut_last (str : Str) (s : State) : (writeOut str s).last = s.last := rfl
@[simp] theorem writeOut_out (str : Str) (s : State) : (writeOut str s).out = memPutAll s.out s.outLen.toNat str := rfl
@[simp] theorem writeOut_outLen (str : Str) (s : State) : (writeOut str s).outLen = BitVec.ofNat 32 (s.outLen.toNat + str.length) := rfl
@[simp] theorem writeOut_err (str : Str) (s : State) : (writeOut str s).err = s.err := rfl
@[simp] theorem writeOut_errInfo (str : Str) (s : State) : (writeOut str s).errInfo = s.errInfo := rfl
@[simp] theorem writeOut_ctrlAlphabet (str : Str) (s : State) : (writeOut str s).ctrlAlphabet = s.ctrlAlphabet := rfl
@[simp] theorem writeOut_inLen (str : Str) (s : State) : (writeOut str s).inLen = s.inLen := rfl
@[simp] theorem writeOut_input (str : Str) (s : State) : (writeOut str s).input = s.input := rfl
@[simp] theorem writeOut_epoch (str : Str) (s : State) : (writeOut str s).epoch = s.epoch := rfl
@[simp] theorem writeOut_draws (str : Str) (s : State) : (writeOut str s).draws = s.draws := rfl
@[simp] theorem writeOut_host (str : Str) (s : State) : (writeOut str s).host = s.host := rfl
@[simp] theorem writeOut_readData (str : Str) (s : State) : (writeOut str s).readData = s.readData := rfl

/-! ## setLast: LAST -/

@[simp] theorem setLast_config (tok : Str) (s : State) : (setLast tok s).config = s.config := rfl
@[simp] theorem setLast_phase (tok : Str) (s : State) : (setLast tok s).phase = s.phase := rfl
@[simp] theorem setLast_alpha (tok : Str) (s : State) : (setLast tok s).alpha = s.alpha := rfl
@[simp] theorem setLast_n (tok : Str) (s : State) : (setLast tok s).n = s.n := rfl
@[simp] theorem setLast_value (tok : Str) (s : State) : (setLast tok s).value = s.value := rfl
@[simp] theorem setLast_bitPos (tok : Str) (s : State) : (setLast tok s).bitPos = s.bitPos := rfl
@[simp] theorem setLast_symIdx (tok : Str) (s : State) : (setLast tok s).symIdx = s.symIdx := rfl
@[simp] theorem setLast_drained (tok : Str) (s : State) : (setLast tok s).drained = s.drained := rfl
@[simp] theorem setLast_indexBits (tok : Str) (s : State) : (setLast tok s).indexBits = s.indexBits := rfl
@[simp] theorem setLast_eug (tok : Str) (s : State) : (setLast tok s).eug = s.eug := rfl
@[simp] theorem setLast_dictLen (tok : Str) (s : State) : (setLast tok s).dictLen = s.dictLen := rfl
@[simp] theorem setLast_dict (tok : Str) (s : State) : (setLast tok s).dict = s.dict := rfl
@[simp] theorem setLast_last (tok : Str) (s : State) : (setLast tok s).last = tok := rfl
@[simp] theorem setLast_out (tok : Str) (s : State) : (setLast tok s).out = s.out := rfl
@[simp] theorem setLast_outLen (tok : Str) (s : State) : (setLast tok s).outLen = s.outLen := rfl
@[simp] theorem setLast_err (tok : Str) (s : State) : (setLast tok s).err = s.err := rfl
@[simp] theorem setLast_errInfo (tok : Str) (s : State) : (setLast tok s).errInfo = s.errInfo := rfl
@[simp] theorem setLast_ctrlAlphabet (tok : Str) (s : State) : (setLast tok s).ctrlAlphabet = s.ctrlAlphabet := rfl
@[simp] theorem setLast_inLen (tok : Str) (s : State) : (setLast tok s).inLen = s.inLen := rfl
@[simp] theorem setLast_input (tok : Str) (s : State) : (setLast tok s).input = s.input := rfl
@[simp] theorem setLast_epoch (tok : Str) (s : State) : (setLast tok s).epoch = s.epoch := rfl
@[simp] theorem setLast_draws (tok : Str) (s : State) : (setLast tok s).draws = s.draws := rfl
@[simp] theorem setLast_host (tok : Str) (s : State) : (setLast tok s).host = s.host := rfl
@[simp] theorem setLast_readData (tok : Str) (s : State) : (setLast tok s).readData = s.readData := rfl

/-! ## enterLoop: The end of a FIRST step (R124, 43_driver.md R164) -/

@[simp] theorem enterLoop_config (s : State) : (enterLoop s).config = s.config := rfl
@[simp] theorem enterLoop_phase (s : State) : (enterLoop s).phase = .loop := rfl
@[simp] theorem enterLoop_alpha (s : State) : (enterLoop s).alpha = s.alpha := rfl
@[simp] theorem enterLoop_n (s : State) : (enterLoop s).n = s.n := rfl
@[simp] theorem enterLoop_value (s : State) : (enterLoop s).value = s.value := rfl
@[simp] theorem enterLoop_bitPos (s : State) : (enterLoop s).bitPos = s.bitPos := rfl
@[simp] theorem enterLoop_symIdx (s : State) : (enterLoop s).symIdx = s.symIdx := rfl
@[simp] theorem enterLoop_drained (s : State) : (enterLoop s).drained = s.drained := rfl
@[simp] theorem enterLoop_indexBits (s : State) : (enterLoop s).indexBits = s.indexBits + 1 := rfl
@[simp] theorem enterLoop_eug (s : State) : (enterLoop s).eug = s.eug := rfl
@[simp] theorem enterLoop_dictLen (s : State) : (enterLoop s).dictLen = s.dictLen := rfl
@[simp] theorem enterLoop_dict (s : State) : (enterLoop s).dict = s.dict := rfl
@[simp] theorem enterLoop_last (s : State) : (enterLoop s).last = s.last := rfl
@[simp] theorem enterLoop_out (s : State) : (enterLoop s).out = s.out := rfl
@[simp] theorem enterLoop_outLen (s : State) : (enterLoop s).outLen = s.outLen := rfl
@[simp] theorem enterLoop_err (s : State) : (enterLoop s).err = s.err := rfl
@[simp] theorem enterLoop_errInfo (s : State) : (enterLoop s).errInfo = s.errInfo := rfl
@[simp] theorem enterLoop_ctrlAlphabet (s : State) : (enterLoop s).ctrlAlphabet = s.ctrlAlphabet := rfl
@[simp] theorem enterLoop_inLen (s : State) : (enterLoop s).inLen = s.inLen := rfl
@[simp] theorem enterLoop_input (s : State) : (enterLoop s).input = s.input := rfl
@[simp] theorem enterLoop_epoch (s : State) : (enterLoop s).epoch = s.epoch := rfl
@[simp] theorem enterLoop_draws (s : State) : (enterLoop s).draws = s.draws := rfl
@[simp] theorem enterLoop_host (s : State) : (enterLoop s).host = s.host := rfl
@[simp] theorem enterLoop_readData (s : State) : (enterLoop s).readData = s.readData := rfl

/-! ## startRun: START (43_driver.md R160) -/

@[simp] theorem startRun_config (s : State) : (startRun s).config = s.config := rfl
@[simp] theorem startRun_phase (s : State) : (startRun s).phase = .init := rfl
@[simp] theorem startRun_alpha (s : State) : (startRun s).alpha = s.alpha := rfl
@[simp] theorem startRun_n (s : State) : (startRun s).n = s.n := rfl
@[simp] theorem startRun_value (s : State) : (startRun s).value = s.value := rfl
@[simp] theorem startRun_bitPos (s : State) : (startRun s).bitPos = s.bitPos := rfl
@[simp] theorem startRun_symIdx (s : State) : (startRun s).symIdx = s.symIdx := rfl
@[simp] theorem startRun_drained (s : State) : (startRun s).drained = s.drained := rfl
@[simp] theorem startRun_indexBits (s : State) : (startRun s).indexBits = s.indexBits := rfl
@[simp] theorem startRun_eug (s : State) : (startRun s).eug = s.eug := rfl
@[simp] theorem startRun_dictLen (s : State) : (startRun s).dictLen = s.dictLen := rfl
@[simp] theorem startRun_dict (s : State) : (startRun s).dict = s.dict := rfl
@[simp] theorem startRun_last (s : State) : (startRun s).last = s.last := rfl
@[simp] theorem startRun_out (s : State) : (startRun s).out = s.out := rfl
@[simp] theorem startRun_outLen (s : State) : (startRun s).outLen = s.outLen := rfl
@[simp] theorem startRun_err (s : State) : (startRun s).err = s.err := rfl
@[simp] theorem startRun_errInfo (s : State) : (startRun s).errInfo = s.errInfo := rfl
@[simp] theorem startRun_ctrlAlphabet (s : State) : (startRun s).ctrlAlphabet = s.ctrlAlphabet := rfl
@[simp] theorem startRun_inLen (s : State) : (startRun s).inLen = s.inLen := rfl
@[simp] theorem startRun_input (s : State) : (startRun s).input = s.input := rfl
@[simp] theorem startRun_epoch (s : State) : (startRun s).epoch = s.epoch := rfl
@[simp] theorem startRun_draws (s : State) : (startRun s).draws = s.draws := rfl
@[simp] theorem startRun_host (s : State) : (startRun s).host = s.host := rfl
@[simp] theorem startRun_readData (s : State) : (startRun s).readData = s.readData := rfl

/-! ## latchRun: INIT's first lines (43_driver.md R161) -/

@[simp] theorem latchRun_config (s : State) : (latchRun s).config = s.config := rfl
@[simp] theorem latchRun_phase (s : State) : (latchRun s).phase = s.phase := rfl
@[simp] theorem latchRun_alpha (s : State) : (latchRun s).alpha = s.ctrlAlphabet := rfl
@[simp] theorem latchRun_n (s : State) : (latchRun s).n = s.inLen := rfl
@[simp] theorem latchRun_value (s : State) : (latchRun s).value = s.value := rfl
@[simp] theorem latchRun_bitPos (s : State) : (latchRun s).bitPos = s.bitPos := rfl
@[simp] theorem latchRun_symIdx (s : State) : (latchRun s).symIdx = s.symIdx := rfl
@[simp] theorem latchRun_drained (s : State) : (latchRun s).drained = s.drained := rfl
@[simp] theorem latchRun_indexBits (s : State) : (latchRun s).indexBits = s.indexBits := rfl
@[simp] theorem latchRun_eug (s : State) : (latchRun s).eug = s.eug := rfl
@[simp] theorem latchRun_dictLen (s : State) : (latchRun s).dictLen = s.dictLen := rfl
@[simp] theorem latchRun_dict (s : State) : (latchRun s).dict = s.dict := rfl
@[simp] theorem latchRun_last (s : State) : (latchRun s).last = s.last := rfl
@[simp] theorem latchRun_out (s : State) : (latchRun s).out = s.out := rfl
@[simp] theorem latchRun_outLen (s : State) : (latchRun s).outLen = 0 := rfl
@[simp] theorem latchRun_err (s : State) : (latchRun s).err = .none := rfl
@[simp] theorem latchRun_errInfo (s : State) : (latchRun s).errInfo = 0 := rfl
@[simp] theorem latchRun_ctrlAlphabet (s : State) : (latchRun s).ctrlAlphabet = s.ctrlAlphabet := rfl
@[simp] theorem latchRun_inLen (s : State) : (latchRun s).inLen = s.inLen := rfl
@[simp] theorem latchRun_input (s : State) : (latchRun s).input = s.input := rfl
@[simp] theorem latchRun_epoch (s : State) : (latchRun s).epoch = s.epoch := rfl
@[simp] theorem latchRun_draws (s : State) : (latchRun s).draws = s.draws := rfl
@[simp] theorem latchRun_host (s : State) : (latchRun s).host = s.host := rfl
@[simp] theorem latchRun_readData (s : State) : (latchRun s).readData = s.readData := rfl

/-! ## seedRun: The starting values (43_driver.md R163) -/

@[simp] theorem seedRun_config (v : BitVec 7) (s : State) : (seedRun v s).config = s.config := rfl
@[simp] theorem seedRun_phase (v : BitVec 7) (s : State) : (seedRun v s).phase = .first := rfl
@[simp] theorem seedRun_alpha (v : BitVec 7) (s : State) : (seedRun v s).alpha = s.alpha := rfl
@[simp] theorem seedRun_n (v : BitVec 7) (s : State) : (seedRun v s).n = s.n := rfl
@[simp] theorem seedRun_value (v : BitVec 7) (s : State) : (seedRun v s).value = v := rfl
@[simp] theorem seedRun_bitPos (v : BitVec 7) (s : State) : (seedRun v s).bitPos = 32 := rfl
@[simp] theorem seedRun_symIdx (v : BitVec 7) (s : State) : (seedRun v s).symIdx = 1 := rfl
@[simp] theorem seedRun_drained (v : BitVec 7) (s : State) : (seedRun v s).drained = false := rfl
@[simp] theorem seedRun_indexBits (v : BitVec 7) (s : State) : (seedRun v s).indexBits = 2 := rfl
@[simp] theorem seedRun_eug (v : BitVec 7) (s : State) : (seedRun v s).eug = 4 := rfl
@[simp] theorem seedRun_dictLen (v : BitVec 7) (s : State) : (seedRun v s).dictLen = 3 := rfl
@[simp] theorem seedRun_dict (v : BitVec 7) (s : State) : (seedRun v s).dict = [] := rfl
@[simp] theorem seedRun_last (v : BitVec 7) (s : State) : (seedRun v s).last = [] := rfl
@[simp] theorem seedRun_out (v : BitVec 7) (s : State) : (seedRun v s).out = s.out := rfl
@[simp] theorem seedRun_outLen (v : BitVec 7) (s : State) : (seedRun v s).outLen = s.outLen := rfl
@[simp] theorem seedRun_err (v : BitVec 7) (s : State) : (seedRun v s).err = s.err := rfl
@[simp] theorem seedRun_errInfo (v : BitVec 7) (s : State) : (seedRun v s).errInfo = s.errInfo := rfl
@[simp] theorem seedRun_ctrlAlphabet (v : BitVec 7) (s : State) : (seedRun v s).ctrlAlphabet = s.ctrlAlphabet := rfl
@[simp] theorem seedRun_inLen (v : BitVec 7) (s : State) : (seedRun v s).inLen = s.inLen := rfl
@[simp] theorem seedRun_input (v : BitVec 7) (s : State) : (seedRun v s).input = s.input := rfl
@[simp] theorem seedRun_epoch (v : BitVec 7) (s : State) : (seedRun v s).epoch = s.epoch := rfl
@[simp] theorem seedRun_draws (v : BitVec 7) (s : State) : (seedRun v s).draws = s.draws := rfl
@[simp] theorem seedRun_host (v : BitVec 7) (s : State) : (seedRun v s).host = s.host := rfl
@[simp] theorem seedRun_readData (v : BitVec 7) (s : State) : (seedRun v s).readData = s.readData := rfl

/-! ## resetFrom: Reset (70_reset_and_hazards.md R200) -/

@[simp] theorem resetFrom_config (s : State) : (resetFrom s).config = s.config := rfl
@[simp] theorem resetFrom_phase (s : State) : (resetFrom s).phase = State.reset.phase := rfl
@[simp] theorem resetFrom_alpha (s : State) : (resetFrom s).alpha = State.reset.alpha := rfl
@[simp] theorem resetFrom_n (s : State) : (resetFrom s).n = State.reset.n := rfl
@[simp] theorem resetFrom_value (s : State) : (resetFrom s).value = State.reset.value := rfl
@[simp] theorem resetFrom_bitPos (s : State) : (resetFrom s).bitPos = State.reset.bitPos := rfl
@[simp] theorem resetFrom_symIdx (s : State) : (resetFrom s).symIdx = State.reset.symIdx := rfl
@[simp] theorem resetFrom_drained (s : State) : (resetFrom s).drained = State.reset.drained := rfl
@[simp] theorem resetFrom_indexBits (s : State) : (resetFrom s).indexBits = State.reset.indexBits := rfl
@[simp] theorem resetFrom_eug (s : State) : (resetFrom s).eug = State.reset.eug := rfl
@[simp] theorem resetFrom_dictLen (s : State) : (resetFrom s).dictLen = State.reset.dictLen := rfl
@[simp] theorem resetFrom_dict (s : State) : (resetFrom s).dict = State.reset.dict := rfl
@[simp] theorem resetFrom_last (s : State) : (resetFrom s).last = State.reset.last := rfl
@[simp] theorem resetFrom_out (s : State) : (resetFrom s).out = State.reset.out := rfl
@[simp] theorem resetFrom_outLen (s : State) : (resetFrom s).outLen = State.reset.outLen := rfl
@[simp] theorem resetFrom_err (s : State) : (resetFrom s).err = State.reset.err := rfl
@[simp] theorem resetFrom_errInfo (s : State) : (resetFrom s).errInfo = State.reset.errInfo := rfl
@[simp] theorem resetFrom_ctrlAlphabet (s : State) : (resetFrom s).ctrlAlphabet = State.reset.ctrlAlphabet := rfl
@[simp] theorem resetFrom_inLen (s : State) : (resetFrom s).inLen = State.reset.inLen := rfl
@[simp] theorem resetFrom_input (s : State) : (resetFrom s).input = State.reset.input := rfl
@[simp] theorem resetFrom_epoch (s : State) : (resetFrom s).epoch = s.epoch + 1 := rfl
@[simp] theorem resetFrom_draws (s : State) : (resetFrom s).draws = s.draws := rfl
@[simp] theorem resetFrom_host (s : State) : (resetFrom s).host = s.host := rfl
@[simp] theorem resetFrom_readData (s : State) : (resetFrom s).readData = s.readData := rfl

end Sys2Proof.Machine
end

