-- ==== Sys2Proof/Laws/Ops.lean ====
section
/-! SUPPORT. For each shared operation, once, everything it can answer. -/

namespace Sys2Proof.Machine

open Sys2Proof

variable {α β : Type}

@[simp] theorem andThen_ok (a : α) (s : State) (f : α → State → Eff β) : (Eff.ok a s).andThen f = f a s := rfl
@[simp] theorem andThen_raised (e : ErrKind) (w : Word) (s : State) (f : α → State → Eff β) :
    (Eff.raised e w s : Eff α).andThen f = .raised e w s := rfl
@[simp] theorem andThen_stop (r : Fault) (f : α → State → Eff β) : (Eff.stop r : Eff α).andThen f = .stop r := rfl
@[simp] theorem conclude_ok (s : State) : conclude (.ok () s) = .next s := rfl
@[simp] theorem conclude_raised (e : ErrKind) (w : Word) (s : State) :
    conclude (.raised e w s) = .next (errorEntry e w s) := rfl
@[simp] theorem conclude_stop (r : Fault) : conclude (.stop r) = .fault r := rfl

/-- A sequence that gives a value gave one in its first part. -/
theorem andThen_eq_ok {m : Eff α} {f : α → State → Eff β} {b : β} {t : State} (h : m.andThen f = .ok b t) :
    ∃ a u, m = .ok a u ∧ f a u = .ok b t := by
  cases m with
  | ok a u => exact ⟨a, u, rfl, h⟩
  | raised e w u => cases h
  | stop r => cases h

/-- A sequence that raises an error raised it in its first part or in its second. -/
theorem andThen_eq_raised {m : Eff α} {f : α → State → Eff β} {e : ErrKind} {w : Word} {t : State}
    (h : m.andThen f = .raised e w t) :
    m = .raised e w t ∨ ∃ a u, m = .ok a u ∧ f a u = .raised e w t := by
  cases m with
  | ok a u => exact .inr ⟨a, u, rfl, h⟩
  | raised e' w' u => cases h; exact .inl rfl
  | stop r => cases h

/-- A concluded operation that answers a next state: it gave that state, or it raised an error that was entered. -/
theorem conclude_eq_next {m : Eff Unit} {t : State} (h : conclude m = .next t) :
    m = .ok () t ∨ ∃ e w u, m = .raised e w u ∧ t = errorEntry e w u := by
  cases m with
  | ok a u => cases h; exact .inl rfl
  | raised e w u => cases h; exact .inr ⟨e, w, u, rfl, rfl⟩
  | stop r => cases h

/-! ## Appends and output -/

theorem append_full {s : State} (str : Str) (h : s.dictLen = s.config.maxDict) :
    append str s = .raised .capacityExceeded 2 s := by simp [append, h]

theorem append_room {s : State} (str : Str) (h : s.dictLen ≠ s.config.maxDict) :
    append str s = .ok () (countEntry (pushEntry str s)) := by simp [append, h]

theorem seedAppend_room {s : State} (str : Str) (h : s.dictLen ≠ s.config.maxDict) :
    seedAppend str s = .ok () (pushEntry str s) := by simp [seedAppend, h]

theorem emit_full {s : State} (str : Str) (h : s.config.maxOut.toNat < s.outLen.toNat + str.length) :
    emit str s = .raised .capacityExceeded 3 s := by simp [emit, h]

theorem emit_room {s : State} (str : Str) (h : s.outLen.toNat + str.length ≤ s.config.maxOut.toNat) :
    emit str s = .ok () (writeOut str s) := by simp [emit, Nat.not_lt.2 h]

theorem append_cases (str : Str) (s : State) :
    (s.dictLen = s.config.maxDict ∧ append str s = .raised .capacityExceeded 2 s) ∨
    (s.dictLen ≠ s.config.maxDict ∧ append str s = .ok () (countEntry (pushEntry str s))) := by
  by_cases h : s.dictLen = s.config.maxDict
  · exact .inl ⟨h, append_full str h⟩
  · exact .inr ⟨h, append_room str h⟩

theorem emit_cases (str : Str) (s : State) :
    (s.config.maxOut.toNat < s.outLen.toNat + str.length ∧ emit str s = .raised .capacityExceeded 3 s) ∨
    (s.outLen.toNat + str.length ≤ s.config.maxOut.toNat ∧ emit str s = .ok () (writeOut str s)) := by
  rcases Nat.lt_or_ge s.config.maxOut.toNat (s.outLen.toNat + str.length) with h | h
  · exact .inl ⟨h, emit_full str h⟩
  · exact .inr ⟨h, emit_room str h⟩

@[simp] theorem firstChar_cons (c : Char16) (cs : Str) (s : State) : firstChar (c :: cs) s = .ok c s := rfl
@[simp] theorem firstChar_nil (s : State) : firstChar [] s = .stop .firstCharOfEmpty := rfl

/-! ## The bit reader -/

/-- Everything READBIT can answer (40_bit_reader.md R101 to R104). -/
theorem readBit_cases (s : State) :
    (s.drained = true ∧ readBit s = .raised .unexpectedEndOfBuffer 0 s) ∨
    (s.drained = false ∧ s.bitPos >>> 1 ≠ 0 ∧ readBit s = .ok (currentBit s) (rotate s)) ∨
    (s.drained = false ∧ s.bitPos >>> 1 = 0 ∧ s.symIdx < s.n ∧
      (∃ v, mapSymbol s.alpha (inSymbol s s.symIdx.toNat) = some v ∧
        readBit s = .ok (currentBit s) (loadSymbol v (restartBitPos (rotate s))))) ∨
    (s.drained = false ∧ s.bitPos >>> 1 = 0 ∧ s.symIdx < s.n ∧
      mapSymbol s.alpha (inSymbol s s.symIdx.toNat) = none ∧
      readBit s = .raised .illegalCharacter s.symIdx (restartBitPos (rotate s))) ∨
    (s.drained = false ∧ s.bitPos >>> 1 = 0 ∧ ¬ s.symIdx < s.n ∧
      readBit s = .ok (currentBit s) (drain (restartBitPos (rotate s)))) := by
  have hin : inSymbol (restartBitPos (rotate s)) s.symIdx.toNat = inSymbol s s.symIdx.toNat := rfl
  cases hd : s.drained with
  | true => exact .inl ⟨rfl, by simp [readBit, hd]⟩
  | false =>
    by_cases hb : s.bitPos >>> 1 = 0
    · by_cases hn : s.symIdx < s.n
      · cases hm : mapSymbol s.alpha (inSymbol s s.symIdx.toNat) with
        | none =>
          exact .inr (.inr (.inr (.inl ⟨rfl, hb, hn, rfl, by simp [readBit, hd, hb, refill, hn, hin, hm]⟩)))
        | some v =>
          exact .inr (.inr (.inl ⟨rfl, hb, hn, v, rfl, by simp [readBit, hd, hb, refill, hn, hin, hm]⟩))
      · exact .inr (.inr (.inr (.inr ⟨rfl, hb, hn, by simp [readBit, hd, hb, refill, hn]⟩)))
    · exact .inr (.inl ⟨rfl, hb, by rw [readBit, if_neg (by simp [hd]), rotate_bitPos, if_neg hb]⟩)

/-- The states that differ only in the registers of the bit reader, as an equation on the rest. -/
theorem readBit_frame {s t : State} {b : Bool} (h : readBit s = .ok b t) :
    t = { s with value := t.value, bitPos := t.bitPos, symIdx := t.symIdx, drained := t.drained } := by
  rcases readBit_cases s with ⟨_, h'⟩ | ⟨_, _, h'⟩ | ⟨_, _, _, v, _, h'⟩ | ⟨_, _, _, _, h'⟩ | ⟨_, _, _, h'⟩ <;>
    rw [h'] at h <;> cases h <;> rfl

theorem readBit_raised_frame {s t : State} {e : ErrKind} {w : Word} (h : readBit s = .raised e w t) :
    t = { s with value := t.value, bitPos := t.bitPos, symIdx := t.symIdx, drained := t.drained } := by
  rcases readBit_cases s with ⟨_, h'⟩ | ⟨_, _, h'⟩ | ⟨_, _, _, v, _, h'⟩ | ⟨_, _, _, _, h'⟩ | ⟨_, _, _, h'⟩ <;>
    rw [h'] at h <;> cases h <;> rfl

/-- READBIT never stops. -/
theorem readBit_no_stop (s : State) (r : Fault) : readBit s ≠ .stop r := by
  rcases readBit_cases s with ⟨_, h'⟩ | ⟨_, _, h'⟩ | ⟨_, _, _, v, _, h'⟩ | ⟨_, _, _, _, h'⟩ | ⟨_, _, _, h'⟩ <;>
    rw [h'] <;> simp

/-- READBITS changes only the registers of the bit reader. -/
theorem readBitsFrom_frame {n r p v : Nat} {s t : State} (h : readBitsFrom n r p s = .ok v t) :
    t = { s with value := t.value, bitPos := t.bitPos, symIdx := t.symIdx, drained := t.drained } := by
  induction n generalizing r p s with
  | zero => cases h; rfl
  | succ n ih =>
    obtain ⟨b, u, hb, hu⟩ := andThen_eq_ok h
    have h1 := readBit_frame hb
    have h2 := ih hu
    rw [h1] at h2; exact h2

theorem readBitsFrom_raised_frame {n r p : Nat} {e : ErrKind} {w : Word} {s t : State}
    (h : readBitsFrom n r p s = .raised e w t) :
    t = { s with value := t.value, bitPos := t.bitPos, symIdx := t.symIdx, drained := t.drained } := by
  induction n generalizing r p s with
  | zero => cases h
  | succ n ih =>
    rcases andThen_eq_raised h with hb | ⟨b, u, hb, hu⟩
    · exact readBit_raised_frame hb
    · have h1 := readBit_frame hb
      have h2 := ih hu
      rw [h1] at h2; exact h2

theorem readBitsFrom_no_stop (n r p : Nat) (s : State) (f : Fault) : readBitsFrom n r p s ≠ .stop f := by
  induction n generalizing r p s with
  | zero => simp [readBitsFrom]
  | succ n ih =>
    intro h
    rw [readBitsFrom] at h
    cases hb : readBit s with
    | ok b u => rw [hb] at h; exact ih _ _ _ h
    | raised e w u => rw [hb] at h; simp at h
    | stop g => exact readBit_no_stop s g hb

/-- A token that was fetched: a code was read and its class asked for the operand that was read after it. -/
theorem fetchToken_eq_ok {s t : State} {i : Instr} (h : fetchToken s = .ok i t) :
    ∃ c u, readBits s.indexBits.toNat s = .ok c u ∧ readOperand (codeClass (tokenCtx s) c) u = .ok i t :=
  andThen_eq_ok h

/-- Fetching a token changes only the registers of the bit reader. -/
theorem fetchToken_frame {s t : State} {i : Instr} (h : fetchToken s = .ok i t) :
    t = { s with value := t.value, bitPos := t.bitPos, symIdx := t.symIdx, drained := t.drained } := by
  obtain ⟨c, u, hc, ho⟩ := fetchToken_eq_ok h
  have h1 := readBitsFrom_frame hc
  cases hk : codeClass (tokenCtx s) c <;> rw [hk] at ho
  case lit8 =>
    obtain ⟨v, x, hx, hy⟩ := andThen_eq_ok ho
    cases hy; have h2 := readBitsFrom_frame hx; rw [h1] at h2; exact h2
  case lit16 =>
    obtain ⟨v, x, hx, hy⟩ := andThen_eq_ok ho
    cases hy; have h2 := readBitsFrom_frame hx; rw [h1] at h2; exact h2
  all_goals cases ho; exact h1

/-- An error while a token is read leaves all but the registers of the bit reader. -/
theorem fetchToken_raised_frame {s t : State} {e : ErrKind} {w : Word} (h : fetchToken s = .raised e w t) :
    t = { s with value := t.value, bitPos := t.bitPos, symIdx := t.symIdx, drained := t.drained } := by
  rcases andThen_eq_raised h with h | ⟨c, u, hc, ho⟩
  · exact readBitsFrom_raised_frame h
  · have h1 := readBitsFrom_frame hc
    cases hk : codeClass (tokenCtx s) c <;> rw [hk] at ho
    case lit8 =>
      rcases andThen_eq_raised ho with hx | ⟨_, _, _, hx⟩
      · have h2 := readBitsFrom_raised_frame hx; rw [h1] at h2; exact h2
      · cases hx
    case lit16 =>
      rcases andThen_eq_raised ho with hx | ⟨_, _, _, hx⟩
      · have h2 := readBitsFrom_raised_frame hx; rw [h1] at h2; exact h2
      · cases hx
    all_goals cases ho

theorem fetchToken_no_stop (s : State) (f : Fault) : fetchToken s ≠ .stop f := by
  intro h
  rw [fetchToken] at h
  cases hc : readBits s.indexBits.toNat s with
  | stop g => exact readBitsFrom_no_stop _ _ _ _ g hc
  | raised e w u => rw [hc] at h; simp at h
  | ok c u =>
    rw [hc] at h
    simp only [andThen_ok] at h
    cases hk : codeClass (tokenCtx s) c <;> rw [hk] at h <;> simp only [readOperand, readChar8, readChar16] at h
    case lit8 =>
      cases hx : readBits 8 u with
      | stop g => exact readBitsFrom_no_stop _ _ _ _ g hx
      | raised e w u => rw [hx] at h; simp at h
      | ok c u => rw [hx] at h; simp at h
    case lit16 =>
      cases hx : readBits 16 u with
      | stop g => exact readBitsFrom_no_stop _ _ _ _ g hx
      | raised e w u => rw [hx] at h; simp at h
      | ok c u => rw [hx] at h; simp at h
    all_goals simp at h

end Sys2Proof.Machine
end

