-- ==== Sys2Proof/Laws/Graft.lean ====
section
/-! SUPPORT. Two states of one run: the engine's registers of `s` put over the buffers, parameters and host side of
`t`. What the engine does depends on the latter only through IN below N and the three limits (43_driver.md R168). -/

namespace Sys2Proof.Machine

open Sys2Proof

/-- The engine's registers of `s` with everything else from `t`. -/
def graft (s t : State) : State :=
  { s with
    config := t.config, out := t.out, ctrlAlphabet := t.ctrlAlphabet, inLen := t.inLen, input := t.input
    epoch := t.epoch, draws := t.draws, host := t.host, readData := t.readData }

/-- The state of an operation's answer, changed by `f`. -/
def Eff.mapState {α : Type} (f : State → State) : Eff α → Eff α
  | .ok a s => .ok a (f s)
  | .raised e w s => .raised e w (f s)
  | .stop r => .stop r

/-- IN below N is the same. -/
def sameInput (s t : State) : Prop := ∀ i, i < s.n.toNat → inSymbol t i = inSymbol s i

/-- MAX_IN, MAX_DICT and MAX_OUT are the same. -/
def sameLimits (s t : State) : Prop :=
  t.config.maxIn = s.config.maxIn ∧ t.config.maxDict = s.config.maxDict ∧ t.config.maxOut = s.config.maxOut

/-- OUT below OUT_LEN of `s` is the same. -/
def sameOutput (s t : State) : Prop := ∀ i, i < s.outLen.toNat → memGet t.out i = memGet s.out i

/-- `b`, an answer on `graft s t`, follows `a`, the answer on `s`: it stops where `a` stops, and where `a` goes on
it does so in the grafted state, with only OUT of `t` moved. -/
def follows (t : State) (a b : Host.Outcome State Fault Refusal) : Prop :=
  match a with
  | .next u => ∃ o, b = .next (graft u { t with out := o }) ∧ sameOutput u { t with out := o }
  | .fault r => b = .fault r
  | .refused r => b = .refused r

theorem sameInput_of_reader {s u t : State} (h : sameInput s t)
    (hu : u = { s with value := u.value, bitPos := u.bitPos, symIdx := u.symIdx, drained := u.drained }) :
    sameInput u t := by
  intro i hi; rw [hu] at hi ⊢; exact h i hi

theorem refill_graft (b : Bool) (s t : State) (h : sameInput s t) :
    refill b (graft s t) = (refill b s).mapState (graft · t) := by
  unfold refill
  by_cases hn : s.symIdx < s.n
  · have hn' : (graft s t).symIdx < (graft s t).n := hn
    have hi : inSymbol (graft s t) (graft s t).symIdx.toNat = inSymbol s s.symIdx.toNat := h _ hn
    have ha : (graft s t).alpha = s.alpha := rfl
    rw [if_pos hn, if_pos hn', hi, ha]
    cases mapSymbol s.alpha (inSymbol s s.symIdx.toNat) <;> rfl
  · have hn' : ¬ (graft s t).symIdx < (graft s t).n := hn
    rw [if_neg hn, if_neg hn']; rfl

theorem readBit_graft (s t : State) (h : sameInput s t) :
    readBit (graft s t) = (readBit s).mapState (graft · t) := by
  have hg : (graft s t).drained = s.drained := rfl
  unfold readBit
  rw [hg]
  split
  · rfl
  · by_cases hb : (rotate s).bitPos = 0
    · have hb' : (rotate (graft s t)).bitPos = 0 := hb
      rw [if_pos hb, if_pos hb']
      exact refill_graft (currentBit s) (restartBitPos (rotate s)) t h
    · have hb' : ¬ (rotate (graft s t)).bitPos = 0 := hb
      rw [if_neg hb, if_neg hb']; rfl

theorem readBitsFrom_graft (n r p : Nat) (s t : State) (h : sameInput s t) :
    readBitsFrom n r p (graft s t) = (readBitsFrom n r p s).mapState (graft · t) := by
  induction n generalizing r p s with
  | zero => rfl
  | succ n ih =>
    simp only [readBitsFrom, readBit_graft s t h]
    cases hb : readBit s with
    | ok b u => exact ih _ _ _ (sameInput_of_reader h (readBit_frame hb))
    | raised e w u => rfl
    | stop r => rfl

theorem fetchToken_graft (s t : State) (h : sameInput s t) :
    fetchToken (graft s t) = (fetchToken s).mapState (graft · t) := by
  have hi : (graft s t).indexBits = s.indexBits := rfl
  have hc : tokenCtx (graft s t) = tokenCtx s := rfl
  unfold fetchToken readBits
  rw [hi, hc, readBitsFrom_graft _ _ _ s t h]
  cases hb : readBitsFrom s.indexBits.toNat 0 1 s with
  | raised e w u => rfl
  | stop r => rfl
  | ok c u =>
    have hu := sameInput_of_reader h (readBitsFrom_frame hb)
    simp only [Eff.mapState, andThen_ok]
    cases codeClass (tokenCtx s) c <;>
      simp only [readOperand, readChar8, readChar16, readBits, readBitsFrom_graft _ _ _ u t hu, Eff.mapState]
    · cases readBitsFrom 8 0 1 u <;> rfl
    · cases readBitsFrom 16 0 1 u <;> rfl

theorem sameOutput_writeOut {s t : State} (h : sameOutput s t) (tok : Str)
    (ho : s.outLen.toNat + tok.length ≤ s.config.maxOut.toNat) :
    sameOutput (writeOut tok s) { t with out := memPutAll t.out s.outLen.toNat tok } := by
  have hmax := s.config.maxOut.isLt
  have hlen : (writeOut tok s).outLen.toNat = s.outLen.toNat + tok.length := by
    rw [writeOut_outLen, BitVec.toNat_ofNat, Nat.mod_eq_of_lt (by omega)]
  intro i hi
  rw [hlen] at hi
  show memGet (memPutAll t.out s.outLen.toNat tok) i = memGet (memPutAll s.out s.outLen.toNat tok) i
  by_cases hc : i < s.outLen.toNat
  · rw [memGet_memPutAll_outside _ _ _ (.inl hc), memGet_memPutAll_outside _ _ _ (.inl hc)]; exact h i hc
  · obtain ⟨j, rfl⟩ : ∃ j, i = s.outLen.toNat + j := ⟨i - s.outLen.toNat, by omega⟩
    rw [memGet_memPutAll_inside _ _ _ (by omega), memGet_memPutAll_inside _ _ _ (by omega)]

/-- The tail of a LOOP step. -/
theorem finishLoop_follows (tok : Str) (s t : State) (hm : sameLimits s t) (ho : sameOutput s t) :
    follows t (conclude (finishLoop tok s)) (conclude (finishLoop tok (graft s t))) := by
  have hmax : (graft s t).config.maxOut = s.config.maxOut := hm.2.2
  rcases emit_cases tok s with ⟨hx, h1⟩ | ⟨hx, h1⟩
  · have h1' : emit tok (graft s t) = .raised .capacityExceeded 3 (graft s t) := emit_full _ (by rw [hmax]; exact hx)
    rw [finishLoop, finishLoop, h1, h1']
    exact ⟨t.out, rfl, ho⟩
  · have h1' : emit tok (graft s t) =
        .ok () (graft (writeOut tok s) { t with out := memPutAll t.out s.outLen.toNat tok }) :=
      emit_room _ (by rw [hmax]; exact hx)
    have hw := sameOutput_writeOut ho tok hx
    rw [finishLoop, finishLoop, h1, h1']
    cases tok with
    | nil => rfl
    | cons c cs =>
      simp only [andThen_ok, firstChar_cons]
      generalize hu : writeOut (c :: cs) s = u at hw
      generalize hv : ({ t with out := memPutAll t.out s.outLen.toNat (c :: cs) } : State) = v at hw
      have hd : (graft u v).config.maxDict = u.config.maxDict := by rw [← hu, ← hv]; exact hm.2.1
      rcases append_cases (u.last ++ [c]) u with ⟨hc, h2⟩ | ⟨hc, h2⟩
      · have h2' : append ((graft u v).last ++ [c]) (graft u v) = _ := append_full _ (by rw [hd]; exact hc)
        rw [h2, h2']
        exact ⟨v.out, by rw [← hv]; rfl, hv ▸ hw⟩
      · have h2' : append ((graft u v).last ++ [c]) (graft u v) = _ := append_room _ (by rw [hd]; exact hc)
        rw [h2, h2']
        exact ⟨v.out, by rw [← hv]; rfl, hv ▸ hw⟩

/-- A literal. -/
theorem literal_follows (ch : Char16) (s t : State) (hm : sameLimits s t) (ho : sameOutput s t) :
    follows t (literal ch s) (literal ch (graft s t)) := by
  have hp' : (graft s t).phase = s.phase := rfl
  have hdict : (graft s t).config.maxDict = s.config.maxDict := hm.2.1
  have hmax : (pushEntry [ch] (graft s t)).config.maxOut = s.config.maxOut := hm.2.2
  rw [literal, literal, hp']
  cases hp : s.phase <;> simp only <;> try rfl
  · by_cases hd : s.dictLen = s.config.maxDict
    · have hd' : (graft s t).dictLen = (graft s t).config.maxDict := by rw [hdict]; exact hd
      simp only [seedAppend, hd, hd', if_true, andThen_raised, conclude_raised]
      exact ⟨t.out, rfl, ho⟩
    · have hd' : (graft s t).dictLen ≠ (graft s t).config.maxDict := by rw [hdict]; exact hd
      rw [seedAppend_room _ hd, seedAppend_room _ hd']
      simp only [andThen_ok, finishFirst]
      rcases emit_cases [ch] (pushEntry [ch] s) with ⟨hx, h1⟩ | ⟨hx, h1⟩
      · have h1' : emit [ch] (pushEntry [ch] (graft s t)) = _ := emit_full _ (by rw [hmax]; exact hx)
        rw [h1, h1']; exact ⟨t.out, rfl, ho⟩
      · have h1' : emit [ch] (pushEntry [ch] (graft s t)) = _ := emit_room _ (by rw [hmax]; exact hx)
        rw [h1, h1']; exact ⟨_, rfl, sameOutput_writeOut (s := pushEntry [ch] s) ho [ch] hx⟩
  · rcases append_cases [ch] s with ⟨hd, h2⟩ | ⟨hd, h2⟩
    · have h2' : append [ch] (graft s t) = _ := append_full _ (by rw [hdict]; exact hd)
      rw [h2, h2']; exact ⟨t.out, rfl, ho⟩
    · have h2' : append [ch] (graft s t) = _ := append_room _ (by rw [hdict]; exact hd)
      rw [h2, h2']
      exact finishLoop_follows [ch] (countEntry (pushEntry [ch] s)) t hm ho

theorem lookupEntry_graft (k : Nat) (s t : State) :
    lookupEntry k (graft s t) = (lookupEntry k s).mapState (graft · t) := by
  have hd : (graft s t).dict = s.dict := rfl
  unfold lookupEntry
  rw [hd]
  cases memGet s.dict k <;> rfl

/-- Every token. -/
theorem exec_follows (i : Instr) (s t : State) (hm : sameLimits s t) (ho : sameOutput s t) :
    follows t (exec i s) (exec i (graft s t)) := by
  have hp' : (graft s t).phase = s.phase := rfl
  have hd' : (graft s t).dictLen = s.dictLen := rfl
  have hl' : (graft s t).last = s.last := rfl
  cases i with
  | lit8 ch => exact literal_follows _ s t hm ho
  | lit16 ch => exact literal_follows _ s t hm ho
  | endMark =>
    simp only [exec, execEndMark, hp']
    cases s.phase <;> first | rfl | exact ⟨t.out, rfl, ho⟩
  | ref k =>
    simp only [exec, execRef, hp', hd', lookupEntry_graft]
    cases s.phase <;> simp only <;> try rfl
    split
    · unfold lookupEntry
      cases memGet s.dict k with
      | none => rfl
      | some tok => exact finishLoop_follows tok s t hm ho
    · rfl
  | selfRef =>
    simp only [exec, execSelfRef, hp', hd', hl']
    cases s.phase <;> simp only <;> first | rfl | exact ⟨t.out, rfl, ho⟩ | skip
    cases s.last with
    | nil => rfl
    | cons c cs => exact finishLoop_follows _ s t hm ho
  | badLoop c =>
    simp only [exec, execBadLoop, hp', hd']
    cases s.phase <;> simp only <;> first | rfl | (split <;> first | rfl | exact ⟨t.out, rfl, ho⟩)
  | badFirst =>
    simp only [exec, execBadFirst, hp']
    cases s.phase <;> first | rfl | exact ⟨t.out, rfl, ho⟩

/-- Fetching a token and running it. -/
theorem tokenStep_follows (s t : State) (hi : sameInput s t) (hm : sameLimits s t) (ho : sameOutput s t) :
    follows t (tokenStep s) (tokenStep (graft s t)) := by
  unfold tokenStep
  rw [fetchToken_graft s t hi]
  cases hf : fetchToken s with
  | ok i u =>
    have hu := fetchToken_frame hf
    exact exec_follows i u t (by rw [hu]; exact hm) (by rw [hu]; exact ho)
  | raised e w u =>
    have hu := fetchToken_raised_frame hf
    exact ⟨t.out, rfl, by rw [hu]; exact ho⟩
  | stop r => rfl

end Sys2Proof.Machine
end

