-- ==== Sys2Proof/Laws/PerInstr.lean ====
section
/-! SUPPORT. The statements made per token of the opcode table. -/

namespace Sys2Proof.Laws.CodeFits

open Sys2Proof

/-- The code of a well-formed token can be written in W bits (30_encoding.md R77, R78). -/
def Statement (i : Instr) : Prop :=
  ∀ x : TokenCtx, x.legal → i.wellFormed x = true → codeOf x i < 2 ^ x.width

/-- W is at least 2 in every legal context (40_bit_reader.md R105). -/
theorem two_le_width {x : TokenCtx} (h : x.legal) : 2 ≤ x.width := by
  rcases h with ⟨_, h, _⟩ | ⟨_, h4, h⟩
  · omega
  · rw [h]
    by_contra hlt
    have h1 := lt_two_pow_bitlength x.dictLen
    have h2 : 2 ^ bitlength x.dictLen ≤ 2 ^ 1 := Nat.pow_le_pow_right (by omega) (by omega)
    omega

theorem four_le_pow {x : TokenCtx} (h : x.legal) : 4 ≤ 2 ^ x.width :=
  Nat.pow_le_pow_right (n := 2) (by omega) (two_le_width h)

/-- DICTLEN itself is writable in W bits in LOOP (30_encoding.md R78). -/
theorem dictLen_lt {x : TokenCtx} (h : x.legal) : x.dictLen < 2 ^ x.width := by
  rcases h with ⟨_, h2, h3⟩ | ⟨_, _, h⟩
  · rw [h2, h3]; decide
  · rw [h]; exact lt_two_pow_bitlength _

theorem lit8 (ch : BitVec 8) : Statement (.lit8 ch) := fun _ h _ => by
  have := four_le_pow h; simp only [codeOf]; omega

theorem lit16 (ch : BitVec 16) : Statement (.lit16 ch) := fun _ h _ => by
  have := four_le_pow h; simp only [codeOf]; omega

theorem endMark : Statement .endMark := fun _ h _ => by
  have := four_le_pow h; simp only [codeOf]; omega

theorem ref (k : Nat) : Statement (.ref k) := fun x h hw => by
  have := dictLen_lt h
  simp only [Instr.wellFormed, Bool.and_eq_true, decide_eq_true_eq] at hw
  simp only [codeOf]; omega

theorem selfRef : Statement .selfRef := fun _ h _ => dictLen_lt h

theorem badLoop (c : Nat) : Statement (.badLoop c) := fun _ _ hw => by
  simp only [Instr.wellFormed, Bool.and_eq_true, decide_eq_true_eq] at hw
  exact hw.2

theorem badFirst : Statement .badFirst := fun _ h _ => by
  have := four_le_pow h; simp only [codeOf]; omega

end Sys2Proof.Laws.CodeFits
end

