-- ==== Sys2Proof/Laws/Reader.lean ====
section
/-! SUPPORT. The bit reader's registers against the bits that lie ahead of the cursor. -/

namespace Sys2Proof.Machine

open Sys2Proof

/-- The mapped bits from the cursor on. -/
def restBits (s : State) := aheadBits s ++ mappedBits s.alpha (aheadSymbols s)

/-- The index of the first unmapped symbol that is still to be fetched. -/
def restUnmapped (s : State) := firstUnmapped s.alpha s.symIdx.toNat (aheadSymbols s)

theorem sameButReader_refl (s) : sameButReader s s := rfl

theorem sameButReader_trans {s t u} (h : sameButReader s t) (h' : sameButReader t u) : sameButReader s u := by
  unfold sameButReader at *; rw [h] at h'; exact h'

/-- Reading a bit that is not the last of VALUE, on the bits ahead (40_bit_reader.md R101). -/
theorem drop_shift : ∀ (v : BitVec 7) (b : BitVec 6), (b = 2 ∨ b = 4 ∨ b = 8 ∨ b = 16 ∨ b = 32) →
   b >>> 1 ≠ 0 ∧ (symbolBits v).drop (5 - Nat.log2 b.toNat) = ((v &&& b.setWidth 7) != 0) :: (symbolBits v).drop (5 - Nat.log2 (b >>> 1).toNat) ∧ (symbolBits v).drop (5 - Nat.log2 (b >>> 1).toNat) ≠ [] := by
  intro v b hb
  rcases hb with rfl | rfl | rfl | rfl | rfl <;> revert v <;> decide

/-- The last bit of VALUE. -/
theorem drop_last_bit : ∀ (v : BitVec 7), (1:BitVec 6) >>> 1 = 0 ∧ (symbolBits v).drop (5 - Nat.log2 (1:BitVec 6).toNat) = [((v &&& (1:BitVec 6).setWidth 7) != 0)] := by decide

theorem drop_none : ∀ v : BitVec 7, (symbolBits v).drop (5 - Nat.log2 (32:BitVec 6).toNat) = symbolBits v := by decide

theorem oneHot_cases {b : BitVec 6} (h : oneHot b) : b = 1 ∨ (b = 2 ∨ b = 4 ∨ b = 8 ∨ b = 16 ∨ b = 32) := h

theorem aheadSymbols_cons {s : State} (h : s.symIdx < s.n) : aheadSymbols s = inSymbol s s.symIdx.toNat :: (List.range' (s.symIdx.toNat+1) (s.n.toNat - (s.symIdx.toNat+1))).map (inSymbol s) := by
  have h' : s.symIdx.toNat < s.n.toNat := h
  unfold aheadSymbols
  rw [show s.n.toNat - s.symIdx.toNat = (s.n.toNat - (s.symIdx.toNat+1)) + 1 by omega, List.range'_succ]; rfl

theorem aheadSymbols_nil {s : State} (h : ¬ s.symIdx < s.n) : aheadSymbols s = [] := by
  have h' : ¬ s.symIdx.toNat < s.n.toNat := h
  unfold aheadSymbols
  rw [show s.n.toNat - s.symIdx.toNat = 0 by omega]; rfl

theorem restBits_of_drained {s : State} (h : ReaderOk s) (hd : s.drained = true) : restBits s = [] ∧ restUnmapped s = none := by
  have : ¬ s.symIdx < s.n := by rw [(h.drained hd).1]; simp
  simp [restBits, restUnmapped, aheadBits, hd, aheadSymbols_nil this, mappedBits, firstUnmapped]

/-- Everything READBIT answers while DRAINED = 0, in terms of the bits ahead (40_bit_reader.md R101 to R104). -/
theorem readBit_restBits (s : State) (h : ReaderOk s) (hd : s.drained = false) : ∃ b L, restBits s = b :: L ∧
   ((∃ t, readBit s = .ok b t ∧ sameButReader s t ∧ ReaderOk t ∧ restBits t = L ∧ restUnmapped t = restUnmapped s ∧ consumed t = consumed s + 1) ∨
    (∃ t, L = [] ∧ restUnmapped s = some s.symIdx.toNat ∧ readBit s = .raised .illegalCharacter s.symIdx t ∧ sameButReader s t)) := by
  rcases oneHot_cases h.bitPos with h1 | h1
  · have hsh : s.bitPos >>> 1 = 0 := by rw [h1]; decide
    have ha : aheadBits s = [currentBit s] := by
      simp only [aheadBits, hd, h1, currentBit]; simpa using (drop_last_bit s.value).2
    refine ⟨currentBit s, mappedBits s.alpha (aheadSymbols s), by simp [restBits, ha], ?_⟩
    rcases readBit_cases s with ⟨hx, _⟩ | ⟨_, hx, _⟩ | ⟨_, _, hn, v, hv, h'⟩ | ⟨_, _, hn, hv, h'⟩ | ⟨_, _, hn, h'⟩
    · simp [hd] at hx
    · exact absurd hsh hx
    · left
      have hn' : s.symIdx.toNat < s.n.toNat := hn
      have hsi : (s.symIdx + 1).toNat = s.symIdx.toNat + 1 := by have := s.n.isLt; bv_omega
      have hin : ∀ i, inSymbol (loadSymbol v (restartBitPos (rotate s))) i = inSymbol s i := fun _ => rfl
      have has : aheadSymbols (loadSymbol v (restartBitPos (rotate s))) = (List.range' (s.symIdx.toNat+1) (s.n.toNat - (s.symIdx.toNat+1))).map (inSymbol s) := by
        simp only [aheadSymbols, loadSymbol_symIdx, loadSymbol_n, restartBitPos_symIdx, restartBitPos_n, rotate_symIdx, rotate_n, hsi]; rfl
      have hbs : aheadBits (loadSymbol v (restartBitPos (rotate s))) = symbolBits v := by
        simp only [aheadBits, loadSymbol_drained, restartBitPos_drained, rotate_drained, hd, loadSymbol_value, loadSymbol_bitPos, restartBitPos_bitPos]
        simpa using drop_none v
      refine ⟨_, h', rfl, ⟨?_, ?_, ?_, ?_, ?_⟩, ?_, ?_, ?_⟩
      · simp [oneHot]
      · have : (loadSymbol v (restartBitPos (rotate s))).symIdx.toNat = s.symIdx.toNat + 1 := hsi
        omega
      · simp only [loadSymbol_symIdx, loadSymbol_n, restartBitPos_symIdx, restartBitPos_n, rotate_symIdx, rotate_n, hsi]; omega
      · simp only [loadSymbol_symIdx, restartBitPos_symIdx, rotate_symIdx, hsi]; simp [hin]; exact hv
      · simp [hd]
      · simp only [restBits, hbs, has, aheadSymbols_cons hn, mappedBits, hv]; simp
      · have hq : (loadSymbol v (restartBitPos (rotate s))).symIdx.toNat = s.symIdx.toNat + 1 := hsi
        simp only [restUnmapped, has, aheadSymbols_cons hn, firstUnmapped, hv, hq]; rfl
      · simp [consumed, hd, h1]
        have := h.symIdx_pos
        have h5 : Nat.log2 32 = 5 := by decide
        have h0 : Nat.log2 1 = 0 := by decide
        have hsi2 : (s.symIdx + 1#32).toNat = s.symIdx.toNat + 1 := hsi
        rw [h5, h0]; omega
    · right
      refine ⟨_, ?_, ?_, h', rfl⟩
      · rw [aheadSymbols_cons hn]; simp [mappedBits, hv]
      · simp [restUnmapped, aheadSymbols_cons hn, firstUnmapped, hv]
    · left
      have hn' : ¬ s.symIdx.toNat < s.n.toNat := hn
      have he : s.symIdx = s.n := BitVec.eq_of_toNat_eq (by have := h.symIdx_le; omega)
      have hin : ∀ i, inSymbol (drain (restartBitPos (rotate s))) i = inSymbol s i := fun _ => rfl
      refine ⟨_, h', rfl, ⟨?_, ?_, ?_, ?_, ?_⟩, ?_, ?_, ?_⟩
      · simp [oneHot]
      · simpa using h.symIdx_pos
      · simpa using h.symIdx_le
      · simp [hin]; exact h.value
      · simp [he]
      · rw [aheadSymbols_nil hn]
        have : aheadSymbols (drain (restartBitPos (rotate s))) = [] := aheadSymbols_nil hn
        simp [restBits, this, aheadBits, mappedBits]
      · have : aheadSymbols (drain (restartBitPos (rotate s))) = [] := aheadSymbols_nil hn
        simp [restUnmapped, this, aheadSymbols_nil hn, firstUnmapped]
      · simp [consumed, hd, h1, he]
        have := h.symIdx_pos
        have h0 : Nat.log2 1 = 0 := by decide
        rw [h0]; rw [he] at this; omega
  · obtain ⟨a, b, c⟩ := drop_shift s.value s.bitPos h1
    rcases readBit_cases s with ⟨hx, _⟩ | ⟨_, hx, h'⟩ | ⟨_, hx, _⟩ | ⟨_, hx, _⟩ | ⟨_, hx, _⟩
    · simp [hd] at hx
    · refine ⟨currentBit s, _, ?_, .inl ⟨rotate s, h', rfl, ⟨?_, ?_, ?_, ?_, ?_⟩, rfl, rfl, ?_⟩⟩
      · have : aheadBits s = currentBit s :: aheadBits (rotate s) := by
          simp only [aheadBits, rotate_drained, hd, rotate_bitPos, rotate_value, currentBit]; simpa using b
        simp only [restBits, this]; rfl
      · rcases h1 with h1 | h1 | h1 | h1 | h1 <;> simp [oneHot, h1]
      · exact h.symIdx_pos
      · exact h.symIdx_le
      · exact h.value
      · simp [hd]
      · have := h.symIdx_pos
        have e : ∀ b : BitVec 6, (b = 2 ∨ b = 4 ∨ b = 8 ∨ b = 16 ∨ b = 32) → Nat.log2 b.toNat = Nat.log2 (b >>> 1).toNat + 1 ∧ Nat.log2 b.toNat ≤ 5 := by
          intro b hb; rcases hb with rfl | rfl | rfl | rfl | rfl <;> decide
        have e' := e _ h1
        simp only [consumed, rotate_drained, hd, rotate_symIdx, rotate_bitPos]
        simp only [Bool.false_eq_true, if_false]
        omega
    · exact absurd hx a
    · exact absurd hx a
    · exact absurd hx a

/-- Everything READBITS answers, in terms of the field at the head of the bits ahead (40_bit_reader.md R105, R106, R108). -/
theorem readBitsFrom_restBits (n r p : Nat) (s : State) (h : ReaderOk s) :
   (∀ v rest, takeField n (restBits s) = some (v, rest) → (rest ≠ [] ∨ restUnmapped s = none) →
      ∃ t, readBitsFrom n r p s = .ok (r + v * p) t ∧ sameButReader s t ∧ ReaderOk t ∧ restBits t = rest ∧ restUnmapped t = restUnmapped s ∧ consumed t = consumed s + n) ∧
   (∀ v k, takeField n (restBits s) = some (v, []) → restUnmapped s = some k → ∃ t, readBitsFrom n r p s = .raised .illegalCharacter (BitVec.ofNat 32 k) t ∧ sameButReader s t) ∧
   (∀ k, takeField n (restBits s) = none → restUnmapped s = some k → ∃ t, readBitsFrom n r p s = .raised .illegalCharacter (BitVec.ofNat 32 k) t ∧ sameButReader s t) ∧
   (takeField n (restBits s) = none → restUnmapped s = none → ∃ t, readBitsFrom n r p s = .raised .unexpectedEndOfBuffer 0 t ∧ sameButReader s t) := by
  have hdr : restBits s = [] → s.drained = true := by
    intro he; by_contra hd
    obtain ⟨b, L, hb, _⟩ := readBit_restBits s h (by simpa using hd)
    rw [hb] at he; cases he
  induction n generalizing r p s with
  | zero =>
    simp only [takeField, readBitsFrom]
    refine ⟨?_, ?_, by simp, by simp⟩
    · intro v rest hv _; cases hv; exact ⟨s, by simp, rfl, h, rfl, rfl, rfl⟩
    · intro v k hv hk
      simp at hv
      have := restBits_of_drained h (hdr hv.2); rw [this.2] at hk; cases hk
  | succ n ih =>
    cases hd : s.drained with
    | true =>
      obtain ⟨h1, h2⟩ := restBits_of_drained h hd
      rw [h1, h2]; simp only [takeField]
      refine ⟨by simp, by simp, by simp, fun _ _ => ⟨s, by simp [readBitsFrom, readBit, hd], rfl⟩⟩
    | false =>
      obtain ⟨b, L, hb, ⟨t, ht, hs, hr, hL, hu, hc⟩ | ⟨t, hL, hu, ht, hs⟩⟩ := readBit_restBits s h hd
      · have hdr' : restBits t = [] → t.drained = true := by
          intro he; by_contra hd
          obtain ⟨b, L, hb, _⟩ := readBit_restBits t hr (by simpa using hd)
          rw [hb] at he; cases he
        obtain ⟨i1, i2, i3, i4⟩ := ih (r + b.toNat * p) (p*2) t hr hdr'
        rw [hL, hu] at *
        simp only [readBitsFrom, ht, andThen_ok, hb, takeField]
        cases hf : takeField n L with
        | none =>
          simp only [hf] at *
          refine ⟨by simp, by simp, fun k _ hk => ?_, fun _ hk => ?_⟩
          · obtain ⟨u, a, b⟩ := i3 k trivial hk; exact ⟨u, a, sameButReader_trans hs b⟩
          · obtain ⟨u, a, b⟩ := i4 trivial hk; exact ⟨u, a, sameButReader_trans hs b⟩
        | some q =>
          obtain ⟨v, rest⟩ := q
          simp only [hf] at *
          refine ⟨fun v' rest' he hh => ?_, fun v' k he hk => ?_, by simp, by simp⟩
          · cases he
            obtain ⟨u, a, b', c, d, e, f⟩ := i1 v rest rfl hh
            refine ⟨u, ?_, sameButReader_trans hs b', c, d, e, by omega⟩
            rw [a]; congr 1; ring
          · cases he
            obtain ⟨u, a, b⟩ := i2 v k rfl hk; exact ⟨u, a, sameButReader_trans hs b⟩
      · subst hL
        rw [hb, hu]; simp only [takeField, readBitsFrom, ht, andThen_raised]
        have hx : BitVec.ofNat 32 s.symIdx.toNat = s.symIdx := by simp
        cases n with
        | zero => simp only [takeField]; refine ⟨by simp, fun v k _ hk => ?_, by simp, by simp⟩
                  cases hk; exact ⟨t, by rw [hx], hs⟩
        | succ n => simp only [takeField]; refine ⟨by simp, by simp, fun k _ hk => ?_, by simp⟩
                    cases hk; exact ⟨t, by rw [hx], hs⟩

end Sys2Proof.Machine
end

