-- ==== Sys2Proof/Laws/Run.lean ====
section
/-! SUPPORT. The width invariant over an append, the tail of a LOOP step, and runs of several steps. -/

namespace Sys2Proof.Machine

open Sys2Proof

/-- The arithmetic of R127. -/
theorem width_arith {d e ib : Nat} (h4 : 4 ≤ d) (hb : ib = bitlength d) (he : e + d = 2^ib) : 1 ≤ e ∧ e ≤ 2^(ib-1) ∧ (e = 1 → bitlength (d+1) = ib+1 ∧ d + 1 = 2^ib) ∧ (e ≠ 1 → bitlength (d+1) = ib) := by
  obtain ⟨k, rfl⟩ : ∃ k, ib = k+1 := ⟨ib-1, by
    have := lt_two_pow_bitlength d
    rcases Nat.eq_zero_or_pos ib with h | h
    · rw [← hb, h] at this; omega
    · omega⟩
  have h1 := (bitlength_eq_iff (by omega : d ≠ 0)).1 hb.symm
  have hp : 2^(k+1) = 2*2^k := by rw [Nat.pow_succ]; omega
  have hp2 : 2^(k+1+1) = 2*2^(k+1) := by rw [Nat.pow_succ]; omega
  refine ⟨by omega, by simp; omega, fun h => ⟨(bitlength_eq_iff (by omega)).2 (by omega), by omega⟩, fun h => (bitlength_eq_iff (by omega)).2 (by omega)⟩

/-- A counted append keeps the width invariant (41_dictionary.md R127). -/
theorem countEntry_widthOk (s : State) (str : Str) (h4 : 4 ≤ s.dictLen.toNat) (hlt : s.dictLen.toNat < 2^32-1) (hw : widthOk s) :
   widthOk (countEntry (pushEntry str s)) ∧ (countEntry (pushEntry str s)).dictLen.toNat = s.dictLen.toNat + 1 := by
  obtain ⟨h1, h2⟩ := hw
  obtain ⟨a, b, c, d⟩ := width_arith h4 h1 h2
  have hib : s.indexBits.toNat ≤ 32 := by
    by_contra hc
    have : 2^33 ≤ 2^s.indexBits.toNat := Nat.pow_le_pow_right (by omega) (by omega)
    have := s.eug.isLt
    omega
  have hd1 : (s.dictLen + 1).toNat = s.dictLen.toNat + 1 := by bv_omega
  refine ⟨?_, by simpa using hd1⟩
  by_cases he : s.eug.toNat = 1
  · have e0 : s.eug - 1 = 0 := by bv_omega
    obtain ⟨c1, c2⟩ := c he
    have hib' : s.indexBits.toNat ≤ 31 := by
      by_contra hc
      have : 2^32 ≤ 2^s.indexBits.toNat := Nat.pow_le_pow_right (by omega) (by omega)
      omega
    have hpl : 2^s.indexBits.toNat < 2^32 := Nat.pow_lt_pow_right (by omega) (by omega)
    have i1 : (s.indexBits + 1).toNat = s.indexBits.toNat + 1 := by bv_omega
    constructor
    · simp only [countEntry_indexBits, countEntry_dictLen, pushEntry_dictLen, pushEntry_eug, pushEntry_indexBits, e0, if_true, hd1, i1, c1]
    · simp only [countEntry_indexBits, countEntry_eug, countEntry_dictLen, pushEntry_dictLen, pushEntry_eug, pushEntry_indexBits, e0, if_true, hd1, i1, c2, BitVec.toNat_ofNat, Nat.mod_eq_of_lt hpl]
      rw [Nat.pow_succ]; omega
  · have e0 : ¬ (s.eug - 1 = 0) := by intro h; apply he; bv_omega
    have e1 : (s.eug - 1).toNat = s.eug.toNat - 1 := by bv_omega
    have x1 : (countEntry (pushEntry str s)).indexBits = s.indexBits := if_neg e0
    have x2 : (countEntry (pushEntry str s)).eug = s.eug - 1 := if_neg e0
    constructor
    · rw [x1, countEntry_dictLen, pushEntry_dictLen, hd1, d he]
    · rw [x1, x2, countEntry_dictLen, pushEntry_dictLen, hd1, e1]
      omega

/-- Everything the tail of a LOOP step can answer (43_driver.md R165). -/
theorem finishLoop_cases (tok : Str) (s : State) :
   (finishLoop tok s = .raised .capacityExceeded 3 s) ∨ (finishLoop tok s = .stop .firstCharOfEmpty) ∨
   (finishLoop tok s = .raised .capacityExceeded 2 (writeOut tok s)) ∨
   (∃ c cs, tok = c::cs ∧ s.dictLen ≠ s.config.maxDict ∧ s.outLen.toNat + tok.length ≤ s.config.maxOut.toNat ∧ finishLoop tok s = .ok () (setLast tok (countEntry (pushEntry (s.last ++ [c]) (writeOut tok s))))) := by
  rcases emit_cases tok s with ⟨_, h⟩ | ⟨ho, h⟩
  · left; simp [finishLoop, h]
  · cases tok with
    | nil => right; left; simp [finishLoop, h]
    | cons c cs =>
      rcases append_cases (s.last ++ [c]) (writeOut (c::cs) s) with ⟨hd, h'⟩ | ⟨hd, h'⟩
      · right; right; left; simp [finishLoop, h, h']
      · right; right; right; exact ⟨c, cs, rfl, hd, ho, by simp [finishLoop, h, h']⟩

/-- A run of the interface, one step off it. -/
theorem run_of_step (M : Host.Core) (k : Nat) (s t : M.State) (h : M.step s = .next t) :
    Host.Core.run M (k + 1) s = Host.Core.run M k t := by
  simp only [Host.Core.run, h]

/-- The same for this machine. -/
theorem run_core_of_step (k : Nat) (s t : State) (h : step s = .next t) :
    Host.Core.run core (k + 1) s = Host.Core.run core k t := run_of_step core k s t h

/-- With an empty script a step is the engine's. -/
theorem step_of_no_script {s : State} (h : s.host = []) : step s = engineStep s := by
  simp [step, scheduledMove, h]

end Sys2Proof.Machine
end

