-- ==== Sys2Proof/Tests/Slice0.lean ====
section
/-! SUPPORT. The model's own tests: expected values are the spec's (95_test_vectors.md, by vector), or worked by
hand from the rule named; and for each obligation with hypotheses a concrete state that meets them all. -/

set_option maxRecDepth 20000

namespace Sys2Proof.Tests

open Sys2Proof Sys2Proof.Machine

/-! ## Helpers -/

/-- Symbols from code units. -/
def syms (l : List Nat) : List Symbol := l.map (BitVec.ofNat 8)

/-- "IZA", "IbI", "Aco", "C4e1Q", "jUEQ", "Iag", "Q", "w", "IYIy". -/
def sIZA : List Symbol := syms [0x49, 0x5A, 0x41]
def sIbI : List Symbol := syms [0x49, 0x62, 0x49]
def sAco : List Symbol := syms [0x41, 0x63, 0x6F]
def sC4e1Q : List Symbol := syms [0x43, 0x34, 0x65, 0x31, 0x51]
def sJUEQ : List Symbol := syms [0x6A, 0x55, 0x45, 0x51]
def sIag : List Symbol := syms [0x49, 0x61, 0x67]
def sQ : List Symbol := syms [0x51]
def sW : List Symbol := syms [0x77]
def sIYIy : List Symbol := syms [0x49, 0x59, 0x49, 0x79]

/-- A small machine: MAX_IN = 8, MAX_DICT = `d`, MAX_OUT = `o`. -/
def small (d o : Word) : Config := { maxIn := 8, maxDict := d, maxOut := o, outByteOrder := .little }

def wide : Config := small 100 100

/-- After START with `l` in IN. -/
def started (c : Config) (l : List Symbol) : State :=
  { State.reset with
    config := c, inLen := BitVec.ofNat 32 l.length, input := memPutAll [] 0 l, phase := .init }

/-- After INIT with `l` in IN: S0 of 95_test_vectors.md. -/
def atFirst (c : Config) (l : List Symbol) : State :=
  seedRun ((mapSymbol .uriSafe (l.headD 0)).getD 0) (latchRun (started c l))

/-- After the first token, `LIT8 ch @2`: the cursor is at bit 10. -/
def afterLit8 (c : Config) (l : List Symbol) (ch : Char16) : State :=
  { atFirst c l with
    value := (mapSymbol .uriSafe (l.getD 1 0)).getD 0, bitPos := 2, symIdx := 2, indexBits := 3, dictLen := 4
    dict := [(3, [ch])], last := [ch], out := [(0, ch)], outLen := 1, phase := .loop }

def first : State := atFirst wide sIZA
def loop : State := afterLit8 wide sIZA 97
def ended : State := endRun loop

/-- `s` with one move in the script. -/
def withMove (m : HostMove) (s : State) : State := { s with host := [m] }

def nextOf (o : Host.Outcome State Fault Refusal) : Option State :=
  match o with
  | .next t => some t
  | .fault _ => none
  | .refused _ => none

/-- What the tests look at after a token. -/
structure View where
  phase : Phase
  dictLen : Word
  eug : Word
  indexBits : BitVec 6
  dict : Memory Str
  last : Str
  out : Memory Char16
  deriving DecidableEq, Repr

def view (o : Host.Outcome State Fault Refusal) : Option View :=
  (nextOf o).map fun t => ⟨t.phase, t.dictLen, t.eug, t.indexBits, t.dict, t.last, t.out⟩

/-- PHASE, ERR, ERR_INFO after a step. -/
def verdict (o : Host.Outcome State Fault Refusal) : Option (Phase × ErrKind × Word) :=
  (nextOf o).map fun t => (t.phase, t.err, t.errInfo)

/-- The bit reader's registers after a step. -/
def cursorOf (o : Host.Outcome State Fault Refusal) : Option (BitVec 7 × BitVec 6 × Word × Bool) :=
  (nextOf o).map fun t => (t.value, t.bitPos, t.symIdx, t.drained)

def told (o : Host.Outcome State Fault Refusal) : Option Word := (nextOf o).map fun t => t.readData

/-! ## WellFormed refuses ill-formed terms (30_encoding.md R78) -/

theorem test_wf_ref_below_three : (Instr.ref 2).wellFormed (.atLoop 6) = false := by decide
theorem test_wf_ref_at_dictLen : (Instr.ref 6).wellFormed (.atLoop 6) = false := by decide
theorem test_wf_ref_in_first : (Instr.ref 3).wellFormed .atFirst = false := by decide
theorem test_wf_self_in_first : Instr.selfRef.wellFormed .atFirst = false := by decide
theorem test_wf_badLoop_at_dictLen : (Instr.badLoop 6).wellFormed (.atLoop 6) = false := by decide
theorem test_wf_badLoop_too_wide : (Instr.badLoop 8).wellFormed (.atLoop 6) = false := by decide
theorem test_wf_badLoop_in_first : (Instr.badLoop 4).wellFormed .atFirst = false := by decide
theorem test_wf_badFirst_in_loop : Instr.badFirst.wellFormed (.atLoop 6) = false := by decide
theorem test_ctx_wrong_width : ¬ (TokenCtx.mk false 4 6).legal := by decide
theorem test_ctx_first_with_entries : ¬ (TokenCtx.mk true 2 4).legal := by decide
theorem test_config_maxDict_three : ¬ (small 3 1).wf := by decide

/-! ## The mapper (V-MAP-1 to V-MAP-15) -/

theorem test_map_uriSafe :
    (syms [0x41, 0x5A, 0x61, 0x7A, 0x30, 0x39, 0x2B, 0x2D, 0x2F, 0x24, 0x3D, 0x20, 0x21, 0x00, 0xE9, 0xFF]).map
        (mapSymbol .uriSafe)
      = [some 0, some 25, some 26, some 51, some 52, some 61, some 62, some 63, none, some 64, none, none, none,
          none, none, none] := by decide

theorem test_map_base64 :
    (syms [0x41, 0x5A, 0x61, 0x7A, 0x30, 0x39, 0x2B, 0x2D, 0x2F, 0x24, 0x3D, 0x2E, 0x5F, 0x7E, 0x7F]).map
        (mapSymbol .base64)
      = [some 0, some 25, some 26, some 51, some 52, some 61, some 62, none, some 63, none, some 64, none, none,
          none, none] := by decide

/-! ## Decoding words of the spec, symbol by symbol -/

/-- V-L1-1: LIT8 97 @2, two bits of `Z` left. -/
theorem test_decode_lit8 : decodeSymbols .uriSafe .atFirst (sIZA.take 2) = .token (.lit8 97) [false, true] := by decide
/-- V-TK-4: LIT16 8364 @2, then the last six bits of 24 but for END's. -/
theorem test_decode_lit16 :
    decodeSymbols .uriSafe .atFirst sJUEQ
      = .token (.lit16 0x20AC) [false, true, false, false, false, false] := by decide
/-- V-BR-2: END @2. -/
theorem test_decode_end :
    decodeSymbols .uriSafe .atFirst sQ = .token .endMark [false, false, false, false] := by decide
/-- V-L1-7: REF 5 is 1 0 1 at W = 3, DICTLEN = 6. -/
theorem test_decode_ref : decodeBits (.atLoop 6) [true, false, true, false] = some (.ref 5, [false]) := by decide
/-- V-L1-5: SELF is 0 0 1 at W = 3, DICTLEN = 4. -/
theorem test_decode_self : decodeBits (.atLoop 4) [false, false, true, false] = some (.selfRef, [false]) := by decide
/-- V-TK-20: code 7 is 1 1 1 at W = 3, DICTLEN = 6. -/
theorem test_decode_badLoop : decodeBits (.atLoop 6) [true, true, true] = some (.badLoop 7, []) := by decide
/-- V-TK-21: `w` = 110000. -/
theorem test_decode_badFirst :
    decodeSymbols .uriSafe .atFirst sW = .token .badFirst [false, false, false, false] := by decide
/-- V-ER-8: `I` ends inside the first token. -/
theorem test_decode_short : decodeSymbols .uriSafe .atFirst (sIZA.take 1) = .endOfBuffer := by decide
/-- V-MX-6: `/` is fetched and is unmapped. -/
theorem test_decode_unmapped :
    decodeSymbols .uriSafe .atFirst (syms [0x49, 0x2F, 0x41]) = .illegalCharacter 1 := by decide
/-- P1's encoding, IYI16A. -/
theorem test_assemble_P1 :
    assemble .uriSafe [.tok (.lit8 97), .tok (.lit8 98), .tok (.ref 5), .tok .selfRef, .tok .endMark]
      = syms [0x49, 0x59, 0x49, 0x31, 0x36, 0x41] := by decide
/-- P5's encoding, IYI3, with a RAW field. -/
theorem test_assemble_P5 :
    assemble .base64 [.tok (.char 97), .tok (.char 98), .raw 7 3] = syms [0x49, 0x59, 0x49, 0x33] := by decide

/-! ## The table's numbering (log entry 17) -/

theorem test_tableWord_lit8 : decodeTableWord 10 (0x61 * 4) = some (.lit8 0x61) := by decide
theorem test_tableWord_lit16 : decodeTableWord 18 (0x20AC * 4 + 1) = some (.lit16 0x20AC) := by decide
theorem test_tableWord_end : decodeTableWord 2 2 = some .endMark := by decide
theorem test_tableWord_badFirst : decodeTableWord 2 3 = some .badFirst := by decide

/-- The step after reset runs the placed token (LIT8 as the first token: R141). -/
theorem test_withFetchWord_lit8 :
    view (step (State.reset.withFetchWord 10 (0x61 * 4))) = some ⟨.loop, 4, 4, 3, [(3, [0x61])], [0x61], [(0, 0x61)]⟩ := by
  decide
/-- In LOOP the placed word is read at W = INDEXBITS: code 3 is REF 3. -/
theorem test_withFetchWord_ref :
    (nextOf (step (loop.withFetchWord 3 3))).map (fun t => (t.dictLen, t.last, t.outLen)) = some (5, [97], 2) := by
  decide

/-! ## One step of each token -/

/-- V-L1-1 after LIT8, V-DG-1. -/
theorem test_lit8_first :
    view (step first) = some ⟨.loop, 4, 4, 3, [(3, [97])], [97], [(0, 97)]⟩ ∧
      cursorOf (step first) = some (25, 2, 2, false) := by decide
/-- V-L1-7 token 2, V-DG-2: DICT[4] = "o", DICT[5] = "to". -/
theorem test_lit8_loop :
    view (step (afterLit8 wide sC4e1Q 116))
      = some ⟨.loop, 6, 2, 3, [(3, [116]), (4, [111]), (5, [116, 111])], [111], [(0, 116), (1, 111)]⟩ := by decide
/-- V-TK-4. -/
theorem test_lit16_first :
    view (step (atFirst wide sJUEQ))
      = some ⟨.loop, 4, 4, 3, [(3, [0x20AC])], [0x20AC], [(0, 0x20AC)]⟩ := by decide
/-- V-TK-6: a lone surrogate is one character; V-DG-3's growth between the two appends of a literal. -/
theorem test_lit16_growth :
    (nextOf (exec (.lit16 0xD83D) { loop with dictLen := 7, eug := 1 })).map
        (fun t => (t.dictLen, t.eug, t.indexBits, t.last)) = some (9, 7, 4, [0xD83D]) := by decide
/-- V-BR-2: END as the first token. -/
theorem test_end_first : verdict (step (atFirst wide sQ)) = some (.done, .none, 0) := by decide
/-- V-L1-1: END @3, STATUS = 0x02, VALUE 0, BITPOS 16, SYMIDX 3. -/
theorem test_end_loop :
    (nextOf (step loop)).map statusWord = some 2 ∧ cursorOf (step loop) = some (0, 16, 3, false) := by decide
/-- V-L1-3: REF 3. -/
theorem test_ref :
    view (step (afterLit8 wide sIbI 97))
      = some ⟨.loop, 5, 3, 3, [(3, [97]), (4, [97, 97])], [97], [(0, 97), (1, 97)]⟩ := by decide
/-- V-ER-19: the EMIT comes before the append that raises. -/
theorem test_ref_full_dictionary :
    verdict (step (afterLit8 (small 4 100) sIbI 97)) = some (.done, .capacityExceeded, 2) ∧
      (nextOf (step (afterLit8 (small 4 100) sIbI 97))).map (fun t => t.outLen) = some 2 := by decide
/-- V-L1-5: SELF. -/
theorem test_self :
    view (step (afterLit8 wide sAco 224))
      = some ⟨.loop, 5, 3, 3, [(3, [224]), (4, [224, 224])], [224, 224], [(0, 224), (1, 224), (2, 224)]⟩ := by decide
/-- V-TK-16: a SELF whose append causes growth. -/
theorem test_self_growth :
    (nextOf (exec .selfRef { loop with dictLen := 7, eug := 1 })).map (fun t => (t.dictLen, t.eug, t.indexBits))
      = some (8, 8, 4) := by decide
/-- V-TK-17: code 5 with DICTLEN 4; STATUS = 0x22. -/
theorem test_badLoop :
    verdict (step (afterLit8 wide sIag 97)) = some (.done, .badEncoding, 5) ∧
      (nextOf (step (afterLit8 wide sIag 97))).map statusWord = some 0x22 := by decide
/-- V-TK-21. -/
theorem test_badFirst : verdict (step (atFirst wide sW)) = some (.done, .badEncoding, 3) := by decide

/-! ## INIT, the LOOP check and capacity -/

/-- V-DR-1. -/
theorem test_init_empty : verdict (step (started wide [])) = some (.done, .none, 0) := by decide
/-- V-ER-16: MAX_IN = 2. -/
theorem test_init_too_long :
    verdict (step (started { wide with maxIn := 2 } sIZA)) = some (.done, .capacityExceeded, 1) := by decide
/-- V-ER-1: an unmapped first symbol. -/
theorem test_init_unmapped : verdict (step (started wide (syms [0x21, 0x5A]))) = some (.done, .illegalCharacter, 0) := by
  decide
/-- R163. -/
theorem test_init_seeds : nextOf (step (started wide sIZA)) = some first := by decide
/-- V-ER-10: DRAINED at the LOOP entry. -/
theorem test_loop_drained :
    verdict (step { loop with drained := true }) = some (.done, .unexpectedEndOfBuffer, 0) := by decide
/-- V-ER-17: MAX_OUT = 0. -/
theorem test_first_emit_full :
    verdict (step (atFirst (small 100 0) sIZA)) = some (.done, .capacityExceeded, 3) := by decide
/-- V-BR-6: the refill in the last bit's READBIT sets DRAINED with no error. -/
theorem test_refill_at_the_end :
    cursorOf (step { afterLit8 wide sIYIy 98 with value := 50, bitPos := 4, symIdx := 4 }) = some (50, 32, 4, true) := by
  decide

/-! ## The host port -/

/-- V-DR-3. -/
theorem test_reset_reads :
    [0x00, 0x04, 0x08, 0x0C, 0x10, 0x14, 0x100].map (fun o => told (step (withMove (.csrRead o 32) State.reset)))
      = List.replicate 7 (some 0) := by decide
/-- V-DR-4: CTRL = 3 starts a run, and CTRL then reads 2. -/
theorem test_ctrl_write :
    (nextOf (step (withMove (.csrWrite 0 32 3) State.reset))).map (fun t => (t.phase, ctrlWord t)) = some (.init, 2) := by
  decide
/-- V-DR-6: START while BUSY. -/
theorem test_start_while_busy : nextOf (step (withMove (.csrWrite 0 32 1) first)) = some first := by decide
/-- V-DR-7: reset in mid-run. -/
theorem test_reset_in_run :
    (nextOf (step (withMove .reset loop))).map (fun t => (t.phase, statusWord t, t.outLen)) = some (.idle, 0, 0) := by
  decide
/-- V-DR-9: STATUS is read-only. -/
theorem test_status_write : nextOf (step (withMove (.csrWrite 4 32 0xFFFFFFFF) loop)) = some loop := by decide
/-- 20_memory.md R50: the host writes IN and reads it back. -/
theorem test_in_read_back :
    (nextOf (step (withMove (.inWrite 7 0x5A) State.reset))).map (fun t => told (step (withMove (.inRead 7) t)))
      = some (some 0x5A) := by decide
/-- 70_reset_and_hazards.md R202: reading the result of `IZA`. -/
theorem test_result_read :
    told (step (withMove (.outRead 0) ended)) = some 97 ∧ told (step (withMove (.csrRead 0x0C 32) ended)) = some 1 := by
  decide
/-- 00_scope.md R8: a byte view of U+20AC, low byte first. -/
theorem test_byte_view :
    [0, 1].map (fun a => told (step (withMove (.outReadByte a) { ended with out := [(0, 0x20AC)] })))
      = [some 0xAC, some 0x20] := by decide

/-! ## Witnesses: states and operands that meet the hypotheses of each obligation -/

theorem witness_readerOk_first : ReaderOk first where
  bitPos := by simp only [oneHot]; decide
  symIdx_pos := by decide
  symIdx_le := by decide
  value := by decide
  drained := by decide

theorem witness_readerOk_loop : ReaderOk loop where
  bitPos := by simp only [oneHot]; decide
  symIdx_pos := by decide
  symIdx_le := by decide
  value := by decide
  drained := by decide

theorem witness_inv_started : EngineInv (started wide sIZA) where
  config := by decide
  inputWf := by decide
  outWf := by decide
  dictWf := by decide
  inputBelow := by decide
  outBelow := by decide
  dictBelow := by decide
  dictLen_ge := by decide
  dictLen_le := by decide
  outLen_le := by decide
  bitPos := by simp only [oneHot]; decide
  value_le := by decide
  errInfo := by decide
  idle := by decide
  run := fun h => absurd h (by decide)
  first := fun h => absurd h (by decide)
  loop := fun h => absurd h (by decide)
  result := fun h => absurd h (by decide)

theorem witness_inv_first : EngineInv first where
  config := by decide
  inputWf := by decide
  outWf := by decide
  dictWf := by decide
  inputBelow := by decide
  outBelow := by decide
  dictBelow := by decide
  dictLen_ge := by decide
  dictLen_le := by decide
  outLen_le := by decide
  bitPos := by simp only [oneHot]; decide
  value_le := by decide
  errInfo := by decide
  idle := by decide
  run := fun _ => ⟨witness_readerOk_first, by decide, by decide, by decide, by decide, fun _ h => absurd h (by simp [first, atFirst])⟩
  first := fun _ => ⟨by decide, by decide, by decide, by decide, by decide, by decide⟩
  loop := fun h => absurd h (by decide)
  result := fun h => absurd h (by decide)

theorem witness_entries_loop : entriesOk loop := fun k h3 hk => by
  have hk : k < 4 := hk
  obtain rfl : k = 3 := by omega
  exact ⟨[97], by decide, by decide, by decide⟩

theorem witness_width_loop : widthOk loop := by simp only [widthOk]; decide

theorem witness_inv_loop : EngineInv loop where
  config := by decide
  inputWf := by decide
  outWf := by decide
  dictWf := by decide
  inputBelow := by decide
  outBelow := by decide
  dictBelow := by decide
  dictLen_ge := by decide
  dictLen_le := by decide
  outLen_le := by decide
  bitPos := by simp only [oneHot]; decide
  value_le := by decide
  errInfo := by decide
  idle := by decide
  run := fun _ => ⟨witness_readerOk_loop, by decide, by decide, by decide, by decide, fun i h => by
    have h : i < 1 := h
    obtain rfl : i = 0 := by omega
    exact ⟨97, by decide⟩⟩
  first := fun h => absurd h (by decide)
  loop := fun _ => ⟨by decide, witness_width_loop, witness_entries_loop, 3, by decide, by decide, by decide⟩
  result := fun h => absurd h (by decide)

theorem witness_mapped_first (i : Nat) (h : i < 3) : isMapped first i := by
  obtain rfl | rfl | rfl : i = 0 ∨ i = 1 ∨ i = 2 := by omega
  · exact ⟨8, by decide⟩
  · exact ⟨25, by decide⟩
  · exact ⟨0, by decide⟩

theorem witness_ResetAbandonsAnyRun : (withMove .reset loop).host = .reset :: [] := by decide

theorem witness_AlphabetsAgreeOffTheDivergentSymbols :
    ∀ s ∈ syms [0x41, 0x2B, 0x7A], s ≠ 0x2D ∧ s ≠ 0x24 ∧ s ≠ 0x2F ∧ s ≠ 0x3D := by decide

/-- For DecodeOfEncodeIsTheToken and DecodeOfEncodedSymbolsIsTheToken: every token somewhere, each operand at
the ends of its range. -/
theorem witness_DecodeOfEncode_loop :
    (TokenCtx.atLoop 6).legal ∧
      ∀ i ∈ [Instr.lit8 0, .lit8 255, .lit16 0, .lit16 0xFFFF, .endMark, .ref 3, .ref 5, .selfRef, .badLoop 7],
        i.wellFormed (.atLoop 6) = true := by decide
theorem witness_DecodeOfEncode_first : TokenCtx.atFirst.legal ∧
    ∀ i ∈ [Instr.lit8 0, .lit16 0, .endMark, .badFirst], i.wellFormed .atFirst = true := by decide

theorem witness_EncodeOfDecodeIsTheStream :
    (TokenCtx.atLoop 6).legal ∧ decodeBits (.atLoop 6) [true, false, true, true] = some (.ref 5, [true]) := by decide

/-- DICTLEN 7 has no illegal code, DICTLEN 4 and 8 have. -/
theorem witness_IllegalCodes_loop :
    (TokenCtx.atLoop 4).legal ∧ (TokenCtx.atLoop 7).legal ∧ (TokenCtx.atLoop 8).legal ∧
      (TokenCtx.atLoop 7).isFirst = false := by decide
theorem witness_IllegalCodes_first : TokenCtx.atFirst.legal ∧ TokenCtx.atFirst.isFirst = true ∧
    3 < 2 ^ TokenCtx.atFirst.width := by decide

theorem witness_ReadBitOnDrainedRaises : ({ first with drained := true } : State).drained = true ∧
    readBit { first with drained := true } = .raised .unexpectedEndOfBuffer 0 { first with drained := true } :=
  ⟨rfl, rfl⟩

theorem witness_ReadBitReturnsTheMarkedBit_low :
    loop.drained = false ∧ loop.bitPos = BitVec.ofNat 6 (2 ^ (0 + 1)) := by decide
theorem witness_ReadBitReturnsTheMarkedBit_high :
    first.drained = false ∧ first.bitPos = BitVec.ofNat 6 (2 ^ (4 + 1)) := by decide

theorem witness_LastBit_mapped :
    let s := { first with bitPos := 1 }
    s.drained = false ∧ s.symIdx < s.n ∧ mapSymbol s.alpha (inSymbol s s.symIdx.toNat) = some 25 := by decide
theorem witness_LastBit_unmapped :
    let s := { atFirst wide (syms [0x49, 0x21]) with bitPos := 1 }
    s.drained = false ∧ s.symIdx < s.n ∧ mapSymbol s.alpha (inSymbol s s.symIdx.toNat) = none := by decide
theorem witness_LastBit_atTheEnd :
    let s := { atFirst wide sQ with bitPos := 1 }
    s.drained = false ∧ ¬ s.symIdx < s.n := by decide

/-- The whole input as one field. -/
theorem witness_ReadBitsReturnsTheStreamField :
    ReaderOk first ∧ consumed first + 18 ≤ 6 * first.n.toNat ∧
      ∀ i, i < first.n.toNat → consumed first < 6 * i → 6 * i ≤ consumed first + 18 → isMapped first i :=
  ⟨witness_readerOk_first, by decide, fun i h _ _ => witness_mapped_first i h⟩

/-- One bit more than the input. -/
theorem witness_ReadBitsPastTheEndRaises :
    ReaderOk first ∧ 6 * first.n.toNat < consumed first + 19 ∧
      ∀ i, i < first.n.toNat → consumed first < 6 * i → isMapped first i :=
  ⟨witness_readerOk_first, by decide, fun i h _ => witness_mapped_first i h⟩

/-- A field that ends with the symbol before the unmapped one. -/
theorem witness_ReadBitsRaisesAtTheFirstUnmappedSymbol :
    let s := atFirst wide (syms [0x49, 0x21])
    ReaderOk s ∧ 1 < s.n.toNat ∧ consumed s < 6 * 1 ∧ 6 * 1 ≤ consumed s + 6 ∧ ¬ isMapped s 1 ∧
      ∀ i, i < 1 → consumed s < 6 * i → isMapped s i := by
  refine ⟨⟨?_, by decide, by decide, by decide, by decide⟩, by decide, by decide, by decide, ?_, ?_⟩
  · simp only [oneHot]; decide
  · have h : mapSymbol .uriSafe (0x21 : Symbol) = none := by decide
    rintro ⟨v, hv⟩
    exact absurd (h.symm.trans hv) (by simp)
  · intro i hi hc
    omega

theorem witness_StepRunsDecodedInstruction_first :
    engineTurnState first = some first ∧ EngineInv first ∧ first.phase = .first ∧
      decodeAhead first = .token (.lit8 97) [false, true, false, false, false, false, false, false] :=
  ⟨rfl, witness_inv_first, rfl, by decide⟩
theorem witness_StepRunsDecodedInstruction_loop :
    engineTurnState (withMove .engineTurn loop) = some loop ∧ EngineInv loop ∧ loop.phase = .loop ∧
      decodeAhead loop = .token .endMark [false, false, false, false, false] :=
  ⟨rfl, witness_inv_loop, rfl, by decide⟩

theorem witness_FetchRefinesTheDecoder_token : ReaderOk loop ∧
    decodeAhead loop = .token .endMark [false, false, false, false, false] := ⟨witness_readerOk_loop, by decide⟩
theorem witness_FetchRefinesTheDecoder_unmapped :
    let s := atFirst wide (syms [0x49, 0x21])
    ReaderOk s ∧ decodeAhead s = .illegalCharacter 1 :=
  ⟨⟨by simp only [oneHot]; decide, by decide, by decide, by decide, by decide⟩, by decide⟩
theorem witness_FetchRefinesTheDecoder_end :
    let s := atFirst wide (sIZA.take 1)
    ReaderOk s ∧ decodeAhead s = .endOfBuffer :=
  ⟨⟨by simp only [oneHot]; decide, by decide, by decide, by decide, by decide⟩, by decide⟩

theorem witness_ReadErrorEndsTheRun_first :
    let s := atFirst wide (sIZA.take 1)
    s.host = [] ∧ s.phase = .first ∧ ∃ t, fetchToken s = .raised .unexpectedEndOfBuffer 0 t := ⟨rfl, rfl, _, rfl⟩
theorem witness_ReadErrorEndsTheRun_loop :
    let s := afterLit8 wide (syms [0x49, 0x5A, 0x3D]) 97
    s.host = [] ∧ s.phase = .loop ∧ s.drained = false ∧ ∃ t, fetchToken s = .raised .illegalCharacter 2 t :=
  ⟨rfl, rfl, rfl, _, rfl⟩

theorem witness_LoopStepOnDrainedRaises :
    let s := { loop with drained := true }
    s.host = [] ∧ s.phase = .loop ∧ s.drained = true := by decide

theorem witness_Append_full : (afterLit8 (small 4 9) sIZA 97).dictLen = (small 4 9).maxDict := by decide
theorem witness_Append_counts : loop.dictLen ≠ loop.config.maxDict ∧ loop.eug ≠ 1 := by decide
theorem witness_Append_grows :
    let s := { loop with dictLen := 7, eug := 1 }
    s.dictLen ≠ s.config.maxDict ∧ s.eug = 1 := by decide

theorem witness_SeedAppend_full : (atFirst (small 3 9) sIZA).dictLen = (small 3 9).maxDict := by decide
theorem witness_SeedAppend_room : first.dictLen ≠ first.config.maxDict := by decide

theorem witness_AppendKeepsTheWidthInvariant :
    let s := { loop with dictLen := 7, eug := 1 }
    4 ≤ s.dictLen.toNat ∧ s.dictLen.toNat ≤ s.config.maxDict.toNat ∧ widthOk s ∧ ∃ t, append [97] s = .ok () t :=
  ⟨by decide, by decide, by simp only [widthOk]; decide, _, rfl⟩

theorem witness_Emit_full : (small 9 0).maxOut.toNat < (atFirst (small 9 0) sIZA).outLen.toNat + [97].length := by decide
theorem witness_Emit_fits : (atFirst (small 9 1) sIZA).outLen.toNat + [97].length ≤ (small 9 1).maxOut.toNat := by decide

theorem witness_FirstLiteralCompletes :
    let s := atFirst (small 4 1) sIZA
    s.phase = .first ∧ s.dictLen = 3 ∧ s.config.maxDict ≠ 3 ∧ s.outLen.toNat + 1 ≤ s.config.maxOut.toNat := by decide

theorem witness_LoopLiteralCompletes :
    let s := afterLit8 (small 6 2) sIZA 97
    s.phase = .loop ∧ 4 ≤ s.dictLen.toNat ∧ widthOk s ∧ s.dictLen.toNat + 2 ≤ s.config.maxDict.toNat ∧
      s.outLen.toNat + 1 ≤ s.config.maxOut.toNat := by simp only [widthOk]; decide

theorem witness_BackReferenceCompletes :
    let s := afterLit8 (small 5 2) sIZA 97
    s.phase = .loop ∧ 3 < s.dictLen.toNat ∧ memGet s.dict 3 = some (97 :: []) ∧ widthOk s ∧
      s.dictLen.toNat + 1 ≤ s.config.maxDict.toNat ∧ s.outLen.toNat + 1 ≤ s.config.maxOut.toNat := by
  simp only [widthOk]; decide

theorem witness_SelfExtensionCompletes :
    let s := afterLit8 (small 5 3) sIZA 97
    s.phase = .loop ∧ s.last = 97 :: [] ∧ 4 ≤ s.dictLen.toNat ∧ widthOk s ∧
      s.dictLen.toNat + 1 ≤ s.config.maxDict.toNat ∧ s.outLen.toNat + 2 ≤ s.config.maxOut.toNat := by
  simp only [widthOk]; decide

/-- For EndMarkCompletes, IllegalFirstCodeRaises and IllegalLoopCodeRaises (the least illegal code). -/
theorem witness_ControlTokens : first.phase = .first ∧ loop.phase = .loop ∧ loop.dictLen.toNat < 5 ∧
    first.dictLen.toNat < 4 := by decide

theorem witness_LiteralCapacityOrder :
    (let s := afterLit8 (small 4 9) sIZA 97; s.phase = .loop ∧ s.dictLen = s.config.maxDict) ∧
    (let s := afterLit8 (small 5 1) sIZA 97;
      s.dictLen ≠ s.config.maxDict ∧ s.config.maxOut.toNat < s.outLen.toNat + 1) ∧
    (let s := afterLit8 (small 5 2) sIZA 97;
      s.dictLen ≠ s.config.maxDict ∧ s.outLen.toNat + 1 ≤ s.config.maxOut.toNat ∧
        s.dictLen + 1 = s.config.maxDict) := by decide

theorem witness_FirstLiteralCapacity :
    (let s := atFirst (small 3 9) sIZA; s.phase = .first ∧ s.dictLen = s.config.maxDict) ∧
    (let s := atFirst (small 9 0) sIZA;
      s.phase = .first ∧ s.dictLen ≠ s.config.maxDict ∧ s.config.maxOut.toNat < s.outLen.toNat + 1) := by decide

theorem witness_BackReferenceCapacityOrder :
    (let s := afterLit8 (small 9 1) sIZA 97;
      s.phase = .loop ∧ 3 < s.dictLen.toNat ∧ tokenString s (.ref 3) = some [97] ∧
        s.config.maxOut.toNat < s.outLen.toNat + 1) ∧
    (let s := afterLit8 (small 4 3) sIZA 97;
      s.phase = .loop ∧ tokenString s .selfRef = some [97, 97] ∧ s.outLen.toNat + 2 ≤ s.config.maxOut.toNat ∧
        s.dictLen = s.config.maxDict) := by decide

theorem witness_TokensOutsideARunStop : State.reset.phase ≠ .first ∧ State.reset.phase ≠ .loop ∧
    (started wide sIZA).phase ≠ .first ∧ (started wide sIZA).phase ≠ .loop ∧ ended.phase ≠ .first ∧
    ended.phase ≠ .loop := by decide

/-- The clauses of TokensThatCannotOccurStop at their boundaries; the two of DICT and LAST need states no run reaches. -/
theorem witness_TokensThatCannotOccurStop :
    loop.phase = .loop ∧ first.phase = .first ∧ ¬ (3 ≤ 2 ∧ 2 < loop.dictLen.toNat) ∧ ¬ (3 ≤ 4 ∧ 4 < loop.dictLen.toNat) ∧
      memGet { loop with dict := [] }.dict 3 = none ∧ { loop with last := [] }.last = [] ∧
      ¬ loop.dictLen.toNat < 4 ∧ ¬ first.dictLen.toNat < 3 := by decide

theorem witness_LiteralFrame : (∃ t, exec (.lit8 97) first = .next t) ∧ (∃ t, exec (.lit16 97) loop = .next t) ∧
    ∃ t, exec (.lit16 97) (afterLit8 (small 4 9) sIZA 97) = .next t := ⟨⟨_, rfl⟩, ⟨_, rfl⟩, ⟨_, rfl⟩⟩

theorem witness_BackReferenceFrame : (∃ t, exec (.ref 3) loop = .next t) ∧ (∃ t, exec .selfRef loop = .next t) ∧
    ∃ t, exec .selfRef first = .next t := ⟨⟨_, rfl⟩, ⟨_, rfl⟩, ⟨_, rfl⟩⟩

theorem witness_ControlTokenFrame : (∃ t, exec .endMark loop = .next t) ∧ (∃ t, exec (.badLoop 5) loop = .next t) ∧
    ∃ t, exec .badFirst first = .next t := ⟨⟨_, rfl⟩, ⟨_, rfl⟩, ⟨_, rfl⟩⟩

theorem witness_StartInIdleOrDone :
    (withMove (.csrWrite 0x00 32 3) State.reset).host = .csrWrite 0x00 32 3 :: [] ∧ State.reset.phase = .idle ∧
      (3 : Word).getLsbD 0 = true ∧ ended.phase = .done ∧ (2 : Word).getLsbD 0 = false := by decide

theorem witness_StartWhileBusyIsIgnored :
    (withMove (.csrWrite 0x00 32 1) loop).host = .csrWrite 0x00 32 1 :: [] ∧ loop.phase = .loop ∧
      (1 : Word).getLsbD 1 = alphabetBit loop.ctrlAlphabet := by decide

theorem witness_InitStepSeedsOrEnds :
    (let s := started { wide with maxIn := 2 } sIZA; s.host = [] ∧ s.phase = .init ∧ s.config.maxIn < s.inLen) ∧
    (let s := started wide []; s.host = [] ∧ s.phase = .init ∧ s.inLen = 0) ∧
    (let s := started wide (syms [0x21]); s.inLen ≠ 0 ∧ ¬ s.config.maxIn < s.inLen ∧
      mapSymbol s.ctrlAlphabet (inSymbol s 0) = none) ∧
    (let s := started { wide with maxIn := 3 } sIZA; s.inLen ≠ 0 ∧ ¬ s.config.maxIn < s.inLen ∧
      mapSymbol s.ctrlAlphabet (inSymbol s 0) = some 8) := by decide

theorem witness_StatusFieldsAndReadOnly :
    (withMove (.csrWrite 0x04 32 7) loop).host = .csrWrite 0x04 32 7 :: [] ∧ ended.phase = .done ∧
      State.reset.phase = .idle ∧ loop.phase = .loop := by decide

/-- For RegisterReadsAreExact: the least reserved offset. -/
theorem witness_RegisterReadsAreExact :
    (withMove (.csrRead 0x14 32) loop).host = .csrRead 0x14 32 :: [] ∧ 0x14 ≤ 0x14 ∧ 0x14 % 4 = 0 := by decide

/-- For its clauses in IDLE: a machine of the invariant in IDLE, other than reset, with a read of OUT_LEN and of
ERR_INFO to come. -/
def idleWith (m : HostMove) : State := withMove m { State.reset with config := wide, inLen := 3, input := [(0, 0x49)] }

theorem witness_inv_idle (m : HostMove) : EngineInv (idleWith m) where
  config := by simp only [idleWith, withMove]; decide
  inputWf := by simp [idleWith, withMove, Memory.wf]
  outWf := by simp [idleWith, withMove, State.reset, Memory.wf]
  dictWf := by simp [idleWith, withMove, State.reset, Memory.wf]
  inputBelow := by simp [idleWith, withMove, wide, small]
  outBelow := by simp [idleWith, withMove, State.reset]
  dictBelow := by simp [idleWith, withMove, State.reset]
  dictLen_ge := by simp [idleWith, withMove, State.reset]
  dictLen_le := by simp [idleWith, withMove, State.reset, wide, small]
  outLen_le := by simp [idleWith, withMove, State.reset]
  bitPos := by simp [idleWith, withMove, State.reset, oneHot]
  value_le := by simp [idleWith, withMove, State.reset]
  errInfo := fun _ => rfl
  idle := fun _ => ⟨rfl, rfl⟩
  run := fun h => by rcases h with h | h <;> cases h
  first := fun h => by cases h
  loop := fun h => by cases h
  result := fun h => by cases h

theorem witness_RegisterReadsAreExact_idle :
    EngineInv (idleWith (.csrRead 0x0C 32)) ∧ (idleWith (.csrRead 0x0C 32)).phase = .idle ∧
      (idleWith (.csrRead 0x0C 32)).host = .csrRead 0x0C 32 :: [] ∧ EngineInv (idleWith (.csrRead 0x10 32)) ∧
      (idleWith (.csrRead 0x10 32)).phase = .idle ∧ (idleWith (.csrRead 0x10 32)).host = .csrRead 0x10 32 :: [] :=
  ⟨witness_inv_idle _, rfl, rfl, witness_inv_idle _, rfl, rfl⟩

/-- STATUS, OUT_LEN, ERR_INFO and the least reserved offset. -/
theorem witness_WritesOfOtherRegistersAreIgnored :
    ∀ offset ∈ [0x04, 0x0C, 0x10, 0x14], offset % 4 = 0 ∧ offset ≠ 0x00 ∧ offset ≠ 0x08 ∧
      (withMove (.csrWrite offset 32 7) loop).host = .csrWrite offset 32 7 :: [] := by decide

theorem witness_HostReadsHaveNoSideEffect :
    (∃ t, step (withMove (.csrRead 0 32) loop) = .next t) ∧ (∃ t, step (withMove (.inRead 7) loop) = .next t) ∧
      (∃ t, step (withMove (.outRead 99) loop) = .next t) ∧ ∃ t, step (withMove (.outReadByte 199) loop) = .next t :=
  ⟨⟨_, rfl⟩, ⟨_, rfl⟩, ⟨_, rfl⟩, ⟨_, rfl⟩⟩

theorem witness_ResultIsReadBack :
    (withMove (.outReadByte 1) ended).host = .outReadByte 1 :: [] ∧ ended.phase = .done ∧ ended.err = .none ∧
      1 / 2 < ended.outLen.toNat ∧ 0 < ended.config.maxOut.toNat ∧ memGet ended.out (1 / 2) = some 97 := by decide

/-- IDLE, BUSY, after an error, and the first index that is no result after a success (OUT_LEN = 1), with the last
index of OUT. -/
theorem witness_UnspecifiedReadsAreFree :
    (withMove (.outRead 99) loop).host = .outRead 99 :: [] ∧ 99 < loop.config.maxOut.toNat ∧
      (withMove (.outReadByte 199) loop).host = .outReadByte 199 :: [] ∧ 199 / 2 < loop.config.maxOut.toNat ∧
      ¬ (loop.phase = .done ∧ loop.err = .none ∧ 0 < loop.outLen.toNat) ∧
      ¬ (State.reset.phase = .done ∧ State.reset.err = .none ∧ 0 < State.reset.outLen.toNat) ∧
      ¬ (ended.phase = .done ∧ ended.err = .none ∧ 1 < ended.outLen.toNat) ∧
      ¬ (ended.phase = .done ∧ ended.err = .none ∧ 2 / 2 < ended.outLen.toNat) ∧
      (let s := errorEntry .badEncoding 5 loop; s.phase = .done ∧ s.err ≠ .none) := by decide

theorem witness_OddRegisterAccessesAreRefused :
    (withMove (.csrRead 2 32) loop).host = .csrRead 2 32 :: [] ∧ 2 % 4 ≠ 0 ∧
      (withMove (.csrWrite 8 16 5) loop).host = .csrWrite 8 16 5 :: [] ∧ 8 % 4 = 0 ∧ 16 ≠ 32 := by decide

/-- The last index below IN_LEN and the first one from it on; IN_LEN; a changed ALPHABET. -/
theorem witness_InputHazardHasNoMove :
    (withMove (.inWrite 2 0x41) loop).host = .inWrite 2 0x41 :: [] ∧ loop.phase = .loop ∧
      2 < loop.config.maxIn.toNat ∧ 2 < loop.inLen.toNat ∧ 3 < loop.config.maxIn.toNat ∧ loop.inLen.toNat ≤ 3 ∧
      (withMove (.csrWrite 0x08 32 5) loop).host = .csrWrite 0x08 32 5 :: [] ∧
      (2 : Word).getLsbD 1 ≠ alphabetBit loop.ctrlAlphabet := by decide

/-- Outside BUSY: the last index of IN, below and from IN_LEN on, and a read back; a write that is made. -/
theorem witness_InputHazardHasNoMove_notBusy :
    ended.phase = .done ∧ State.reset.phase = .idle ∧ 7 < ended.config.maxIn.toNat ∧
      (withMove (.inRead 7) ended).host = .inRead 7 :: [] ∧
      ∃ t, step (withMove (.inWrite 7 0x41) ended) = .next t := ⟨rfl, rfl, by decide, rfl, _, rfl⟩

/-- For InvariantKeptByEveryStep, EngineAlwaysProgresses, RunNeverShrinks and FirstTokenLeavesTheWidthAtThree. -/
theorem witness_inv_step_first : EngineInv first ∧ first.host = [] ∧ first.phase = .first ∧
    ∃ t, step first = .next t ∧ t.phase = .loop := ⟨witness_inv_first, rfl, rfl, _, rfl, rfl⟩
theorem witness_inv_step_loop : EngineInv loop ∧ loop.host = [] ∧ loop.phase = .loop ∧ ∃ t, step loop = .next t :=
  ⟨witness_inv_loop, rfl, rfl, _, rfl⟩
/-- For EveryRunReachesDone. -/
theorem witness_EveryRunReachesDone :
    EngineInv (started wide sIZA) ∧ (started wide sIZA).host = [] ∧ (started wide sIZA).phase = .init :=
  ⟨witness_inv_started, rfl, rfl⟩

/-- For PhaseTransitionTable and EngineNeverWritesTheHostSide: every phase has an engine step. -/
theorem witness_PhaseTransitionTable :
    (∃ t, step State.reset = .next t) ∧ (∃ t, step (started wide sIZA) = .next t) ∧ (∃ t, step first = .next t) ∧
      (∃ t, step loop = .next t) ∧ ∃ t, step ended = .next t :=
  ⟨⟨_, rfl⟩, ⟨_, rfl⟩, ⟨_, rfl⟩, ⟨_, rfl⟩, ⟨_, rfl⟩⟩

/-- Two starts over the same three symbols, the second with another byte order, a later epoch, old output, an old
error and a fourth symbol. -/
theorem witness_RunDependsOnlyOnItsInput :
    let s₁ := started wide sIZA
    let s₂ := { started { wide with outByteOrder := .big } sIZA with
      epoch := 5, out := [(0, 7)], outLen := 1, err := .badEncoding, errInfo := 3, last := [9],
      input := memPutAll [] 0 (sIZA ++ syms [0x42]) }
    s₁.phase = .init ∧ s₂.phase = .init ∧ s₁.host = [] ∧ s₂.host = [] ∧ s₁.config.maxIn = s₂.config.maxIn ∧
      s₁.config.maxDict = s₂.config.maxDict ∧ s₁.config.maxOut = s₂.config.maxOut ∧
      s₁.ctrlAlphabet = s₂.ctrlAlphabet ∧ s₁.inLen = s₂.inLen ∧
      (∀ i, i < s₁.inLen.toNat → inSymbol s₁ i = inSymbol s₂ i) ∧ ∃ t₁, Host.Core.run core 3 s₁ = .next t₁ := by
  refine ⟨rfl, rfl, rfl, rfl, rfl, rfl, rfl, rfl, rfl, ?_, _, rfl⟩
  intro i hi
  have hi : i < 3 := hi
  obtain rfl | rfl | rfl : i = 0 ∨ i = 1 ∨ i = 2 := by omega
  all_goals rfl

/-- For its second clause: the same start with a script (a START while BUSY, an IN write at IN_LEN, a read of OUT_LEN)
that leaves the run, which ends after three engine steps and so after six steps in all. -/
def scriptedStart : State :=
  { started wide sIZA with
    host := [.csrWrite 0x00 32 1, .engineTurn, .inWrite 3 0x42, .engineTurn, .csrRead 0x0C 32] }

theorem witness_RunDependsOnlyOnItsInput_scripted :
    scriptedStart.phase = .init ∧ HostMove.reset ∉ scriptedStart.host ∧
      (∃ t₂, Host.Core.run core 6 scriptedStart = .next t₂ ∧ t₂.phase = .done) ∧
      ∀ (j : Nat) (u : State), j < 6 → Host.Core.run core j scriptedStart = .next u → u.phase ≠ .done := by
  refine ⟨rfl, by decide, ⟨_, rfl, rfl⟩, ?_⟩
  intro j u hj hu
  obtain rfl | rfl | rfl | rfl | rfl | rfl : j = 0 ∨ j = 1 ∨ j = 2 ∨ j = 3 ∨ j = 4 ∨ j = 5 := by omega
  all_goals (obtain rfl := Host.Outcome.next.inj hu; decide)

end Sys2Proof.Tests
end

section
/-! The host's register accesses, one rule each (spec/10_state.md R36 to R42, spec/20_memory.md R50 to R57), and the
statements about what the host reads and writes. -/

namespace Sys2Proof.Machine

open Sys2Proof

/-! ## A move of the script -/

theorem step_of_move {s : State} {m : HostMove} {rest : List HostMove} (h : s.host = m :: rest) :
    step s = agentMove m { s with host := rest } := by
  simp [step, scheduledMove, h]

theorem csrAccess_word {offset : Nat} (h : offset % 4 = 0) (k : Host.Outcome State Fault Refusal) :
    csrAccess offset 32 k = k := by
  simp [csrAccess, h]

theorem step_csrWrite {s : State} {rest : List HostMove} {offset : Nat} {data : Word} (h4 : offset % 4 = 0)
    (h : s.host = .csrWrite offset 32 data :: rest) : step s = csrWriteWord offset data { s with host := rest } :=
  (step_of_move h).trans (csrAccess_word h4 _)

theorem step_csrRead {s : State} {rest : List HostMove} {offset : Nat} (h4 : offset % 4 = 0)
    (h : s.host = .csrRead offset 32 :: rest) : step s = csrReadWord offset { s with host := rest } :=
  (step_of_move h).trans (csrAccess_word h4 _)

/-- Only CTRL and IN_LEN are writable (10_state.md R36). -/
theorem csrWriteWord_readOnly {offset : Nat} (h0 : offset ≠ 0x00) (h8 : offset ≠ 0x08) (data : Word) (s : State) :
    csrWriteWord offset data s = .next s := by
  simp [csrWriteWord, h0, h8]

theorem csrReadWord_reserved {offset : Nat} (h : 0x14 ≤ offset) (s : State) :
    csrReadWord offset s = returnWord 0 s := by
  unfold csrReadWord
  rw [if_neg (by omega), if_neg (by omega), if_neg (by omega), if_neg (by omega), if_neg (by omega)]

/-! ## The words of CTRL and STATUS -/

/-- CTRL reads ALPHABET at bit 1 and 0 elsewhere (10_state.md R37). -/
theorem ctrlWord_eq (s : State) : ctrlWord s = if s.ctrlAlphabet = .base64 then 2 else 0 := by
  unfold ctrlWord
  cases s.ctrlAlphabet <;> rfl

theorem busy_iff (s : State) : busy s = true ↔ s.phase = .init ∨ s.phase = .first ∨ s.phase = .loop := by
  unfold busy
  cases s.phase <;> simp

theorem done_iff (s : State) : done s = true ↔ s.phase = .done := by simp [done]

/-- STATUS taken apart into the fields of 10_state.md R38. -/
theorem statusWord_fields (s : State) :
    (statusWord s).getLsbD 0 = busy s ∧ (statusWord s).getLsbD 1 = done s ∧ (statusWord s).extractLsb' 2 2 = 0 ∧
      (statusWord s).extractLsb' 4 3 = statusErr s ∧ (statusWord s).extractLsb' 7 25 = 0 := by
  unfold statusWord
  generalize busy s = b, done s = d, statusErr s = e
  revert b d e
  decide

theorem statusErr_of_busy {s : State} (h : busy s = true) : statusErr s = 0 := by simp [statusErr, h]

theorem statusErr_of_not_busy {s : State} (h : busy s = false) : statusErr s = s.err.code := by simp [statusErr, h]

/-! ## OUT_LEN, ERR_INFO and OUT as the host reads them -/

theorem resultValid_of_done {s : State} (hp : s.phase = .done) (he : s.err = .none) : resultValid s = true := by
  simp [resultValid, hp, he]

theorem outLenRead_of_idle {s : State} (h : s.phase = .idle) : outLenRead s = returnWord s.outLen s := by
  simp [outLenRead, h]

theorem outLenRead_of_result {s : State} (h : resultValid s = true) : outLenRead s = returnWord s.outLen s := by
  simp [outLenRead, h]

theorem errInfoRead_of_idle {s : State} (h : s.phase = .idle) : errInfoRead s = returnWord s.errInfo s := by
  simp [errInfoRead, busy, h]

/-- A character of the result is what a read of OUT is told, seen through `f` (10_state.md R34). -/
theorem outReadWith_of_result {s : State} {i : Nat} {c : Char16} (f : Char16 → Word) (hv : resultValid s = true)
    (hlen : i < s.outLen.toNat) (hmax : i < s.config.maxOut.toNat) (hc : memGet s.out i = some c) :
    outReadWith f i s = returnWord (f c) s := by
  have hr : resultChar s i = some c := by simp [resultChar, hv, hlen, hc]
  simp [outReadWith, hr, Nat.not_le.2 hmax]

/-- The low byte stands at the even address under `little` and at the odd one under `big` (log entry 6). -/
theorem charByte_eq (o : ByteOrder) (a : Nat) (c : Char16) :
    charByte o (a % 2) c =
      if (o = .little ↔ a % 2 = 0) then (c.extractLsb' 0 8).setWidth 32 else (c.extractLsb' 8 8).setWidth 32 := by
  cases o <;> by_cases h : a % 2 = 0 <;> simp [charByte, h]

/-! ## The statements -/

/-- Settles O1: State.reset's fields are the values of R44, and CTRL and STATUS evaluate to 0 on it. -/
theorem resetIsIdleAndClear : Obligations.ResetIsIdleAndClear :=
  ⟨rfl, rfl, rfl, rfl, rfl, rfl, rfl, rfl⟩

/-- Settles O60: only the offsets of CTRL and IN_LEN reach a register. -/
theorem writesOfOtherRegistersAreIgnored : Obligations.WritesOfOtherRegistersAreIgnored :=
  fun _ _ _ data h4 h0 h8 h => (step_csrWrite h4 h).trans (csrWriteWord_readOnly h0 h8 data _)

/-- Settles O44, from the fields of the status word and what PHASE says of BUSY and DONE. -/
theorem statusFieldsAndReadOnly : Obligations.StatusFieldsAndReadOnly := by
  intro s
  obtain ⟨hbusy, hdone, hlow, herr, hhigh⟩ := statusWord_fields s
  rw [hbusy, hdone, herr]
  refine ⟨busy_iff s, done_iff s, hlow, fun h => ?_, fun h => ?_, hhigh, ?_, rfl, fun data rest h => ?_⟩
  · exact statusErr_of_not_busy (by rcases h with h | h <;> simp [busy, h])
  · exact statusErr_of_busy ((busy_iff s).2 h)
  · rintro ⟨hb, hd⟩
    rw [busy_iff, (done_iff s).1 hd] at hb
    simp at hb
  · exact writesOfOtherRegistersAreIgnored s rest 0x04 data rfl (by decide) (by decide) h

/-- Settles O45: each offset's read rule, and in IDLE the invariant's zero registers. -/
theorem registerReadsAreExact : Obligations.RegisterReadsAreExact := by
  intro s rest
  have hout (hp : s.phase = .idle) (h : s.host = .csrRead 0x0C 32 :: rest) :
      step s = .next { s with host := rest, readData := s.outLen } :=
    (step_csrRead rfl h).trans (outLenRead_of_idle (s := { s with host := rest }) hp)
  have hinfo (hp : s.phase = .idle) (h : s.host = .csrRead 0x10 32 :: rest) :
      step s = .next { s with host := rest, readData := s.errInfo } :=
    (step_csrRead rfl h).trans (errInfoRead_of_idle (s := { s with host := rest }) hp)
  refine ⟨fun h => ?_, fun h => step_csrRead rfl h, fun h => step_csrRead rfl h, fun offset hge h4 h => ?_,
    fun hp => ⟨hout hp, hinfo hp, fun hinv h => ?_⟩⟩
  · rw [← ctrlWord_eq s]
    exact step_csrRead rfl h
  · exact (step_csrRead h4 h).trans (csrReadWord_reserved hge _)
  · obtain ⟨hnone, hzero⟩ := hinv.idle hp
    rcases h with h | h
    · rw [hout hp h, hzero]
    · rw [hinfo hp h, hinv.errInfo hnone]

/-- Settles O47: after a success OUT_LEN reads its register and OUT the result's characters, whole or by bytes. -/
theorem resultIsReadBack : Obligations.ResultIsReadBack := by
  intro s rest hp he
  have hv : resultValid { s with host := rest } = true := resultValid_of_done hp he
  refine ⟨fun h => ?_, fun i c hlen hmax hc h => ?_, fun a c hlen hmax hc h => ?_⟩
  · exact (step_csrRead rfl h).trans (outLenRead_of_result hv)
  · exact (step_of_move h).trans (outReadWith_of_result _ hv hlen hmax hc)
  · rw [← charByte_eq]
    exact (step_of_move h).trans (outReadWith_of_result _ hv hlen hmax hc)

end Sys2Proof.Machine
end

section
/-! The invariant of the machine over every step (spec/10_state.md R46). Its clauses that name no phase are kept apart
(`BaseOk`): they alone are left after an error. Each operation has one rule that says what holds after it (`Keeps`),
and the rules are put together per token, then for the engine's steps and for the moves of the other agents. -/

namespace Sys2Proof.Machine

open Sys2Proof

variable {α β : Type}

/-! ## The clauses that hold in every phase -/

/-- The clauses of EngineInv that name no phase. -/
structure BaseOk (s : State) : Prop where
  config : s.config.wf
  inputWf : Memory.wf s.input
  outWf : Memory.wf s.out
  dictWf : Memory.wf s.dict
  inputBelow : ∀ p ∈ s.input, p.1 < s.config.maxIn.toNat
  outBelow : ∀ p ∈ s.out, p.1 < s.config.maxOut.toNat
  dictBelow : ∀ p ∈ s.dict, 3 ≤ p.1 ∧ p.1 < s.dictLen.toNat
  dictLen_ge : 3 ≤ s.dictLen.toNat
  dictLen_le : s.dictLen.toNat ≤ s.config.maxDict.toNat
  outLen_le : s.outLen.toNat ≤ s.config.maxOut.toNat
  bitPos : oneHot s.bitPos
  value_le : s.value.toNat ≤ 64
  errInfo : s.err = .none → s.errInfo = 0

theorem EngineInv.base {s : State} (h : EngineInv s) : BaseOk s := { h with }

/-- In INIT nothing more is asked. -/
theorem BaseOk.inv_of_init {s : State} (h : BaseOk s) (hp : s.phase = .init) : EngineInv s :=
  { h with
    idle := by simp [hp], run := by simp [hp], first := by simp [hp], loop := by simp [hp], result := by simp [hp] }

theorem BaseOk.inv_of_idle {s : State} (h : BaseOk s) (hp : s.phase = .idle) (hi : s.err = .none ∧ s.outLen = 0) :
    EngineInv s :=
  { h with
    idle := fun _ => hi, run := by simp [hp], first := by simp [hp], loop := by simp [hp], result := by simp [hp] }

theorem BaseOk.inv_of_first {s : State} (h : BaseOk s) (hp : s.phase = .first) (hr : RunOk s) (hf : FirstOk s) :
    EngineInv s :=
  { h with
    idle := by simp [hp], run := fun _ => hr, first := fun _ => hf, loop := by simp [hp], result := by simp [hp] }

theorem BaseOk.inv_of_loop {s : State} (h : BaseOk s) (hp : s.phase = .loop) (hr : RunOk s) (hl : LoopOk s) :
    EngineInv s :=
  { h with
    idle := by simp [hp], run := fun _ => hr, first := by simp [hp], loop := fun _ => hl, result := by simp [hp] }

/-- In DONE a success leaves every character of the result written. -/
theorem BaseOk.inv_of_done {s : State} (h : BaseOk s) (hp : s.phase = .done) (ho : s.err = .none → outOk s) :
    EngineInv s :=
  { h with
    idle := by simp [hp], run := by simp [hp], first := by simp [hp], loop := by simp [hp], result := fun _ => ho }

/-- Error entry asks nothing beyond the clauses of every phase (60_exceptions.md R185). -/
theorem BaseOk.inv_errorEntry {s : State} (h : BaseOk s) {e : ErrKind} (he : e ≠ .none) (w : Word) :
    EngineInv (errorEntry e w s) :=
  BaseOk.inv_of_done { h with errInfo := fun hn => absurd hn he } rfl fun hn => absurd hn he

theorem BaseOk.inv_endRun {s : State} (h : BaseOk s) (ho : outOk s) : EngineInv (endRun s) :=
  BaseOk.inv_of_done { h with errInfo := fun _ => rfl } rfl fun _ => ho

/-! ## What an operation keeps -/

/-- Where the operation gives a value, `Q` holds of it and of the state; where it raises, a proper error is raised in
a state that error entry turns into one of the invariant. -/
def Eff.Keeps (Q : α → State → Prop) : Eff α → Prop
  | .ok a t => Q a t
  | .raised e _ t => e ≠ .none ∧ BaseOk t
  | .stop _ => True

theorem Eff.Keeps.andThen {m : Eff α} {f : α → State → Eff β} {Q : α → State → Prop} {R : β → State → Prop}
    (hm : m.Keeps Q) (hf : ∀ a u, Q a u → (f a u).Keeps R) : (m.andThen f).Keeps R := by
  cases m with
  | ok a u => exact hf a u hm
  | raised e w u => exact hm
  | stop r => trivial

theorem Eff.Keeps.mono {m : Eff α} {Q R : α → State → Prop} (hm : m.Keeps Q) (h : ∀ a t, Q a t → R a t) :
    m.Keeps R := by
  cases m with
  | ok a u => exact h a u hm
  | raised e w u => exact hm
  | stop r => trivial

theorem Eff.Keeps.inv_of_conclude {m : Eff Unit} {t : State} (hm : m.Keeps fun _ u => EngineInv u)
    (h : conclude m = .next t) : EngineInv t := by
  rcases conclude_eq_next h with rfl | ⟨e, w, u, rfl, rfl⟩
  · exact hm
  · exact hm.2.inv_errorEntry hm.1 w

/-! ## The bit reader -/

theorem mapSymbol_le {a : Alphabet} {b : Symbol} {v : BitVec 7} (h : mapSymbol a b = some v) : v.toNat ≤ 64 := by
  unfold mapSymbol at h
  cases a <;> simp only at h <;> split_ifs at h <;> cases h <;> bv_omega

/-- The reader's registers may move as long as BITPOS and VALUE keep their forms. -/
theorem BaseOk.of_reader {s t : State} (h : BaseOk s) (hst : sameButReader s t) (hb : oneHot t.bitPos)
    (hv : t.value.toNat ≤ 64) : BaseOk t := by
  rw [hst]
  exact { h with bitPos := hb, value_le := hv }

theorem BaseOk.of_readerOk {s t : State} (h : BaseOk s) (hst : sameButReader s t) (hr : ReaderOk t) : BaseOk t :=
  h.of_reader hst hr.bitPos (mapSymbol_le hr.value)

theorem RunOk.of_reader {s t : State} (h : RunOk s) (hst : sameButReader s t) (hr : ReaderOk t) : RunOk t := by
  rw [hst] at hr ⊢
  exact { h with reader := hr }

theorem readBit_readerOk {s t : State} {b : Bool} (hr : ReaderOk s) (h : readBit s = .ok b t) :
    sameButReader s t ∧ ReaderOk t := by
  have hd : s.drained = false := by
    rcases readBit_cases s with ⟨_, h'⟩ | ⟨hd, _⟩ | ⟨hd, _⟩ | ⟨hd, _⟩ | ⟨hd, _⟩
    · rw [h'] at h; cases h
    all_goals exact hd
  obtain ⟨b', L, -, ⟨u, hu, hsu, hru, -⟩ | ⟨u, -, -, hu, -⟩⟩ := readBit_restBits s hr hd
  · rw [hu] at h; cases h
    exact ⟨hsu, hru⟩
  · rw [hu] at h; cases h

/-- A raising READBIT leaves BITPOS where it was, or restarted at 32 (40_bit_reader.md R103). -/
theorem readBit_raised_base {s t : State} {e : ErrKind} {w : Word} (hb : BaseOk s) (h : readBit s = .raised e w t) :
    e ≠ .none ∧ BaseOk t := by
  rcases readBit_cases s with ⟨_, h'⟩ | ⟨_, _, h'⟩ | ⟨_, _, _, v, _, h'⟩ | ⟨_, _, _, _, h'⟩ | ⟨_, _, _, h'⟩ <;>
    rw [h'] at h <;> cases h
  · exact ⟨by decide, hb⟩
  · exact ⟨by decide, { hb with bitPos := by simp [oneHot] }⟩

theorem readBit_keeps {s : State} (hb : BaseOk s) (hr : ReaderOk s) :
    (readBit s).Keeps fun _ t => sameButReader s t ∧ ReaderOk t := by
  cases h : readBit s with
  | ok b t => exact readBit_readerOk hr h
  | raised e w t => exact readBit_raised_base hb h
  | stop r => trivial

theorem readBitsFrom_keeps (n r p : Nat) {s : State} (hb : BaseOk s) (hr : ReaderOk s) :
    (readBitsFrom n r p s).Keeps fun _ t => sameButReader s t ∧ ReaderOk t := by
  induction n generalizing r p s with
  | zero => exact ⟨sameButReader_refl s, hr⟩
  | succ n ih =>
    exact (readBit_keeps hb hr).andThen fun b u ⟨hsu, hru⟩ =>
      (ih _ _ (hb.of_readerOk hsu hru) hru).mono fun _ t ⟨hut, hrt⟩ => ⟨sameButReader_trans hsu hut, hrt⟩

theorem readOperand_keeps (k : CodeClass) {s : State} (hb : BaseOk s) (hr : ReaderOk s) :
    (readOperand k s).Keeps fun _ t => sameButReader s t ∧ ReaderOk t := by
  cases k
  case lit8 => exact (readBitsFrom_keeps 8 0 1 hb hr).andThen fun _ _ h => h
  case lit16 => exact (readBitsFrom_keeps 16 0 1 hb hr).andThen fun _ _ h => h
  all_goals exact ⟨sameButReader_refl s, hr⟩

/-- Fetching a token moves the reader alone and keeps it in order (40_bit_reader.md R101 to R108). -/
theorem fetchToken_keeps {s : State} (hb : BaseOk s) (hr : ReaderOk s) :
    (fetchToken s).Keeps fun _ t => sameButReader s t ∧ ReaderOk t :=
  (readBitsFrom_keeps _ 0 1 hb hr).andThen fun _ _ ⟨hsu, hru⟩ =>
    (readOperand_keeps _ (hb.of_readerOk hsu hru) hru).mono fun _ _ ⟨hut, hrt⟩ => ⟨sameButReader_trans hsu hut, hrt⟩

/-- The invariant at a token, carried over the reads of that token. -/
theorem EngineInv.of_reader {s t : State} (h : EngineInv s) (hp : s.phase = .first ∨ s.phase = .loop)
    (hst : sameButReader s t) (hr : ReaderOk t) : EngineInv t := by
  have hb : BaseOk t := h.base.of_readerOk hst hr
  have hrun : RunOk t := (h.run hp).of_reader hst hr
  have hpt : t.phase = s.phase := by rw [hst]
  rcases hp with hp | hp
  · refine hb.inv_of_first (hpt.trans hp) hrun ?_
    rw [hst]
    exact { h.first hp with }
  · refine hb.inv_of_loop (hpt.trans hp) hrun ?_
    rw [hst]
    exact { h.loop hp with }

/-! ## Appends and output -/

theorem BaseOk.dictLen_lt {s : State} (h : BaseOk s) (hne : s.dictLen ≠ s.config.maxDict) :
    s.dictLen.toNat < s.config.maxDict.toNat :=
  Nat.lt_of_le_of_ne h.dictLen_le fun he => hne (BitVec.eq_of_toNat_eq he)

/-- Below MAX_DICT the sum DICTLEN + 1 does not wrap. -/
theorem BaseOk.dictLen_succ {s : State} (h : BaseOk s) (hne : s.dictLen ≠ s.config.maxDict) :
    (s.dictLen + 1).toNat = s.dictLen.toNat + 1 := by
  have hlt := h.dictLen_lt hne
  have hmax := s.config.maxDict.isLt
  rw [BitVec.toNat_add]
  exact Nat.mod_eq_of_lt (by simp; omega)

theorem BaseOk.pushEntry {s : State} (h : BaseOk s) (hne : s.dictLen ≠ s.config.maxDict) (str : Str) :
    BaseOk (pushEntry str s) := by
  have hlt := h.dictLen_lt hne
  have hsucc := h.dictLen_succ hne
  have hge := h.dictLen_ge
  refine { h with dictWf := memPut_wf h.dictWf _ _, dictBelow := fun p hp => ?_, dictLen_ge := ?_, dictLen_le := ?_ }
  · rw [pushEntry_dictLen, hsucc]
    rcases mem_keys_memPut hp with hk | hmem
    · omega
    · have := h.dictBelow p hmem
      omega
  · rw [pushEntry_dictLen, hsucc]; omega
  · rw [pushEntry_dictLen, hsucc, pushEntry_config]; omega

theorem BaseOk.countEntry {s : State} (h : BaseOk s) : BaseOk (countEntry s) := { h with }

theorem BaseOk.setLast {s : State} (h : BaseOk s) (tok : Str) : BaseOk (setLast tok s) := { h with }

theorem BaseOk.enterLoop {s : State} (h : BaseOk s) : BaseOk (enterLoop s) := { h with }

/-- Within MAX_OUT the sum OUT_LEN + |str| does not wrap. -/
theorem writeOut_outLen_toNat {s : State} {str : Str} (hfit : s.outLen.toNat + str.length ≤ s.config.maxOut.toNat) :
    (writeOut str s).outLen.toNat = s.outLen.toNat + str.length := by
  have hmax := s.config.maxOut.isLt
  rw [writeOut_outLen, BitVec.toNat_ofNat, Nat.mod_eq_of_lt (by omega)]

theorem BaseOk.writeOut {s : State} (h : BaseOk s) {str : Str}
    (hfit : s.outLen.toNat + str.length ≤ s.config.maxOut.toNat) : BaseOk (writeOut str s) := by
  refine { h with outWf := memPutAll_wf h.outWf _ _, outBelow := fun p hp => ?_, outLen_le := ?_ }
  · rw [writeOut_config]
    rcases mem_keys_memPutAll hp with ⟨_, hk⟩ | hmem
    · omega
    · exact h.outBelow p hmem
  · rw [writeOut_outLen_toNat hfit, writeOut_config]
    exact hfit

/-- Output is written up to the new OUT_LEN (41_dictionary.md R130). -/
theorem outOk_writeOut {s : State} (h : outOk s) {str : Str}
    (hfit : s.outLen.toNat + str.length ≤ s.config.maxOut.toNat) : outOk (writeOut str s) := by
  intro i hi
  rw [writeOut_outLen_toNat hfit] at hi
  rw [writeOut_out]
  rcases Nat.lt_or_ge i s.outLen.toNat with hlt | hge
  · rw [memGet_memPutAll_outside _ _ _ (.inl hlt)]
    exact h i hlt
  · obtain ⟨j, rfl⟩ := Nat.exists_eq_add_of_le hge
    rw [memGet_memPutAll_inside _ _ _ (by omega)]
    exact ⟨_, List.getElem?_eq_getElem (by omega)⟩

theorem RunOk.pushEntry {s : State} (h : RunOk s) (str : Str) : RunOk (pushEntry str s) :=
  { h with reader := { h.reader with } }

theorem RunOk.countEntry {s : State} (h : RunOk s) : RunOk (countEntry s) := { h with reader := { h.reader with } }

theorem RunOk.setLast {s : State} (h : RunOk s) (tok : Str) : RunOk (setLast tok s) :=
  { h with reader := { h.reader with } }

theorem RunOk.enterLoop {s : State} (h : RunOk s) : RunOk (enterLoop s) := { h with reader := { h.reader with } }

theorem RunOk.writeOut {s : State} (h : RunOk s) {str : Str}
    (hfit : s.outLen.toNat + str.length ≤ s.config.maxOut.toNat) : RunOk (writeOut str s) :=
  { h with reader := { h.reader with }, outWritten := outOk_writeOut h.outWritten hfit }

theorem append_keeps {s : State} (hb : BaseOk s) (str : Str) :
    (append str s).Keeps fun _ t => s.dictLen ≠ s.config.maxDict ∧ t = countEntry (pushEntry str s) := by
  rcases append_cases str s with ⟨_, h⟩ | ⟨hne, h⟩ <;> rw [h]
  · exact ⟨by decide, hb⟩
  · exact ⟨hne, rfl⟩

theorem seedAppend_keeps {s : State} (hb : BaseOk s) (str : Str) :
    (seedAppend str s).Keeps fun _ t => s.dictLen ≠ s.config.maxDict ∧ t = pushEntry str s := by
  by_cases hd : s.dictLen = s.config.maxDict
  · rw [seedAppend, if_pos hd]
    exact ⟨by decide, hb⟩
  · rw [seedAppend_room str hd]
    exact ⟨hd, rfl⟩

theorem emit_keeps {s : State} (hb : BaseOk s) (str : Str) :
    (emit str s).Keeps fun _ t => s.outLen.toNat + str.length ≤ s.config.maxOut.toNat ∧ t = writeOut str s := by
  rcases emit_cases str s with ⟨_, h⟩ | ⟨hfit, h⟩ <;> rw [h]
  · exact ⟨by decide, hb⟩
  · exact ⟨hfit, rfl⟩

/-! ## Entries and LAST -/

theorem memGet_pushEntry_new (str : Str) (s : State) : memGet (pushEntry str s).dict s.dictLen.toNat = some str := by
  simp

theorem memGet_pushEntry_old (str : Str) {s : State} {k : Nat} (h : k < s.dictLen.toNat) :
    memGet (pushEntry str s).dict k = memGet s.dict k :=
  memGet_memPut_ne _ _ (Nat.ne_of_lt h)

/-- R132 over an append: the new entry at index DICTLEN has length at most DICTLEN less 2. -/
theorem entriesOk_pushEntry {s : State} (h : entriesOk s) (hb : BaseOk s) (hne : s.dictLen ≠ s.config.maxDict)
    {str : Str} (hnil : str ≠ []) (hlen : str.length ≤ s.dictLen.toNat - 2) : entriesOk (pushEntry str s) := by
  intro k h3 hk
  rw [pushEntry_dictLen, hb.dictLen_succ hne] at hk
  rcases Nat.lt_succ_iff_lt_or_eq.1 hk with hlt | rfl
  · rw [memGet_pushEntry_old str hlt]
    exact h k h3 hlt
  · exact ⟨str, memGet_pushEntry_new str s, hnil, hlen⟩

/-- LAST becomes an entry that was there already. -/
theorem lastOk_of_entry {s : State} (hb : BaseOk s) (hne : s.dictLen ≠ s.config.maxDict) {k : Nat} {tok : Str}
    (h3 : 3 ≤ k) (hk : k < s.dictLen.toNat) (hget : memGet s.dict k = some tok) (str : Str) :
    lastOk (setLast tok (pushEntry str s)) := by
  have hsucc := hb.dictLen_succ hne
  refine ⟨k, h3, ?_, (memGet_pushEntry_old str hk).trans hget⟩
  rw [setLast_dictLen, pushEntry_dictLen, hsucc]
  omega

/-- LAST becomes the entry that was appended. -/
theorem lastOk_of_new {s : State} (hb : BaseOk s) (hne : s.dictLen ≠ s.config.maxDict) (tok : Str) :
    lastOk (setLast tok (pushEntry tok s)) := by
  have hsucc := hb.dictLen_succ hne
  refine ⟨s.dictLen.toNat, hb.dictLen_ge, ?_, memGet_pushEntry_new tok s⟩
  rw [setLast_dictLen, pushEntry_dictLen, hsucc]
  omega

/-- A counted append keeps what LOOP asks, once it is known where LAST stands. -/
theorem LoopOk.append {s : State} (h : LoopOk s) (hb : BaseOk s) (hne : s.dictLen ≠ s.config.maxDict)
    {str tok : Str} (hnil : str ≠ []) (hlen : str.length ≤ s.dictLen.toNat - 2)
    (hlast : lastOk (Machine.setLast tok (Machine.pushEntry str s))) :
    LoopOk (Machine.setLast tok (Machine.countEntry (Machine.pushEntry str s))) := by
  have hlt := hb.dictLen_lt hne
  have hmax := s.config.maxDict.isLt
  obtain ⟨hwidth, hdict⟩ := countEntry_widthOk s str h.dictLen (by omega) h.width
  have h4 := h.dictLen
  exact { dictLen := by rw [setLast_dictLen, hdict]; omega
          width := hwidth
          entries := entriesOk_pushEntry h.entries hb hne hnil hlen
          last := hlast }

/-- LAST is an entry, so one more character still fits R132 at index DICTLEN. -/
theorem LoopOk.last_length {s : State} (h : LoopOk s) (c : Char16) : (s.last ++ [c]).length ≤ s.dictLen.toNat - 2 := by
  obtain ⟨k, h3, hk, hget⟩ := h.last
  obtain ⟨str, hstr, -, hlen⟩ := h.entries k h3 hk
  obtain rfl : str = s.last := Option.some.inj (hstr.symm.trans hget)
  simp only [List.length_append, List.length_singleton]
  omega

/-! ## The tokens -/

/-- The tail of a LOOP step (43_driver.md R165), for a token that is an entry once LAST and the token's first
character have been appended. -/
theorem finishLoop_keeps {s : State} (hb : BaseOk s) (hp : s.phase = .loop) (hr : RunOk s) (hl : LoopOk s) {tok : Str}
    (hlast : ∀ c cs, tok = c :: cs → s.dictLen ≠ s.config.maxDict →
      lastOk (setLast tok (pushEntry (s.last ++ [c]) s))) :
    (finishLoop tok s).Keeps fun _ t => EngineInv t := by
  refine (emit_keeps hb tok).andThen fun _ u ⟨hfit, hu⟩ => ?_
  have hbu : BaseOk u := hu ▸ hb.writeOut hfit
  have hru : RunOk u := hu ▸ hr.writeOut hfit
  have hlu : LoopOk u := hu ▸ { hl with }
  cases tok with
  | nil => trivial
  | cons c cs =>
    refine (append_keeps hbu (u.last ++ [c])).andThen fun _ v ⟨hne, hv⟩ => ?_
    subst hv
    have hl' : lastOk (setLast (c :: cs) (pushEntry (u.last ++ [c]) u)) := by
      subst hu
      exact hlast c cs rfl hne
    exact (((hbu.pushEntry hne _).countEntry).setLast _).inv_of_loop (by rw [hu]; exact hp)
      (((hru.pushEntry _).countEntry).setLast _) (hlu.append hbu hne (by simp) (hlu.last_length c) hl')

/-- A literal in FIRST: entry 3 is its character, and the width is that of DICTLEN = 4 (41_dictionary.md R123,
R124). -/
theorem literal_keeps_first {s : State} (h : EngineInv s) (hp : s.phase = .first) (ch : Char16) :
    ((seedAppend [ch] s).andThen fun _ s => finishFirst [ch] s).Keeps fun _ t => EngineInv t := by
  have hb := h.base
  have hr := h.run (.inl hp)
  have hf := h.first hp
  refine (seedAppend_keeps hb [ch]).andThen fun _ u ⟨hne, hu⟩ => ?_
  have hbu : BaseOk u := hu ▸ hb.pushEntry hne [ch]
  have hru : RunOk u := hu ▸ hr.pushEntry [ch]
  refine (emit_keeps hbu [ch]).andThen fun _ v ⟨hfit, hv⟩ => ?_
  subst hv
  refine (((hbu.writeOut hfit).setLast [ch]).enterLoop).inv_of_loop rfl
    (((hru.writeOut hfit).setLast [ch]).enterLoop) ?_
  subst hu
  have hdict : (pushEntry [ch] s).dictLen = 4 := by rw [pushEntry_dictLen, hf.dictLen]; rfl
  have hentries : entriesOk s := fun k h3 hk => by
    rw [hf.dictLen] at hk
    exact absurd hk (Nat.not_lt.2 h3)
  have hlen : [ch].length ≤ s.dictLen.toNat - 2 := by rw [hf.dictLen]; exact Nat.le_refl 1
  refine ⟨?_, ?_, entriesOk_pushEntry hentries hb hne (by simp) hlen, lastOk_of_new hb hne [ch]⟩
  · show 4 ≤ (pushEntry [ch] s).dictLen.toNat
    rw [hdict]; decide
  · show (s.indexBits + 1).toNat = bitlength (pushEntry [ch] s).dictLen.toNat ∧
      s.eug.toNat + (pushEntry [ch] s).dictLen.toNat = 2 ^ (s.indexBits + 1).toNat
    rw [hdict, hf.indexBits, hf.eug]
    decide

/-- A literal in LOOP: two appends, the character's own entry first (42_tokens.md R141). -/
theorem literal_keeps_loop {s : State} (h : EngineInv s) (hp : s.phase = .loop) (ch : Char16) :
    ((append [ch] s).andThen fun _ s => finishLoop [ch] s).Keeps fun _ t => EngineInv t := by
  have hb := h.base
  have hl := h.loop hp
  refine (append_keeps hb [ch]).andThen fun _ u ⟨hne, hu⟩ => ?_
  have hbu : BaseOk u := hu ▸ (hb.pushEntry hne [ch]).countEntry
  have hru : RunOk u := hu ▸ ((h.run (.inr hp)).pushEntry [ch]).countEntry
  have h4 := hl.dictLen
  have hlu : LoopOk u := by
    obtain ⟨k, h3, hk, hget⟩ := hl.last
    rw [hu]
    exact hl.append hb hne (by simp) (by simp; omega) (lastOk_of_entry hb hne h3 hk hget [ch])
  refine finishLoop_keeps hbu (by rw [hu]; exact hp) hru hlu fun c cs _ hne' => ?_
  have hk : s.dictLen.toNat < u.dictLen.toNat := by
    rw [hu, countEntry_dictLen, pushEntry_dictLen, hb.dictLen_succ hne]; omega
  have hget : memGet u.dict s.dictLen.toNat = some [ch] := by rw [hu]; exact memGet_pushEntry_new [ch] s
  exact lastOk_of_entry hbu hne' hb.dictLen_ge hk hget _

theorem literal_inv {s t : State} {ch : Char16} (h : EngineInv s) (ht : literal ch s = .next t) : EngineInv t := by
  unfold literal at ht
  cases hp : s.phase <;> rw [hp] at ht
  case first => exact (literal_keeps_first h hp ch).inv_of_conclude ht
  case loop => exact (literal_keeps_loop h hp ch).inv_of_conclude ht
  all_goals cases ht

theorem execEndMark_inv {s t : State} (h : EngineInv s) (ht : execEndMark s = .next t) : EngineInv t := by
  unfold execEndMark at ht
  cases hp : s.phase <;> rw [hp] at ht <;> cases ht
  case first => exact h.base.inv_endRun (h.run (.inl hp)).outWritten
  case loop => exact h.base.inv_endRun (h.run (.inr hp)).outWritten

theorem execRef_inv {s t : State} {k : Nat} (h : EngineInv s) (ht : execRef k s = .next t) : EngineInv t := by
  unfold execRef at ht
  cases hp : s.phase <;> rw [hp] at ht
  case loop =>
    simp only at ht
    split_ifs at ht with hk
    refine Eff.Keeps.inv_of_conclude (?_ : Eff.Keeps _ _) ht
    unfold lookupEntry
    cases hget : memGet s.dict k with
    | none => trivial
    | some tok =>
      exact finishLoop_keeps h.base hp (h.run (.inr hp)) (h.loop hp) fun c cs _ hne =>
        lastOk_of_entry h.base hne hk.1 hk.2 hget _
  all_goals cases ht

theorem execSelfRef_inv {s t : State} (h : EngineInv s) (ht : execSelfRef s = .next t) : EngineInv t := by
  unfold execSelfRef at ht
  cases hp : s.phase <;> rw [hp] at ht
  case first => cases ht; exact h.base.inv_errorEntry (by decide) _
  case loop =>
    refine Eff.Keeps.inv_of_conclude (?_ : Eff.Keeps _ _) ht
    cases hlast : s.last with
    | nil => trivial
    | cons c cs =>
      refine finishLoop_keeps h.base hp (h.run (.inr hp)) (h.loop hp) fun c' cs' htok hne => ?_
      rw [hlast] at htok
      obtain rfl : c = c' := (List.cons.inj htok).1
      rw [hlast]
      exact lastOk_of_new h.base hne _
  all_goals cases ht

theorem execBadLoop_inv {s t : State} {c : Nat} (h : EngineInv s) (ht : execBadLoop c s = .next t) : EngineInv t := by
  unfold execBadLoop at ht
  cases hp : s.phase <;> rw [hp] at ht <;> simp only at ht
  case first => split_ifs at ht; cases ht; exact h.base.inv_errorEntry (by decide) _
  case loop => split_ifs at ht; cases ht; exact h.base.inv_errorEntry (by decide) _
  all_goals cases ht

theorem execBadFirst_inv {s t : State} (h : EngineInv s) (ht : execBadFirst s = .next t) : EngineInv t := by
  unfold execBadFirst at ht
  cases hp : s.phase <;> rw [hp] at ht <;> cases ht
  exact h.base.inv_errorEntry (by decide) _

/-- Every token keeps the invariant, wherever it is run. -/
theorem exec_inv {s t : State} {i : Instr} (h : EngineInv s) (ht : exec i s = .next t) : EngineInv t := by
  cases i with
  | lit8 ch => exact literal_inv h ht
  | lit16 ch => exact literal_inv h ht
  | endMark => exact execEndMark_inv h ht
  | ref k => exact execRef_inv h ht
  | selfRef => exact execSelfRef_inv h ht
  | badLoop c => exact execBadLoop_inv h ht
  | badFirst => exact execBadFirst_inv h ht

/-! ## The engine's steps -/

theorem tokenStep_inv {s t : State} (h : EngineInv s) (hp : s.phase = .first ∨ s.phase = .loop)
    (ht : tokenStep s = .next t) : EngineInv t := by
  have hk := fetchToken_keeps h.base (h.run hp).reader
  unfold tokenStep at ht
  cases hf : fetchToken s with
  | ok i u =>
    rw [hf] at hk ht
    obtain ⟨hsu, hru⟩ := hk
    exact exec_inv (h.of_reader hp hsu hru) ht
  | raised e w u =>
    rw [hf] at hk ht
    obtain ⟨he, hbu⟩ := hk
    cases ht
    exact hbu.inv_errorEntry he w
  | stop r => rw [hf] at ht; cases ht

theorem loopStep_inv {s t : State} (h : EngineInv s) (hp : s.phase = .loop) (ht : loopStep s = .next t) :
    EngineInv t := by
  unfold loopStep at ht
  split_ifs at ht
  · cases ht
    exact h.base.inv_errorEntry (by decide) _
  · exact tokenStep_inv h (.inr hp) ht

theorem BaseOk.latchRun {s : State} (h : BaseOk s) : BaseOk (latchRun s) :=
  { h with outLen_le := Nat.zero_le _, errInfo := fun _ => rfl }

theorem outOk_latchRun (s : State) : outOk (latchRun s) := fun i hi => absurd hi (Nat.not_lt_zero i)

theorem BaseOk.seedRun {s : State} (h : BaseOk s) {v : BitVec 7} (hv : v.toNat ≤ 64) : BaseOk (seedRun v s) :=
  { h with
    dictWf := List.Pairwise.nil, dictBelow := by simp, dictLen_ge := Nat.le_refl 3
    dictLen_le := Nat.le_of_succ_le h.config.2, bitPos := by simp [oneHot], value_le := hv }

/-- INIT_STEP latches the input it seeds the reader from, so the run starts in order (43_driver.md R161 to R163). -/
theorem runOk_seedRun {s : State} {v : BitVec 7} (hmax : ¬ s.config.maxIn < s.inLen) (hn : s.inLen ≠ 0)
    (hv : mapSymbol s.ctrlAlphabet (inSymbol s 0) = some v) : RunOk (seedRun v (latchRun s)) where
  reader :=
    { bitPos := by simp [oneHot]
      symIdx_pos := Nat.le_refl 1
      symIdx_le := by
        have : s.inLen.toNat ≠ 0 := fun h0 => hn (BitVec.eq_of_toNat_eq h0)
        exact Nat.one_le_iff_ne_zero.2 this
      value := hv
      drained := fun h => absurd h (by simp) }
  n_eq := rfl
  alpha_eq := rfl
  n_le := Nat.not_lt.1 hmax
  noError := rfl
  outWritten := outOk_latchRun s

theorem initStep_inv {s t : State} (h : EngineInv s) (ht : initStep s = .next t) : EngineInv t := by
  have hb : BaseOk (latchRun s) := h.base.latchRun
  simp only [initStep] at ht
  split_ifs at ht with hmax hn
  · cases ht
    exact hb.inv_errorEntry (by decide) _
  · cases ht
    exact hb.inv_endRun (outOk_latchRun s)
  · cases hv : mapSymbol (latchRun s).alpha (inSymbol (latchRun s) 0) with
    | none =>
      rw [hv] at ht; cases ht
      exact hb.inv_errorEntry (by decide) _
    | some v =>
      rw [hv] at ht; cases ht
      exact (hb.seedRun (mapSymbol_le hv)).inv_of_first rfl (runOk_seedRun hmax hn hv) ⟨rfl, rfl, rfl, rfl, rfl, rfl⟩

theorem engineStep_inv {s t : State} (h : EngineInv s) (ht : engineStep s = .next t) : EngineInv t := by
  unfold engineStep at ht
  cases hp : s.phase <;> rw [hp] at ht
  case init => exact initStep_inv h ht
  case first => exact tokenStep_inv h (.inl hp) ht
  case loop => exact loopStep_inv h hp ht
  all_goals cases ht; exact h

/-! ## The moves of the host and of reset -/

/-- The invariant does not look at the host's side of the model (log entries 4, 7, 8). -/
theorem EngineInv.hostSide {s : State} (h : EngineInv s) (host : List HostMove) (w : Word) (d : Nat) :
    EngineInv { s with host := host, readData := w, draws := d } :=
  { h with
    run := fun hp => { h.run hp with reader := { (h.run hp).reader with } }
    first := fun hp => { h.first hp with }
    loop := fun hp => { h.loop hp with } }

theorem engineInv_reset (c : Config) (hc : c.wf) (epoch draws : Nat) (host : List HostMove) (w : Word) :
    EngineInv { State.reset with config := c, epoch := epoch, draws := draws, host := host, readData := w } := by
  refine BaseOk.inv_of_idle ?_ rfl ⟨rfl, rfl⟩
  exact { config := hc
          inputWf := List.Pairwise.nil
          outWf := List.Pairwise.nil
          dictWf := List.Pairwise.nil
          inputBelow := by simp [State.reset]
          outBelow := by simp [State.reset]
          dictBelow := by simp [State.reset]
          dictLen_ge := Nat.le_refl 3
          dictLen_le := Nat.le_of_succ_le hc.2
          outLen_le := Nat.zero_le _
          bitPos := by simp [oneHot, State.reset]
          value_le := Nat.zero_le _
          errInfo := fun _ => rfl }

/-- Outside BUSY the host's registers may change: no clause speaks of them there. -/
theorem EngineInv.hostRegisters {s : State} (h : EngineInv s) (hbusy : busy s = false) (a : Alphabet) (l : Word) :
    EngineInv { s with ctrlAlphabet := a, inLen := l } := by
  have hnot := mt (busy_iff s).2 (by simp [hbusy])
  exact
    { h with
      run := fun hp => absurd (Or.inr hp) hnot
      first := fun hp => absurd (.inr (.inl hp)) hnot
      loop := fun hp => absurd (.inr (.inr hp)) hnot }

theorem BaseOk.inv_startRun {s : State} (h : BaseOk s) : EngineInv (startRun s) :=
  BaseOk.inv_of_init (s := Machine.startRun s) { h with } rfl

theorem ctrlWrite_inv {s t : State} {data : Word} (h : EngineInv s) (ht : ctrlWrite data s = .next t) :
    EngineInv t := by
  simp only [ctrlWrite] at ht
  split_ifs at ht with hbusy _ hstart
  · cases ht
    exact h
  · cases ht
    exact BaseOk.inv_startRun { h.base with }
  · cases ht
    exact h.hostRegisters (by simpa using hbusy) _ s.inLen

theorem inLenWrite_inv {s t : State} {data : Word} (h : EngineInv s) (ht : inLenWrite data s = .next t) :
    EngineInv t := by
  unfold inLenWrite at ht
  split_ifs at ht with hbusy
  cases ht
  exact h.hostRegisters (by simpa using hbusy) s.ctrlAlphabet _

theorem csrWriteWord_inv {s t : State} {offset : Nat} {data : Word} (h : EngineInv s)
    (ht : csrWriteWord offset data s = .next t) : EngineInv t := by
  unfold csrWriteWord at ht
  split_ifs at ht
  · exact ctrlWrite_inv h ht
  · exact inLenWrite_inv h ht
  · cases ht
    exact h

theorem csrAccess_eq_next {offset width : Nat} {k : Host.Outcome State Fault Refusal} {t : State}
    (h : csrAccess offset width k = .next t) : k = .next t := by
  unfold csrAccess at h
  split_ifs at h
  exact h

theorem returnWord_inv {s t : State} {w : Word} (h : EngineInv s) (ht : returnWord w s = .next t) : EngineInv t := by
  cases ht
  exact h.hostSide s.host w s.draws

theorem returnFreeWord_inv {s t : State} (h : EngineInv s) (ht : returnFreeWord s = .next t) : EngineInv t := by
  cases ht
  exact h.hostSide s.host _ _

theorem returnFreeChar_inv {s t : State} {f : Char16 → Word} (h : EngineInv s) (ht : returnFreeChar f s = .next t) :
    EngineInv t := by
  cases ht
  exact h.hostSide s.host _ _

theorem outLenRead_inv {s t : State} (h : EngineInv s) (ht : outLenRead s = .next t) : EngineInv t := by
  unfold outLenRead at ht
  split_ifs at ht
  · exact returnWord_inv h ht
  · exact returnFreeWord_inv h ht

theorem errInfoRead_inv {s t : State} (h : EngineInv s) (ht : errInfoRead s = .next t) : EngineInv t := by
  unfold errInfoRead at ht
  split_ifs at ht
  · exact returnFreeWord_inv h ht
  · exact returnWord_inv h ht

theorem csrReadWord_inv {s t : State} {offset : Nat} (h : EngineInv s) (ht : csrReadWord offset s = .next t) :
    EngineInv t := by
  unfold csrReadWord at ht
  split_ifs at ht
  · exact returnWord_inv h ht
  · exact returnWord_inv h ht
  · exact returnWord_inv h ht
  · exact outLenRead_inv h ht
  · exact errInfoRead_inv h ht
  · exact returnWord_inv h ht

/-- A write of IN that BUSY allows stands at or above IN_LEN, where the reader has not been (70_reset_and_hazards.md
R204). -/
theorem readerOk_inWrite {s : State} (hr : RunOk s) {i : Nat} (hi : s.inLen.toNat ≤ i) (b : Symbol) :
    ReaderOk { s with input := memPut s.input i b } := by
  have hpos := hr.reader.symIdx_pos
  have hle := hr.reader.symIdx_le
  have hne : s.symIdx.toNat - 1 ≠ i := by
    rw [hr.n_eq] at hle
    omega
  have hsame : inSymbol { s with input := memPut s.input i b } (s.symIdx.toNat - 1) =
      inSymbol s (s.symIdx.toNat - 1) := by
    unfold inSymbol
    rw [memGet_memPut_ne _ _ hne]
  exact { hr.reader with value := by rw [hsame]; exact hr.reader.value }

theorem inWrite_inv {s t : State} {i : Nat} {b : Symbol} (h : EngineInv s) (ht : inWrite i b s = .next t) :
    EngineInv t := by
  unfold inWrite at ht
  split_ifs at ht with hmax hbusy
  cases ht
  have habove (hp : s.phase = .first ∨ s.phase = .loop) : s.inLen.toNat ≤ i :=
    Nat.not_lt.1 fun hlt => hbusy ⟨(busy_iff s).2 (.inr hp), hlt⟩
  refine
    { h with
      inputWf := memPut_wf h.inputWf i b
      inputBelow := fun p hp => ?_
      run := fun hp => { h.run hp with reader := readerOk_inWrite (h.run hp) (habove hp) b }
      first := fun hp => { h.first hp with }
      loop := fun hp => { h.loop hp with } }
  rcases mem_keys_memPut hp with hk | hmem
  · rw [hk]
    exact Nat.not_le.1 hmax
  · exact h.inputBelow p hmem

theorem inRead_inv {s t : State} {i : Nat} (h : EngineInv s) (ht : inRead i s = .next t) : EngineInv t := by
  unfold inRead at ht
  split_ifs at ht
  exact returnWord_inv h ht

theorem outReadWith_inv {s t : State} {f : Char16 → Word} {i : Nat} (h : EngineInv s)
    (ht : outReadWith f i s = .next t) : EngineInv t := by
  unfold outReadWith at ht
  split_ifs at ht
  cases hc : resultChar s i with
  | some c => rw [hc] at ht; exact returnWord_inv h ht
  | none => rw [hc] at ht; exact returnFreeChar_inv h ht

theorem agentMove_inv {s t : State} {m : HostMove} (h : EngineInv s) (ht : agentMove m s = .next t) :
    EngineInv t := by
  cases m with
  | engineTurn => exact engineStep_inv h ht
  | reset => cases ht; exact engineInv_reset s.config h.config _ _ _ _
  | csrWrite offset width data => exact csrWriteWord_inv h (csrAccess_eq_next ht)
  | csrRead offset width => exact csrReadWord_inv h (csrAccess_eq_next ht)
  | inWrite i b => exact inWrite_inv h ht
  | inRead i => exact inRead_inv h ht
  | outRead i => exact outReadWith_inv h ht
  | outReadByte a => exact outReadWith_inv h ht

/-! ## The statements -/

/-- Settles O51: the reset state is the idle state of the reference limits, which R8 allows. -/
theorem invariantHoldsAtReset : Obligations.InvariantHoldsAtReset :=
  engineInv_reset Config.reference (by decide) 0 0 [] 0

/-- Settles O52: the turn is the engine's, or the script's next move is made in a state that differs in the script
alone. -/
theorem invariantKeptByEveryStep : Obligations.InvariantKeptByEveryStep := by
  intro s t h ht
  cases hs : s.host with
  | nil =>
    rw [step_of_no_script hs] at ht
    exact engineStep_inv h ht
  | cons m rest =>
    rw [step_of_move hs] at ht
    exact agentMove_inv (h.hostSide rest s.readData s.draws) ht

end Sys2Proof.Machine
end

section
/-! The two sides of the machine (spec/20_memory.md R50, R56 to R58, R62, R63): the engine keeps out of the host's
side (`State.hostSide`), a host read moves only what the model keeps of the read itself, and an odd register access
is refused. -/

namespace Sys2Proof.Machine

open Sys2Proof

variable {α β : Type}

/-! ## The host's side of the state -/

/-- What no engine step writes: IN, IN_LEN, CTRL.ALPHABET, the parameters, and the model's own fields
of log entries 2, 4, 7 and 8. -/
structure HostSide where
  input : Memory Symbol
  inLen : Word
  ctrlAlphabet : Alphabet
  config : Config
  epoch : Nat
  draws : Nat
  host : List HostMove
  readData : Word

def State.hostSide (s : State) : HostSide :=
  { input := s.input, inLen := s.inLen, ctrlAlphabet := s.ctrlAlphabet, config := s.config
    epoch := s.epoch, draws := s.draws, host := s.host, readData := s.readData }

@[simp] theorem hostSide_errorEntry (e : ErrKind) (w : Word) (s : State) :
    (errorEntry e w s).hostSide = s.hostSide := rfl
@[simp] theorem hostSide_endRun (s : State) : (endRun s).hostSide = s.hostSide := rfl
@[simp] theorem hostSide_latchRun (s : State) : (latchRun s).hostSide = s.hostSide := rfl
@[simp] theorem hostSide_seedRun (v : BitVec 7) (s : State) : (seedRun v s).hostSide = s.hostSide := rfl

theorem hostSide_of_sameButReader {s t : State} (h : sameButReader s t) : t.hostSide = s.hostSide := by
  rw [h]; rfl

/-! ## The engine's operations leave it -/

/-- Whatever state the operation answers, with a value or with an error, has the host's side of `s`. -/
def Eff.KeepsHostSide (s : State) : Eff α → Prop
  | .ok _ t => t.hostSide = s.hostSide
  | .raised _ _ t => t.hostSide = s.hostSide
  | .stop _ => True

theorem Eff.KeepsHostSide.trans {s u : State} {m : Eff α} (hm : m.KeepsHostSide u) (h : u.hostSide = s.hostSide) :
    m.KeepsHostSide s := by
  cases m with
  | ok a t => exact Eq.trans hm h
  | raised e w t => exact Eq.trans hm h
  | stop r => trivial

theorem Eff.KeepsHostSide.andThen {s : State} {m : Eff α} {f : α → State → Eff β} (hm : m.KeepsHostSide s)
    (hf : ∀ a u, (f a u).KeepsHostSide u) : (m.andThen f).KeepsHostSide s := by
  cases m with
  | ok a u => exact (hf a u).trans hm
  | raised e w u => exact hm
  | stop r => trivial

theorem Eff.KeepsHostSide.of_conclude {s t : State} {m : Eff Unit} (hm : m.KeepsHostSide s)
    (h : conclude m = .next t) : t.hostSide = s.hostSide := by
  rcases conclude_eq_next h with rfl | ⟨e, w, u, rfl, rfl⟩
  · exact hm
  · exact hm

theorem append_keepsHostSide (str : Str) (s : State) : (append str s).KeepsHostSide s := by
  rcases append_cases str s with ⟨_, h⟩ | ⟨_, h⟩ <;> rw [h] <;> rfl

theorem seedAppend_keepsHostSide (str : Str) (s : State) : (seedAppend str s).KeepsHostSide s := by
  unfold seedAppend
  split <;> rfl

theorem emit_keepsHostSide (str : Str) (s : State) : (emit str s).KeepsHostSide s := by
  rcases emit_cases str s with ⟨_, h⟩ | ⟨_, h⟩ <;> rw [h] <;> rfl

theorem lookupEntry_keepsHostSide (k : Nat) (s : State) : (lookupEntry k s).KeepsHostSide s := by
  unfold lookupEntry
  cases memGet s.dict k with
  | none => trivial
  | some str => rfl

theorem firstChar_keepsHostSide (str : Str) (s : State) : (firstChar str s).KeepsHostSide s := by
  cases str with
  | nil => trivial
  | cons c cs => rfl

theorem finishFirst_keepsHostSide (tok : Str) (s : State) : (finishFirst tok s).KeepsHostSide s :=
  (emit_keepsHostSide tok s).andThen fun _ _ => rfl

theorem finishLoop_keepsHostSide (tok : Str) (s : State) : (finishLoop tok s).KeepsHostSide s :=
  (emit_keepsHostSide tok s).andThen fun _ u =>
    (firstChar_keepsHostSide tok u).andThen fun _ v =>
      (append_keepsHostSide _ v).andThen fun _ _ => rfl

theorem fetchToken_keepsHostSide (s : State) : (fetchToken s).KeepsHostSide s := by
  cases h : fetchToken s with
  | ok i t => exact hostSide_of_sameButReader (fetchToken_frame h)
  | raised e w t => exact hostSide_of_sameButReader (fetchToken_raised_frame h)
  | stop r => trivial

/-! ## The tokens leave it -/

theorem literal_hostSide {s t : State} {ch : Char16} (h : literal ch s = .next t) : t.hostSide = s.hostSide := by
  unfold literal at h
  cases hp : s.phase <;> rw [hp] at h
  case first =>
    exact ((seedAppend_keepsHostSide [ch] s).andThen fun _ u => finishFirst_keepsHostSide [ch] u).of_conclude h
  case loop =>
    exact ((append_keepsHostSide [ch] s).andThen fun _ u => finishLoop_keepsHostSide [ch] u).of_conclude h
  all_goals cases h

theorem execEndMark_hostSide {s t : State} (h : execEndMark s = .next t) : t.hostSide = s.hostSide := by
  unfold execEndMark at h
  cases hp : s.phase <;> rw [hp] at h <;> cases h
  case first => exact hostSide_endRun s
  case loop => exact hostSide_endRun s

theorem execRef_hostSide {s t : State} {k : Nat} (h : execRef k s = .next t) : t.hostSide = s.hostSide := by
  unfold execRef at h
  cases hp : s.phase <;> rw [hp] at h
  case loop =>
    simp only at h
    split_ifs at h
    exact ((lookupEntry_keepsHostSide k s).andThen finishLoop_keepsHostSide).of_conclude h
  all_goals cases h

theorem execSelfRef_hostSide {s t : State} (h : execSelfRef s = .next t) : t.hostSide = s.hostSide := by
  unfold execSelfRef at h
  cases hp : s.phase <;> rw [hp] at h
  case first => cases h; exact hostSide_errorEntry _ _ s
  case loop =>
    exact ((firstChar_keepsHostSide s.last s).andThen fun _ u => finishLoop_keepsHostSide _ u).of_conclude h
  all_goals cases h

theorem execBadLoop_hostSide {s t : State} {c : Nat} (h : execBadLoop c s = .next t) : t.hostSide = s.hostSide := by
  unfold execBadLoop at h
  cases hp : s.phase <;> rw [hp] at h <;> simp only at h
  case first => split_ifs at h; cases h; exact hostSide_errorEntry _ _ s
  case loop => split_ifs at h; cases h; exact hostSide_errorEntry _ _ s
  all_goals cases h

theorem execBadFirst_hostSide {s t : State} (h : execBadFirst s = .next t) : t.hostSide = s.hostSide := by
  unfold execBadFirst at h
  cases hp : s.phase <;> rw [hp] at h <;> cases h
  exact hostSide_errorEntry _ _ s

/-- No token modifies the stream it stands in (20_memory.md R62). -/
theorem exec_hostSide {s t : State} {i : Instr} (h : exec i s = .next t) : t.hostSide = s.hostSide := by
  cases i with
  | lit8 ch => exact literal_hostSide h
  | lit16 ch => exact literal_hostSide h
  | endMark => exact execEndMark_hostSide h
  | ref k => exact execRef_hostSide h
  | selfRef => exact execSelfRef_hostSide h
  | badLoop c => exact execBadLoop_hostSide h
  | badFirst => exact execBadFirst_hostSide h

/-! ## The engine's steps leave it -/

theorem tokenStep_hostSide {s t : State} (h : tokenStep s = .next t) : t.hostSide = s.hostSide := by
  have hk := fetchToken_keepsHostSide s
  unfold tokenStep at h
  cases hf : fetchToken s with
  | ok i u =>
    rw [hf] at hk h
    exact (exec_hostSide h).trans hk
  | raised e w u =>
    rw [hf] at hk h
    cases h
    exact (hostSide_errorEntry e w u).trans hk
  | stop r => rw [hf] at h; cases h

theorem loopStep_hostSide {s t : State} (h : loopStep s = .next t) : t.hostSide = s.hostSide := by
  unfold loopStep at h
  split_ifs at h
  · cases h; exact hostSide_errorEntry _ _ s
  · exact tokenStep_hostSide h

theorem initStep_hostSide {s t : State} (h : initStep s = .next t) : t.hostSide = s.hostSide := by
  simp only [initStep] at h
  split_ifs at h
  · cases h; simp
  · cases h; simp
  · cases hv : mapSymbol (latchRun s).alpha (inSymbol (latchRun s) 0) <;> rw [hv] at h <;> cases h <;> simp

theorem engineStep_hostSide {s t : State} (h : engineStep s = .next t) : t.hostSide = s.hostSide := by
  unfold engineStep at h
  cases hp : s.phase <;> rw [hp] at h
  case init => exact initStep_hostSide h
  case first => exact tokenStep_hostSide h
  case loop => exact loopStep_hostSide h
  all_goals cases h; rfl

/-! ## A host read moves only what the model keeps of the read -/

/-- `t` is `s` but for the word returned and the count of free values (log entries 4 and 8). -/
def sameButReadData (s t : State) : Prop := t = { s with readData := t.readData, draws := t.draws }

theorem returnWord_sameButReadData {s t : State} {w : Word} (h : returnWord w s = .next t) :
    sameButReadData s t := by
  cases h; rfl

theorem returnFreeWord_sameButReadData {s t : State} (h : returnFreeWord s = .next t) : sameButReadData s t := by
  cases h; rfl

theorem returnFreeChar_sameButReadData {s t : State} {f : Char16 → Word} (h : returnFreeChar f s = .next t) :
    sameButReadData s t := by
  cases h; rfl

theorem outLenRead_sameButReadData {s t : State} (h : outLenRead s = .next t) : sameButReadData s t := by
  unfold outLenRead at h
  split_ifs at h
  · exact returnWord_sameButReadData h
  · exact returnFreeWord_sameButReadData h

theorem errInfoRead_sameButReadData {s t : State} (h : errInfoRead s = .next t) : sameButReadData s t := by
  unfold errInfoRead at h
  split_ifs at h
  · exact returnFreeWord_sameButReadData h
  · exact returnWord_sameButReadData h

theorem csrReadWord_sameButReadData {s t : State} {offset : Nat} (h : csrReadWord offset s = .next t) :
    sameButReadData s t := by
  unfold csrReadWord at h
  split_ifs at h
  · exact returnWord_sameButReadData h
  · exact returnWord_sameButReadData h
  · exact returnWord_sameButReadData h
  · exact outLenRead_sameButReadData h
  · exact errInfoRead_sameButReadData h
  · exact returnWord_sameButReadData h

theorem inRead_sameButReadData {s t : State} {i : Nat} (h : inRead i s = .next t) : sameButReadData s t := by
  unfold inRead at h
  split_ifs at h
  exact returnWord_sameButReadData h

theorem outReadWith_sameButReadData {s t : State} {f : Char16 → Word} {i : Nat} (h : outReadWith f i s = .next t) :
    sameButReadData s t := by
  unfold outReadWith at h
  split_ifs at h
  cases hc : resultChar s i with
  | some c => rw [hc] at h; exact returnWord_sameButReadData h
  | none => rw [hc] at h; exact returnFreeChar_sameButReadData h

/-! ## Odd register accesses -/

theorem csrAccess_misaligned {offset : Nat} (h : offset % 4 ≠ 0) (width : Nat)
    (k : Host.Outcome State Fault Refusal) : csrAccess offset width k = .refused .csrMisaligned := if_pos h

theorem csrAccess_notWholeWord {offset width : Nat} (h4 : offset % 4 = 0) (h : width ≠ 32)
    (k : Host.Outcome State Fault Refusal) : csrAccess offset width k = .refused .csrNotWholeWord := by
  simp [csrAccess, h4, h]

/-- A read and a write of a register pass the same check of offset and width. -/
theorem step_csrAccess {s : State} {rest : List HostMove} {offset width : Nat} {data : Word}
    (h : s.host = .csrRead offset width :: rest ∨ s.host = .csrWrite offset width data :: rest) :
    ∃ k, step s = csrAccess offset width k := by
  rcases h with h | h
  · exact ⟨_, step_of_move h⟩
  · exact ⟨_, step_of_move h⟩

/-! ## The statements -/

/-- Settles O58: with an empty script the step is the engine's, and each of the engine's steps keeps the host's
side. -/
theorem engineNeverWritesTheHostSide : Obligations.EngineNeverWritesTheHostSide := by
  intro s t hs ht
  rw [step_of_no_script hs] at ht
  have h : t.hostSide = s.hostSide := engineStep_hostSide ht
  simp only [State.hostSide, HostSide.mk.injEq] at h
  rwa [hs] at h

/-- Settles O46: each kind of read, made in a state that differs from `s` in the script alone. -/
theorem hostReadsHaveNoSideEffect : Obligations.HostReadsHaveNoSideEffect := by
  intro s t m rest hs hm ht
  rw [step_of_move hs] at ht
  have hsame : sameButReadData { s with host := rest } t := by
    obtain ⟨offset, width, rfl⟩ | ⟨i, rfl⟩ | ⟨i, rfl⟩ | ⟨a, rfl⟩ := hm
    · exact csrReadWord_sameButReadData (csrAccess_eq_next ht)
    · exact inRead_sameButReadData ht
    · exact outReadWith_sameButReadData ht
    · exact outReadWith_sameButReadData ht
  exact hsame

/-- Settles O49, by the two refusals of the access check. -/
theorem oddRegisterAccessesAreRefused : Obligations.OddRegisterAccessesAreRefused := by
  intro s rest offset width data h
  obtain ⟨k, hk⟩ := step_csrAccess h
  rw [hk]
  exact ⟨fun hoff => csrAccess_misaligned hoff width k, fun h4 hw => csrAccess_notWholeWord h4 hw k⟩

end Sys2Proof.Machine
end

section
/-! The alphabets, the bit stream and the tokens (spec/30_encoding.md R70 to R83). A symbol is mapped back to the value
it was written for, so packed symbols give their bits back; a code and a token's class determine each other
(`codeClass_eq_iff`), so the decoder and the encoder are inverse on the tokens of a context. -/

namespace Sys2Proof

/-! ## Symbols and values -/

@[simp] theorem mapSymbol_symbolOf (a : Alphabet) {v : Nat} (h : v ≤ 64) :
    mapSymbol a (symbolOf a v) = some (BitVec.ofNat 7 v) := by
  have hall : ∀ v : Fin 65, mapSymbol a (symbolOf a v) = some (BitVec.ofNat 7 v) := by cases a <;> decide
  exact hall ⟨v, Nat.lt_succ_of_le h⟩

theorem symbolOf_of_mapSymbol {a : Alphabet} {s : Symbol} {v : BitVec 7} (h : mapSymbol a s = some v) :
    symbolOf a v.toNat = s := by
  have hall : ∀ s : Symbol, (mapSymbol a s).all (fun v => symbolOf a v.toNat = s) = true := by cases a <;> decide
  simpa [h] using hall s

/-- `symbolOf` and `mapSymbol` are inverse on the values 0 to 64. -/
theorem mapSymbol_eq_some_iff {a : Alphabet} {s : Symbol} {v : BitVec 7} :
    mapSymbol a s = some v ↔ v.toNat ≤ 64 ∧ symbolOf a v.toNat = s := by
  constructor
  · exact fun h => ⟨Machine.mapSymbol_le h, symbolOf_of_mapSymbol h⟩
  · rintro ⟨hv, rfl⟩
    simp [hv]

/-- The code units of an alphabet in the order of their values (R70). -/
def alphabetTable : Alphabet → List Nat
  | .uriSafe => List.range' 0x41 26 ++ List.range' 0x61 26 ++ List.range' 0x30 10 ++ [0x2B, 0x2D, 0x24]
  | .base64 => List.range' 0x41 26 ++ List.range' 0x61 26 ++ List.range' 0x30 10 ++ [0x2B, 0x2F, 0x3D]

theorem alphabetTable_getElem? (a : Alphabet) (n : Nat) :
    (alphabetTable a)[n]? = if n ≤ 64 then some (symbolOf a n).toNat else none := by
  have h : alphabetTable a = (List.range 65).map fun v => (symbolOf a v).toNat := by cases a <;> decide
  by_cases hn : n ≤ 64
  · simp [h, hn, List.getElem?_range (Nat.lt_succ_of_le hn)]
  · simp [h, hn, Nat.succ_le_of_lt (Nat.lt_of_not_le hn)]

theorem mapSymbol_eq_some_iff_table (a : Alphabet) (s : Symbol) (v : BitVec 7) :
    mapSymbol a s = some v ↔ (alphabetTable a)[v.toNat]? = some s.toNat := by
  simp [mapSymbol_eq_some_iff, alphabetTable_getElem?, BitVec.toNat_inj]

/-- Settles O3: both tables list the symbols of the values 0 to 64. -/
theorem alphabetTablesAsListed : Obligations.AlphabetTablesAsListed := fun s v =>
  ⟨mapSymbol_eq_some_iff_table .uriSafe s v, mapSymbol_eq_some_iff_table .base64 s v⟩

/-! ## The bits of mapped symbols -/

theorem mappedBits_cons {a : Alphabet} {s : Symbol} {v : BitVec 7} (h : mapSymbol a s = some v) (ss : List Symbol) :
    mappedBits a (s :: ss) = symbolBits v ++ mappedBits a ss := by
  simp [mappedBits, h]

theorem firstUnmapped_cons {a : Alphabet} {s : Symbol} {v : BitVec 7} (h : mapSymbol a s = some v) (base : Nat)
    (ss : List Symbol) : firstUnmapped a base (s :: ss) = firstUnmapped a (base + 1) ss := by
  simp [firstUnmapped, h]

/-- Settles O5: the values 64 and 0 differ in bit 6 alone, which is never read. -/
theorem paddingSymbolsReadAsZeroBits : Obligations.PaddingSymbolsReadAsZeroBits := by
  have h64 : symbolBits 64 = List.replicate 6 false := by decide
  have h0 : symbolBits 0 = List.replicate 6 false := by decide
  intro ss
  have hdollar := mappedBits_cons (a := .uriSafe) (s := 0x24) (v := 64) (by decide) ss
  have hequals := mappedBits_cons (a := .base64) (s := 0x3D) (v := 64) (by decide) ss
  have hA (a : Alphabet) := mappedBits_cons (a := a) (s := 0x41) (v := 0) (by cases a <;> decide) ss
  simp only [hdollar, hequals, hA, h64, h0, and_self]

/-! ## Streams without the symbols on which the alphabets differ (R72) -/

section Agree

variable {a b : Alphabet} {syms : List Symbol} (h : ∀ s ∈ syms, mapSymbol a s = mapSymbol b s)
include h

theorem mappedBits_congr : mappedBits a syms = mappedBits b syms := by
  induction syms with
  | nil => rfl
  | cons s ss ih =>
    rw [List.forall_mem_cons] at h
    simp only [mappedBits, h.1, ih h.2]

theorem firstUnmapped_congr (base : Nat) : firstUnmapped a base syms = firstUnmapped b base syms := by
  induction syms generalizing base with
  | nil => rfl
  | cons s ss ih =>
    rw [List.forall_mem_cons] at h
    simp only [firstUnmapped, h.1, ih h.2]

/-- The decoder looks at an alphabet only through the symbols it is given. -/
theorem decodeFrom_congr (x : TokenCtx) (ahead : List Bool) (base : Nat) :
    decodeFrom a x ahead base syms = decodeFrom b x ahead base syms := by
  simp only [decodeFrom, mappedBits_congr h, firstUnmapped_congr h]

end Agree

theorem mapSymbol_uriSafe_eq_base64 :
    ∀ s : Symbol, s ≠ 0x2D ∧ s ≠ 0x24 ∧ s ≠ 0x2F ∧ s ≠ 0x3D → mapSymbol .uriSafe s = mapSymbol .base64 s := by
  decide

/-- Settles O4: off the four symbols the two tables are the same. -/
theorem alphabetsAgreeOffTheDivergentSymbols : Obligations.AlphabetsAgreeOffTheDivergentSymbols :=
  fun x _ h => decodeFrom_congr (fun s hs => mapSymbol_uriSafe_eq_base64 s (h s hs)) x [] 0

/-! ## Packed symbols (R74, R83) -/

theorem sixBits_le (b5 b4 b3 b2 b1 b0 : Bool) : sixBits b5 b4 b3 b2 b1 b0 ≤ 64 := by
  revert b5 b4 b3 b2 b1 b0; decide

theorem symbolBits_sixBits (b5 b4 b3 b2 b1 b0 : Bool) :
    symbolBits (BitVec.ofNat 7 (sixBits b5 b4 b3 b2 b1 b0)) = [b5, b4, b3, b2, b1, b0] := by
  revert b5 b4 b3 b2 b1 b0; decide

@[simp] theorem mappedBits_symbolOf_sixBits (a : Alphabet) (b5 b4 b3 b2 b1 b0 : Bool) (ss : List Symbol) :
    mappedBits a (symbolOf a (sixBits b5 b4 b3 b2 b1 b0) :: ss) = [b5, b4, b3, b2, b1, b0] ++ mappedBits a ss := by
  rw [mappedBits_cons (mapSymbol_symbolOf a (sixBits_le ..)), symbolBits_sixBits]

@[simp] theorem firstUnmapped_symbolOf_sixBits (a : Alphabet) (b5 b4 b3 b2 b1 b0 : Bool) (base : Nat)
    (ss : List Symbol) :
    firstUnmapped a base (symbolOf a (sixBits b5 b4 b3 b2 b1 b0) :: ss) = firstUnmapped a (base + 1) ss :=
  firstUnmapped_cons (mapSymbol_symbolOf a (sixBits_le ..)) base ss

/-- Packed symbols give the bits back, and the 0 bits that fill the last symbol. -/
theorem mappedBits_packSymbols (a : Alphabet) (bits : List Bool) :
    ∃ k, k < 6 ∧ mappedBits a (packSymbols a bits) = bits ++ List.replicate k false := by
  induction bits using packSymbols.induct with
  | case1 b5 b4 b3 b2 b1 b0 rest ih =>
    obtain ⟨k, hk, h⟩ := ih
    exact ⟨k, hk, by simp [packSymbols, h]⟩
  | case2 => exact ⟨1, by decide, by simp [packSymbols, mappedBits]⟩
  | case3 => exact ⟨2, by decide, by simp [packSymbols, mappedBits]⟩
  | case4 => exact ⟨3, by decide, by simp [packSymbols, mappedBits]⟩
  | case5 => exact ⟨4, by decide, by simp [packSymbols, mappedBits]⟩
  | case6 => exact ⟨5, by decide, by simp [packSymbols, mappedBits]⟩
  | case7 => exact ⟨0, by decide, rfl⟩

@[simp] theorem firstUnmapped_packSymbols (a : Alphabet) (base : Nat) (bits : List Bool) :
    firstUnmapped a base (packSymbols a bits) = none := by
  induction bits using packSymbols.induct generalizing base with
  | case1 b5 b4 b3 b2 b1 b0 rest ih => simp [packSymbols, ih]
  | case2 | case3 | case4 | case5 | case6 => simp [packSymbols, firstUnmapped]
  | case7 => rfl

/-- Where every symbol is mapped, the decoder's answer on the bits is its answer on the symbols. -/
theorem decodeSymbols_of_decodeBits {a : Alphabet} {x : TokenCtx} {syms : List Symbol} {i : Instr} {rest : List Bool}
    (hu : firstUnmapped a 0 syms = none) (hd : decodeBits x (mappedBits a syms) = some (i, rest)) :
    decodeSymbols a x syms = .token i rest := by
  cases rest <;> simp [decodeSymbols, decodeFrom, hd, hu]

/-! ## The opcode map (R78) -/

/-- What the code of a token selects. -/
def Instr.classOf : Instr → CodeClass
  | .lit8 _ => .lit8
  | .lit16 _ => .lit16
  | .endMark => .endMark
  | .ref k => .ref k
  | .selfRef => .selfRef
  | .badLoop c => .badLoop c
  | .badFirst => .badFirst

/-- The opcode map as one equivalence: a W-bit code selects a token's class exactly when the token can stand in the
context and the code is its own. In FIRST, where DICTLEN is 3, two bits leave no code above it; in LOOP the codes 0 to 2
lie below DICTLEN. -/
theorem codeClass_eq_iff {x : TokenCtx} {c : Nat} (hx : x.legal) (hc : c < 2 ^ x.width) (i : Instr) :
    codeClass x c = i.classOf ↔ i.wellFormed x = true ∧ codeOf x i = c := by
  rcases hx with ⟨hf, hw, hd⟩ | ⟨hf, hd, -⟩
  · have h4 : c < 4 := by simpa [hw] using hc
    cases i <;> simp only [codeClass, hf, hd, Instr.classOf, Instr.wellFormed, codeOf] <;> grind
  · cases i <;> simp only [codeClass, hf, Instr.classOf, Instr.wellFormed, codeOf] <;> grind

/-- The per-token statements of `Laws.CodeFits`, put together. -/
theorem codeOf_lt {x : TokenCtx} {i : Instr} (hx : x.legal) (hi : i.wellFormed x = true) :
    codeOf x i < 2 ^ x.width :=
  match i with
  | .lit8 ch => Laws.CodeFits.lit8 ch x hx hi
  | .lit16 ch => Laws.CodeFits.lit16 ch x hx hi
  | .endMark => Laws.CodeFits.endMark x hx hi
  | .ref k => Laws.CodeFits.ref k x hx hi
  | .selfRef => Laws.CodeFits.selfRef x hx hi
  | .badLoop c => Laws.CodeFits.badLoop c x hx hi
  | .badFirst => Laws.CodeFits.badFirst x hx hi

/-- Settles O9: the opcode map at SELF's code, at the codes above it and at the four codes of FIRST. -/
theorem illegalCodesExistExactlyBelowFullWidth : Obligations.IllegalCodesExistExactlyBelowFullWidth := by
  constructor
  · intro x hx hf
    have hlt := Laws.CodeFits.dictLen_lt hx
    have hself : codeClass x x.dictLen = .selfRef :=
      (codeClass_eq_iff hx hlt .selfRef).2 ⟨by simp [Instr.wellFormed, hf], rfl⟩
    have hbad (c : Nat) (hc : c < 2 ^ x.width) : codeClass x c = .badLoop c ↔ x.dictLen < c :=
      (codeClass_eq_iff hx hc (.badLoop c)).trans (by simp [Instr.wellFormed, codeOf, hf, hc])
    refine ⟨hlt, hself, fun ⟨c, hc, h⟩ => ?_, fun h => ⟨x.dictLen + 1, by omega, ?_⟩⟩
    · have := (hbad c hc).1 h
      omega
    · exact (hbad _ (by omega)).2 (by omega)
  · intro x hx hf c hc
    refine ⟨(codeClass_eq_iff hx hc .badFirst).trans ?_, fun k => ⟨fun h => ?_, fun h => ?_⟩⟩
    · simp [Instr.wellFormed, codeOf, hf, eq_comm]
    · have := (codeClass_eq_iff hx hc (.badLoop k)).1 h
      simp [Instr.wellFormed, hf] at this
    · have := (codeClass_eq_iff hx hc (.ref k)).1 h
      simp [Instr.wellFormed, hf] at this

/-! ## Tokens as bits (R75 to R77) -/

/-- The part of `decodeBits` after the code: the operand field that a class asks for. -/
def takeOperand (k : CodeClass) (bits : List Bool) : Option (Instr × List Bool) :=
  match k with
  | .lit8 => (takeField 8 bits).map fun p => (.lit8 (BitVec.ofNat 8 p.1), p.2)
  | .lit16 => (takeField 16 bits).map fun p => (.lit16 (BitVec.ofNat 16 p.1), p.2)
  | .endMark => some (.endMark, bits)
  | .ref k => some (.ref k, bits)
  | .selfRef => some (.selfRef, bits)
  | .badLoop c => some (.badLoop c, bits)
  | .badFirst => some (.badFirst, bits)

theorem decodeBits_eq_bind (x : TokenCtx) (bits : List Bool) :
    decodeBits x bits = (takeField x.width bits).bind fun p => takeOperand (codeClass x p.1) p.2 := by
  unfold decodeBits
  cases takeField x.width bits with
  | none => rfl
  | some p =>
    obtain ⟨c, mid⟩ := p
    simp only [Option.bind_some]
    cases codeClass x c <;> rfl

theorem decodeBits_eq_some_iff {x : TokenCtx} {bits rest : List Bool} {i : Instr} :
    decodeBits x bits = some (i, rest) ↔
      ∃ c mid, takeField x.width bits = some (c, mid) ∧ takeOperand (codeClass x c) mid = some (i, rest) := by
  simp [decodeBits_eq_bind, Option.bind_eq_some_iff]

/-- A literal's operand is read off the stream as the field of its own character (R82). -/
theorem takeField_map_eq_some {n : Nat} {bits rest : List Bool} {f : BitVec n → Instr} {i : Instr}
    (h : ((takeField n bits).map fun p => (f (BitVec.ofNat n p.1), p.2)) = some (i, rest)) :
    ∃ ch, i = f ch ∧ bits = fieldBits n ch.toNat ++ rest := by
  obtain ⟨⟨v, r⟩, hv, hi⟩ := Option.map_eq_some_iff.1 h
  obtain ⟨hlt, rfl⟩ := takeField_eq_some hv
  cases hi
  exact ⟨_, rfl, by rw [BitVec.toNat_ofNat, Nat.mod_eq_of_lt hlt]⟩

theorem takeOperand_operandBits (i : Instr) (rest : List Bool) :
    takeOperand i.classOf (operandBits i ++ rest) = some (i, rest) := by
  cases i with
  | lit8 ch => simp [takeOperand, Instr.classOf, operandBits, takeField_fieldBits ch.isLt]
  | lit16 ch => simp [takeOperand, Instr.classOf, operandBits, takeField_fieldBits ch.isLt]
  | _ => rfl

theorem takeOperand_eq_some {k : CodeClass} {bits rest : List Bool} {i : Instr}
    (h : takeOperand k bits = some (i, rest)) : k = i.classOf ∧ bits = operandBits i ++ rest := by
  cases k with
  | lit8 | lit16 => obtain ⟨ch, rfl, rfl⟩ := takeField_map_eq_some h; exact ⟨rfl, rfl⟩
  | _ => cases h; exact ⟨rfl, rfl⟩

/-- Settles O6: the code is read back, it selects the token's class (`codeClass_eq_iff`), and the operand is read
back. -/
theorem decodeOfEncodeIsTheToken : Obligations.DecodeOfEncodeIsTheToken := by
  intro x i rest hx hi
  have hc := codeOf_lt hx hi
  have hcode : takeField x.width (encodeBits x i ++ rest) = some (codeOf x i, operandBits i ++ rest) := by
    rw [encodeBits, List.append_assoc]
    exact takeField_fieldBits hc _
  have hclass : codeClass x (codeOf x i) = i.classOf := (codeClass_eq_iff hx hc i).2 ⟨hi, rfl⟩
  exact decodeBits_eq_some_iff.2 ⟨_, _, hcode, hclass ▸ takeOperand_operandBits i rest⟩

/-- Settles O8: the code that was read is the token's own, and so is the operand. -/
theorem encodeOfDecodeIsTheStream : Obligations.EncodeOfDecodeIsTheStream := by
  intro x i bits rest hx h
  obtain ⟨c, mid, hcode, hop⟩ := decodeBits_eq_some_iff.1 h
  obtain ⟨hc, rfl⟩ := takeField_eq_some hcode
  obtain ⟨hclass, rfl⟩ := takeOperand_eq_some hop
  obtain ⟨hi, rfl⟩ := (codeClass_eq_iff hx hc i).1 hclass
  exact ⟨hi, by rw [encodeBits, List.append_assoc]⟩

/-- Settles O7: the bits of the packed symbols are the token's and fewer than six 0 bits. -/
theorem decodeOfEncodedSymbolsIsTheToken : Obligations.DecodeOfEncodedSymbolsIsTheToken := by
  intro a x i hx hi
  obtain ⟨k, hk, hbits⟩ := mappedBits_packSymbols a (encodeBits x i)
  refine ⟨k, hk, decodeSymbols_of_decodeBits (firstUnmapped_packSymbols a 0 _) ?_⟩
  rw [encode, hbits]
  exact decodeOfEncodeIsTheToken x i _ hx hi

end Sys2Proof
end

section
/-! The tokens that cannot stand where they are run (spec/42_tokens.md R144 to R147): one rule for each token in the
phases that give it an effect, and the stops read off them. -/

namespace Sys2Proof.Machine

open Sys2Proof

theorem exec_ref_of_loop {s : State} (h : s.phase = .loop) (k : Nat) :
    exec (.ref k) s =
      if 3 ≤ k ∧ k < s.dictLen.toNat then conclude ((lookupEntry k s).andThen fun tok s => finishLoop tok s)
      else .fault .tokenCannotOccur := by
  simp only [exec, execRef, h]

theorem exec_selfRef_of_loop {s : State} (h : s.phase = .loop) :
    exec .selfRef s = conclude ((firstChar s.last s).andThen fun c s => finishLoop (s.last ++ [c]) s) := by
  simp only [exec, execSelfRef, h]

theorem exec_badLoop_of_run {s : State} (h : s.phase = .first ∨ s.phase = .loop) (c : Nat) :
    exec (.badLoop c) s =
      if s.dictLen.toNat < c then .next (errorEntry .badEncoding (BitVec.ofNat 32 c) s)
      else .fault .tokenCannotOccur := by
  rcases h with h | h <;> simp only [exec, execBadLoop, h]

theorem lookupEntry_none {s : State} {k : Nat} (h : memGet s.dict k = none) :
    lookupEntry k s = .stop .dictEntryAbsent := by simp only [lookupEntry, h]

/-- Settles O36, clause by clause from the tokens' rules in FIRST and in LOOP. -/
theorem tokensThatCannotOccurStop : Obligations.TokensThatCannotOccurStop := by
  intro s
  refine ⟨?_, ?_, ?_, ?_, ?_, ?_, ?_⟩
  · intro k hp hk
    rw [exec_ref_of_loop hp, if_neg hk]
  · intro k hp
    simp only [exec, execRef, hp]
  · intro k hp h3 hk hnone
    rw [exec_ref_of_loop hp, if_pos ⟨h3, hk⟩, lookupEntry_none hnone, andThen_stop, conclude_stop]
  · intro hp hlast
    rw [exec_selfRef_of_loop hp, hlast, firstChar_nil, andThen_stop, conclude_stop]
  · intro hp
    simp only [exec, execSelfRef, hp]
  · intro c hp hc
    rw [exec_badLoop_of_run hp, if_neg hc]
  · intro hp
    simp only [exec, execBadFirst, hp]

end Sys2Proof.Machine
end

section
/-! READBIT and READBITS against the stream (spec/40_bit_reader.md R101 to R108). The bits ahead of the cursor are a
segment of the stream (`restBits_eq_streamBits`), and reading is taking fields off them: `RefinesRead` says that an
operation on the registers answers what a pure decoder answers on the bits ahead, and is closed under sequencing. -/

namespace Sys2Proof.Machine

open Sys2Proof

variable {α β : Type}

/-! ## READBIT and the refill, one rule for each branch (R101 to R104) -/

theorem readBit_of_drained {s : State} (hd : s.drained = true) :
    readBit s = .raised .unexpectedEndOfBuffer 0 s := by
  rw [readBit, if_pos hd]

theorem readBit_within_symbol {s : State} (hd : s.drained = false) (hb : s.bitPos >>> 1 ≠ 0) :
    readBit s = .ok (currentBit s) (rotate s) := by
  rw [readBit, hd, if_neg Bool.false_ne_true, rotate_bitPos, if_neg hb]

theorem readBit_at_last_bit {s : State} (hd : s.drained = false) (hb : s.bitPos >>> 1 = 0) :
    readBit s = refill (currentBit s) (restartBitPos (rotate s)) := by
  rw [readBit, hd, if_neg Bool.false_ne_true, rotate_bitPos, if_pos hb]

theorem refill_of_mapped {s : State} {v : BitVec 7} (hn : s.symIdx < s.n)
    (hv : mapSymbol s.alpha (inSymbol s s.symIdx.toNat) = some v) (b : Bool) : refill b s = .ok b (loadSymbol v s) := by
  simp only [refill, if_pos hn, hv]

theorem refill_of_unmapped {s : State} (hn : s.symIdx < s.n)
    (hv : mapSymbol s.alpha (inSymbol s s.symIdx.toNat) = none) (b : Bool) :
    refill b s = .raised .illegalCharacter s.symIdx s := by
  simp only [refill, if_pos hn, hv]

theorem refill_at_end {s : State} (hn : ¬ s.symIdx < s.n) (b : Bool) : refill b s = .ok b (drain s) := by
  rw [refill, if_neg hn]

/-- A one-hot BITPOS marks the bit of VALUE with its own index. -/
theorem currentBit_of_bitPos {s : State} {k : Nat} (hk : k < 6) (hb : s.bitPos = BitVec.ofNat 6 (2 ^ k)) :
    currentBit s = s.value.getLsbD k := by
  have hall : ∀ (v : BitVec 7) (k : Fin 6),
      ((v &&& (BitVec.ofNat 6 (2 ^ k.val)).setWidth 7) != 0) = v.getLsbD k.val := by decide
  rw [currentBit, hb]
  exact hall s.value ⟨k, hk⟩

theorem bitPos_shift {k : Nat} (hk : k < 5) : BitVec.ofNat 6 (2 ^ (k + 1)) >>> 1 = BitVec.ofNat 6 (2 ^ k) := by
  have hall : ∀ k : Fin 5, BitVec.ofNat 6 (2 ^ (k.val + 1)) >>> 1 = BitVec.ofNat 6 (2 ^ k.val) := by decide
  exact hall ⟨k, hk⟩

theorem bitPos_ne_zero {k : Nat} (hk : k < 5) : BitVec.ofNat 6 (2 ^ k) ≠ 0 := by
  have hall : ∀ k : Fin 5, BitVec.ofNat 6 (2 ^ k.val) ≠ 0 := by decide
  exact hall ⟨k, hk⟩

/-- Settles O11: of everything READBIT can answer, only its first case raises that error. -/
theorem readBitOnDrainedRaises : Obligations.ReadBitOnDrainedRaises := by
  refine ⟨fun s hd => readBit_of_drained hd, fun s t info h => ?_⟩
  rcases readBit_cases s with ⟨hd, h'⟩ | ⟨_, _, h'⟩ | ⟨_, _, _, _, _, h'⟩ | ⟨_, _, _, _, h'⟩ | ⟨_, _, _, h'⟩ <;>
    rw [h'] at h <;> cases h
  exact ⟨hd, rfl, rfl⟩

/-- Settles O12: BITPOS marks bit k+1, and halved it is not 0. -/
theorem readBitReturnsTheMarkedBit : Obligations.ReadBitReturnsTheMarkedBit := by
  intro s k hd hk hb
  have hshift : s.bitPos >>> 1 = BitVec.ofNat 6 (2 ^ k) := hb ▸ bitPos_shift hk
  rw [readBit_within_symbol hd (hshift ▸ bitPos_ne_zero hk), currentBit_of_bitPos (by omega) hb, rotate, hshift]

/-- Settles O13: the refill's three branches, behind bit 0. -/
theorem lastBitOfASymbolRefills : Obligations.LastBitOfASymbolRefills := by
  intro s hd hb
  have hread : readBit s = refill (s.value.getLsbD 0) (restartBitPos (rotate s)) := by
    rw [readBit_at_last_bit hd (by rw [hb]; decide), currentBit_of_bitPos (k := 0) (by decide) hb]
  exact ⟨fun v hn hv => hread.trans (refill_of_mapped (s := restartBitPos (rotate s)) hn hv _),
    fun hn hv => hread.trans (refill_of_unmapped (s := restartBitPos (rotate s)) hn hv _),
    fun hn => hread.trans (refill_at_end (s := restartBitPos (rotate s)) hn _)⟩

/-! ## The bits ahead as a segment of the stream (R74, R75) -/

/-- The `m` bits of the stream from bit `j` on. -/
def streamBits (s : State) (j m : Nat) : List Bool := (List.range' j m).map (streamBit s)

@[simp] theorem streamBits_length (s : State) (j m : Nat) : (streamBits s j m).length = m := by simp [streamBits]

theorem streamBits_succ (s : State) (j m : Nat) : streamBits s j (m + 1) = streamBit s j :: streamBits s (j + 1) m := by
  simp [streamBits, List.range'_succ]

theorem streamBits_append (s : State) (j m l : Nat) :
    streamBits s j m ++ streamBits s (j + m) l = streamBits s j (m + l) := by
  simp [streamBits, ← List.map_append]

theorem streamBits_drop (s : State) (j m l : Nat) : (streamBits s j m).drop l = streamBits s (j + l) (m - l) := by
  simp [streamBits, ← List.map_drop, List.drop_range']

/-- A field grows at its low end as it does at its high end. -/
theorem streamField_succ (s : State) (j n : Nat) :
    streamField s j (n + 1) = (streamBit s j).toNat + 2 * streamField s (j + 1) n := by
  induction n with
  | zero => simp [streamField]
  | succ n ih =>
    rw [streamField, ih, streamField, Nat.add_right_comm j 1 n, Nat.add_assoc j n 1]
    ring

/-- Taking a field off a segment of the stream gives the stream's field and the segment after it. -/
theorem takeField_streamBits (s : State) (j : Nat) {n m : Nat} (h : n ≤ m) :
    takeField n (streamBits s j m) = some (streamField s j n, streamBits s (j + n) (m - n)) := by
  induction n generalizing j m with
  | zero => rfl
  | succ n ih =>
    obtain ⟨m, rfl⟩ : ∃ l, m = l + 1 := ⟨m - 1, by omega⟩
    rw [streamBits_succ, takeField, ih (j + 1) (Nat.le_of_succ_le_succ h)]
    simp only [streamField_succ, Nat.add_sub_add_right, Nat.add_assoc, Nat.add_comm 1 n]

/-- A mapped symbol contributes its six bits of the stream. -/
theorem symbolBits_eq_streamBits {s : State} {i : Nat} {v : BitVec 7}
    (h : mapSymbol s.alpha (inSymbol s i) = some v) : symbolBits v = streamBits s (6 * i) 6 := by
  have hbit : ∀ k, k < 6 → streamBit s (6 * i + k) = v.getLsbD (5 - k) := fun k hk => by
    rw [streamBit, show (6 * i + k) / 6 = i by omega, show (6 * i + k) % 6 = k by omega, h]
  have h0 := hbit 0 (by decide)
  simp only [Nat.add_zero] at h0
  simp [symbolBits, streamBits, List.range'_succ, h0, hbit, Nat.add_assoc]

/-- The mapped bits of the symbols from index `k` on, where the first `j` of them are mapped and no more are. -/
theorem mappedBits_eq_streamBits {s : State} {k j m : Nat} (hj : j ≤ m)
    (hmap : ∀ i, k ≤ i → i < k + j → isMapped s i) (hend : j = m ∨ ¬ isMapped s (k + j)) :
    mappedBits s.alpha ((List.range' k m).map (inSymbol s)) = streamBits s (6 * k) (6 * j) := by
  induction j generalizing k m with
  | zero =>
    cases m with
    | zero => rfl
    | succ m =>
      have hnone : mapSymbol s.alpha (inSymbol s k) = none :=
        Option.eq_none_iff_forall_ne_some.2 fun v hv => (hend.resolve_left (by omega)) ⟨v, hv⟩
      simp [List.range'_succ, mappedBits, hnone, streamBits]
  | succ j ih =>
    obtain ⟨m, rfl⟩ : ∃ l, m = l + 1 := ⟨m - 1, by omega⟩
    obtain ⟨v, hv⟩ := hmap k (le_refl k) (by omega)
    have htail := ih (k := k + 1) (m := m) (by omega) (fun i h1 h2 => hmap i (by omega) (by omega))
      (hend.imp (by omega) (by rw [Nat.add_assoc k 1 j, Nat.add_comm 1 j]; exact id))
    rw [List.range'_succ, List.map_cons, mappedBits_cons hv, htail, symbolBits_eq_streamBits hv,
      show 6 * (k + 1) = 6 * k + 6 by omega, streamBits_append, show 6 + 6 * j = 6 * (j + 1) by omega]

theorem log2_bitPos_le {b : BitVec 6} (h : oneHot b) : Nat.log2 b.toNat ≤ 5 := by
  rcases h with rfl | rfl | rfl | rfl | rfl | rfl <;> decide

theorem consumed_of_drained {s : State} (hd : s.drained = true) : consumed s = 6 * s.n.toNat := by
  simp [consumed, hd]

/-- What is left of VALUE is the stream up to the next symbol (10_state.md R28). -/
theorem aheadBits_eq_streamBits {s : State} (h : ReaderOk s) (hd : s.drained = false) :
    consumed s < 6 * s.symIdx.toNat ∧ 6 * s.symIdx.toNat ≤ consumed s + 6 ∧
      aheadBits s = streamBits s (consumed s) (6 * s.symIdx.toNat - consumed s) := by
  have hlog := log2_bitPos_le h.bitPos
  have hpos := h.symIdx_pos
  have hc : consumed s = 6 * s.symIdx.toNat - (Nat.log2 s.bitPos.toNat + 1) := by simp [consumed, hd]
  refine ⟨by omega, by omega, ?_⟩
  simp only [aheadBits, hd, Bool.false_eq_true, if_false]
  rw [symbolBits_eq_streamBits h.value, streamBits_drop]
  congr 1 <;> omega

/-- The symbols that are still to be fetched are those that begin after the cursor. -/
theorem symIdx_le_iff {s : State} (h : ReaderOk s) {i : Nat} (hi : i < s.n.toNat) :
    s.symIdx.toNat ≤ i ↔ consumed s < 6 * i := by
  cases hd : s.drained with
  | true => rw [consumed_of_drained hd, (h.drained hd).1]; omega
  | false =>
    obtain ⟨hlt, hle, -⟩ := aheadBits_eq_streamBits h hd
    omega

/-- The bits ahead run to symbol `e`, if that is the end of the input or the first unmapped symbol ahead. -/
theorem restBits_eq_streamBits {s : State} (h : ReaderOk s) {e : Nat} (hse : s.symIdx.toNat ≤ e) (hen : e ≤ s.n.toNat)
    (hmap : ∀ i, i < e → consumed s < 6 * i → isMapped s i) (hend : e = s.n.toNat ∨ ¬ isMapped s e) :
    consumed s ≤ 6 * e ∧ restBits s = streamBits s (consumed s) (6 * e - consumed s) := by
  cases hd : s.drained with
  | true =>
    have hn := congrArg BitVec.toNat (h.drained hd).1
    rw [(restBits_of_drained h hd).1, consumed_of_drained hd, show 6 * e - 6 * s.n.toNat = 0 by omega]
    exact ⟨by omega, rfl⟩
  | false =>
    obtain ⟨hlt, hle, hahead⟩ := aheadBits_eq_streamBits h hd
    have hmapped : mappedBits s.alpha (aheadSymbols s) =
        streamBits s (6 * s.symIdx.toNat) (6 * (e - s.symIdx.toNat)) :=
      mappedBits_eq_streamBits (by omega) (fun i h1 h2 => hmap i (by omega) (by omega))
        (by rw [Nat.add_sub_of_le hse]; exact hend.imp (by omega) id)
    have hjoin := streamBits_append s (consumed s) (6 * s.symIdx.toNat - consumed s) (6 * (e - s.symIdx.toNat))
    rw [Nat.add_sub_of_le hlt.le] at hjoin
    refine ⟨by omega, ?_⟩
    rw [restBits, hahead, hmapped, hjoin]
    congr 1
    omega

/-! ## The first unmapped symbol ahead (60_exceptions.md R181) -/

theorem firstUnmapped_eq_find? (s : State) (k m : Nat) :
    firstUnmapped s.alpha k ((List.range' k m).map (inSymbol s)) =
      (List.range' k m).find? fun i => (mapSymbol s.alpha (inSymbol s i)).isNone := by
  induction m generalizing k with
  | zero => rfl
  | succ m ih =>
    rw [List.range'_succ, List.map_cons, firstUnmapped, List.find?_cons, ih]
    cases mapSymbol s.alpha (inSymbol s k) <;> rfl

theorem isMapped_iff (s : State) (i : Nat) :
    isMapped s i ↔ (!(mapSymbol s.alpha (inSymbol s i)).isNone) = true := by
  simp [isMapped, Option.isSome_iff_exists]

theorem restUnmapped_eq_none_iff {s : State} (h : ReaderOk s) :
    restUnmapped s = none ↔ ∀ i, i < s.n.toNat → consumed s < 6 * i → isMapped s i := by
  have hle := h.symIdx_le
  rw [restUnmapped, aheadSymbols, firstUnmapped_eq_find?, List.find?_range'_eq_none]
  constructor
  · intro hall i hi hc
    exact (isMapped_iff s i).2 (hall i ((symIdx_le_iff h hi).2 hc) (by omega))
  · intro hall i h1 h2
    have hi : i < s.n.toNat := by omega
    exact (isMapped_iff s i).1 (hall i hi ((symIdx_le_iff h hi).1 h1))

theorem restUnmapped_eq_some_iff {s : State} (h : ReaderOk s) {k : Nat} :
    restUnmapped s = some k ↔ k < s.n.toNat ∧ consumed s < 6 * k ∧ ¬ isMapped s k ∧
      ∀ i, i < k → consumed s < 6 * i → isMapped s i := by
  have hle := h.symIdx_le
  rw [restUnmapped, aheadSymbols, firstUnmapped_eq_find?, List.find?_range'_eq_some, List.mem_range'_1]
  constructor
  · rintro ⟨hk, ⟨h1, h2⟩, hall⟩
    have hkn : k < s.n.toNat := by omega
    refine ⟨hkn, (symIdx_le_iff h hkn).1 h1, by simp [isMapped_iff, hk], fun i hi hc => ?_⟩
    exact (isMapped_iff s i).2 (hall i ((symIdx_le_iff h (hi.trans hkn)).2 hc) hi)
  · rintro ⟨hkn, hc, hk, hall⟩
    have hsk := (symIdx_le_iff h hkn).2 hc
    refine ⟨by simpa [isMapped_iff] using hk, ⟨hsk, by omega⟩, fun i h1 hi => ?_⟩
    exact (isMapped_iff s i).1 (hall i hi ((symIdx_le_iff h (hi.trans hkn)).1 h1))

/-! ## Reading refines taking fields off the bits ahead -/

/-- `t` is `s` with its cursor moved on until the bits ahead are `rest`. -/
structure CursorMoved (s t : State) (rest : List Bool) : Prop where
  frame : sameButReader s t
  reader : ReaderOk t
  bits : restBits t = rest
  unmapped : restUnmapped t = restUnmapped s
  consumed : consumed t + rest.length = consumed s + (restBits s).length

theorem CursorMoved.refl {s : State} (h : ReaderOk s) : CursorMoved s s (restBits s) :=
  ⟨sameButReader_refl s, h, rfl, rfl, rfl⟩

theorem CursorMoved.trans {s t u : State} {mid rest : List Bool} (h : CursorMoved s t mid) (h' : CursorMoved t u rest) :
    CursorMoved s u rest where
  frame := sameButReader_trans h.frame h'.frame
  reader := h'.reader
  bits := h'.bits
  unmapped := h'.unmapped.trans h.unmapped
  consumed := by rw [h'.consumed, h.bits, h.consumed]

/-- The operation `m` on the registers of `s` answers what a decoder of the bits ahead answers: its value, where the
eager refill after it (R108) meets no unmapped symbol; otherwise the first unmapped symbol ahead, if there is one, and
the end of the buffer, if there is none. -/
structure Eff.RefinesRead (s : State) (m : Eff α) (answer : Option (α × List Bool)) : Prop where
  value : ∀ a rest, answer = some (a, rest) → (rest ≠ [] ∨ restUnmapped s = none) →
    ∃ t, m = .ok a t ∧ CursorMoved s t rest
  illegal : ∀ k, restUnmapped s = some k → (∀ a rest, answer = some (a, rest) → rest = []) →
    ∃ t, m = .raised .illegalCharacter (BitVec.ofNat 32 k) t ∧ sameButReader s t
  ended : answer = none → restUnmapped s = none →
    ∃ t, m = .raised .unexpectedEndOfBuffer 0 t ∧ sameButReader s t

/-- With no bits ahead no symbol is ahead either: the refill is eager (R108). -/
theorem restUnmapped_of_restBits_nil {s : State} (h : ReaderOk s) (hnil : restBits s = []) : restUnmapped s = none := by
  cases hd : s.drained with
  | true => exact (restBits_of_drained h hd).2
  | false =>
    obtain ⟨b, L, hb, -⟩ := readBit_restBits s h hd
    rw [hb] at hnil
    cases hnil

/-- Reading nothing. -/
theorem refinesRead_ok {s : State} (h : ReaderOk s) (a : α) :
    (Eff.ok a s).RefinesRead s (some (a, restBits s)) where
  value := by
    rintro _ _ ⟨⟩ -
    exact ⟨s, rfl, CursorMoved.refl h⟩
  illegal k hk hnil := by
    rw [restUnmapped_of_restBits_nil h (hnil a _ rfl)] at hk
    cases hk
  ended hnone := by cases hnone

/-- What refines at a later cursor refines at an earlier one, from which the same symbols are ahead. -/
theorem Eff.RefinesRead.of_moved {s u : State} {mid : List Bool} {m : Eff α} {answer : Option (α × List Bool)}
    (hu : CursorMoved s u mid) (hm : m.RefinesRead u answer) : m.RefinesRead s answer where
  value a rest ha hr := by
    obtain ⟨t, ht, hmoved⟩ := hm.value a rest ha (hu.unmapped ▸ hr)
    exact ⟨t, ht, hu.trans hmoved⟩
  illegal k hk hnil := by
    obtain ⟨t, ht, hframe⟩ := hm.illegal k (hu.unmapped.trans hk) hnil
    exact ⟨t, ht, sameButReader_trans hu.frame hframe⟩
  ended hnone hk := by
    obtain ⟨t, ht, hframe⟩ := hm.ended hnone (hu.unmapped.trans hk)
    exact ⟨t, ht, sameButReader_trans hu.frame hframe⟩

/-- Reading one thing after another refines decoding one after another. The second decoder makes no bits of its own
(`hg`), so a first part that raises at the eager refill leaves it nothing. -/
theorem Eff.RefinesRead.andThen {s : State} {m : Eff α} {answer : Option (α × List Bool)} {f : α → State → Eff β}
    {g : α × List Bool → Option (β × List Bool)} (hm : m.RefinesRead s answer)
    (hf : ∀ a u rest, CursorMoved s u rest → (f a u).RefinesRead u (g (a, rest)))
    (hg : ∀ a b rest, g (a, []) = some (b, rest) → rest = []) : (m.andThen f).RefinesRead s (answer.bind g) := by
  have moved {a : α} {mid : List Bool} (ha : answer = some (a, mid)) (hr : mid ≠ [] ∨ restUnmapped s = none) :
      (m.andThen f).RefinesRead s (answer.bind g) := by
    obtain ⟨u, rfl, hu⟩ := hm.value a mid ha hr
    subst ha
    exact (hf a u mid hu).of_moved hu
  cases hk : restUnmapped s with
  | some k =>
    by_cases hnil : ∀ a mid, answer = some (a, mid) → mid = []
    · obtain ⟨t, rfl, hframe⟩ := hm.illegal k hk hnil
      have hbind (b : β) (rest : List Bool) (hb : answer.bind g = some (b, rest)) : rest = [] := by
        obtain ⟨⟨a, mid⟩, ha, hgb⟩ := Option.bind_eq_some_iff.1 hb
        obtain rfl := hnil a mid ha
        exact hg a b rest hgb
      refine ⟨fun b rest hb hr => absurd (hbind b rest hb) (hr.resolve_right (by simp [hk])),
        fun l hl _ => ⟨t, ?_, hframe⟩, by simp [hk]⟩
      obtain rfl : k = l := Option.some.inj (hk.symm.trans hl)
      rfl
    · push Not at hnil
      obtain ⟨a, mid, ha, hne⟩ := hnil
      exact moved ha (.inl hne)
  | none =>
    cases answer with
    | some p => exact moved rfl (.inr hk)
    | none =>
      obtain ⟨t, rfl, hframe⟩ := hm.ended rfl hk
      exact ⟨nofun, by simp [hk], fun _ _ => ⟨t, rfl, hframe⟩⟩

theorem Eff.RefinesRead.map {s : State} {m : Eff α} {answer : Option (α × List Bool)} (f : α → β)
    (hm : m.RefinesRead s answer) :
    (m.andThen fun a t => .ok (f a) t).RefinesRead s (answer.map fun p => (f p.1, p.2)) := by
  rw [Option.map_eq_bind]
  refine hm.andThen (fun a u rest hu => ?_) (fun a b rest h => ?_)
  · rw [← hu.bits]
    exact refinesRead_ok hu.reader (f a)
  · cases h
    rfl

/-- READBITS refines taking a field (R105, R106, R108). -/
theorem readBits_refinesRead {s : State} (h : ReaderOk s) (n : Nat) :
    (readBits n s).RefinesRead s (takeField n (restBits s)) := by
  obtain ⟨hvalue, hboundary, hillegal, hended⟩ := readBitsFrom_restBits n 0 1 s h
  refine ⟨fun v rest hv hr => ?_, fun k hk hnil => ?_, hended⟩
  · obtain ⟨t, ht, hframe, hreader, hbits, hunmapped, hcons⟩ := hvalue v rest hv hr
    have hlen : (restBits s).length = n + rest.length := by
      rw [(takeField_eq_some hv).2, List.length_append, fieldBits_length]
    exact ⟨t, by simpa [readBits] using ht, hframe, hreader, hbits, hunmapped, by omega⟩
  · cases hv : takeField n (restBits s) with
    | none => exact hillegal k hv hk
    | some p =>
      obtain ⟨v, rest⟩ := p
      obtain rfl := hnil v rest hv
      exact hboundary v k hv hk

/-! ## READBITS on the stream -/

/-- Settles O14: the field lies before the first unmapped symbol ahead, with a bit to spare where there is one. -/
theorem readBitsReturnsTheStreamField : Obligations.ReadBitsReturnsTheStreamField := by
  intro s n h hn hmap
  obtain ⟨e, hrest, hroom, hspare⟩ : ∃ e, restBits s = streamBits s (consumed s) (6 * e - consumed s) ∧
      consumed s + n ≤ 6 * e ∧ (consumed s + n < 6 * e ∨ restUnmapped s = none) := by
    cases hu : restUnmapped s with
    | none =>
      obtain ⟨-, hrest⟩ := restBits_eq_streamBits h h.symIdx_le le_rfl ((restUnmapped_eq_none_iff h).1 hu) (.inl rfl)
      exact ⟨s.n.toNat, hrest, hn, .inr rfl⟩
    | some k =>
      obtain ⟨hkn, hck, hk, hbelow⟩ := (restUnmapped_eq_some_iff h).1 hu
      obtain ⟨-, hrest⟩ := restBits_eq_streamBits h ((symIdx_le_iff h hkn).2 hck) hkn.le hbelow (.inr hk)
      have hfar : consumed s + n < 6 * k := by
        by_contra hnear
        exact hk (hmap k hkn hck (by omega))
      exact ⟨k, hrest, hfar.le, .inl hfar⟩
  have hread := readBits_refinesRead h n
  rw [hrest, takeField_streamBits s _ (by omega)] at hread
  obtain ⟨t, ht, hmoved⟩ := hread.value _ _ rfl
    (hspare.imp_left fun hlt => List.ne_nil_of_length_pos (by rw [streamBits_length]; omega))
  have hcons := hmoved.consumed
  rw [hrest, streamBits_length, streamBits_length] at hcons
  exact ⟨t, ht, by omega, hmoved.reader, hmoved.frame⟩

/-- Settles O15: the bits ahead are the rest of the input, and the field is longer. -/
theorem readBitsPastTheEndRaises : Obligations.ReadBitsPastTheEndRaises := by
  intro s n h hn hmap
  obtain ⟨hce, hrest⟩ := restBits_eq_streamBits h h.symIdx_le le_rfl hmap (.inl rfl)
  refine (readBits_refinesRead h n).ended ?_ ((restUnmapped_eq_none_iff h).2 hmap)
  rw [takeField_eq_none, hrest, streamBits_length]
  omega

/-- Settles O16: the bits ahead end at symbol k, and the field leaves none of them. -/
theorem readBitsRaisesAtTheFirstUnmappedSymbol : Obligations.ReadBitsRaisesAtTheFirstUnmappedSymbol := by
  intro s n k h hkn hck hnk hk hmap
  obtain ⟨-, hrest⟩ := restBits_eq_streamBits h ((symIdx_le_iff h hkn).2 hck) hkn.le hmap (.inr hk)
  refine (readBits_refinesRead h n).illegal k ((restUnmapped_eq_some_iff h).2 ⟨hkn, hck, hk, hmap⟩) ?_
  intro v rest hv
  have hlen := congrArg List.length (takeField_eq_some hv).2
  rw [hrest, streamBits_length, List.length_append, fieldBits_length] at hlen
  exact List.eq_nil_of_length_eq_zero (by omega)

/-! ## Fetching a token (42_tokens.md R140) -/

/-- Reading the operand refines taking it (30_encoding.md R77). -/
theorem readOperand_refinesRead {s : State} (h : ReaderOk s) (k : CodeClass) :
    (readOperand k s).RefinesRead s (takeOperand k (restBits s)) := by
  cases k with
  | lit8 => exact (readBits_refinesRead h 8).map fun v => Instr.lit8 (BitVec.ofNat 8 v)
  | lit16 => exact (readBits_refinesRead h 16).map fun v => Instr.lit16 (BitVec.ofNat 16 v)
  | _ => exact refinesRead_ok h _

/-- Fetching a token refines decoding one off the bits ahead. -/
theorem fetchToken_refinesRead {s : State} (h : ReaderOk s) :
    (fetchToken s).RefinesRead s (decodeBits (tokenCtx s) (restBits s)) := by
  rw [decodeBits_eq_bind]
  refine (readBits_refinesRead h s.indexBits.toNat).andThen (fun c u rest hu => ?_) (fun c i rest ht => ?_)
  · rw [← hu.bits]
    exact readOperand_refinesRead hu.reader _
  · exact (List.append_eq_nil_iff.1 (takeOperand_eq_some ht).2.symm).2

/-- Everything the decoder answers, in terms of the bits and of the first unmapped symbol that are ahead. -/
theorem decodeAhead_cases (s : State) :
    (∃ i rest, decodeBits (tokenCtx s) (restBits s) = some (i, rest) ∧ (rest ≠ [] ∨ restUnmapped s = none) ∧
      decodeAhead s = .token i rest) ∨
    (∃ k, restUnmapped s = some k ∧ (∀ i rest, decodeBits (tokenCtx s) (restBits s) = some (i, rest) → rest = []) ∧
      decodeAhead s = .illegalCharacter k) ∨
    (decodeBits (tokenCtx s) (restBits s) = none ∧ restUnmapped s = none ∧ decodeAhead s = .endOfBuffer) := by
  unfold restBits restUnmapped decodeAhead decodeFrom
  cases decodeBits (tokenCtx s) (aheadBits s ++ mappedBits s.alpha (aheadSymbols s)) with
  | none => cases firstUnmapped s.alpha s.symIdx.toNat (aheadSymbols s) <;> simp
  | some p =>
    obtain ⟨i, rest⟩ := p
    cases rest with
    | cons b rest => simp
    | nil => cases firstUnmapped s.alpha s.symIdx.toNat (aheadSymbols s) <;> simp

/-- Settles O18: each answer of the decoder on what is ahead is one of the three that the fetch refines. -/
theorem fetchRefinesTheDecoder : Obligations.FetchRefinesTheDecoder := by
  intro s h
  have hfetch := fetchToken_refinesRead h
  rcases decodeAhead_cases s with ⟨i, rest, hdec, hroom, ha⟩ | ⟨k, hk, hnil, ha⟩ | ⟨hdec, hk, ha⟩ <;> rw [ha]
  · refine ⟨fun j l hj => ?_, nofun, nofun⟩
    cases hj
    obtain ⟨t, ht, hmoved⟩ := hfetch.value i rest hdec hroom
    exact ⟨t, ht, hmoved.frame, hmoved.reader, hmoved.bits⟩
  · refine ⟨nofun, fun j hj => ?_, nofun⟩
    cases hj
    exact hfetch.illegal k hk hnil
  · exact ⟨nofun, nofun, fun _ => hfetch.ended hdec hk⟩

end Sys2Proof.Machine
end

section
/-! The dictionary and the output (spec/41_dictionary.md R121 to R131): what one append and one EMIT leave, that a step
of a run only adds to both (`Grown`), and what the first token leaves behind it. -/

namespace Sys2Proof.Machine

open Sys2Proof

variable {α β : Type}

/-! ## One operation -/

theorem memGet_pushEntry_ne (str : Str) {s : State} {k : Nat} (h : k ≠ s.dictLen.toNat) :
    memGet (pushEntry str s).dict k = memGet s.dict k :=
  memGet_memPut_ne _ _ h

/-- An entry that is counted and leaves EUG above 0. -/
theorem countEntry_of_eug_ne_one {s : State} (h : s.eug ≠ 1) :
    (countEntry s).eug = s.eug - 1 ∧ (countEntry s).indexBits = s.indexBits := by
  have hne : s.eug - 1 ≠ 0 := by bv_omega
  exact ⟨if_neg hne, if_neg hne⟩

/-- The growth of R122. -/
theorem countEntry_of_eug_one {s : State} (h : s.eug = 1) :
    (countEntry s).eug = BitVec.ofNat 32 (2 ^ s.indexBits.toNat) ∧ (countEntry s).indexBits = s.indexBits + 1 := by
  have hzero : s.eug - 1 = 0 := by rw [h]; rfl
  exact ⟨if_pos hzero, if_pos hzero⟩

theorem seedAppend_full {s : State} (str : Str) (h : s.dictLen = s.config.maxDict) :
    seedAppend str s = .raised .capacityExceeded 2 s := by simp [seedAppend, h]

theorem seedAppend_cases (str : Str) (s : State) :
    (s.dictLen = s.config.maxDict ∧ seedAppend str s = .raised .capacityExceeded 2 s) ∨
    (s.dictLen ≠ s.config.maxDict ∧ seedAppend str s = .ok () (pushEntry str s)) := by
  by_cases h : s.dictLen = s.config.maxDict
  · exact .inl ⟨h, seedAppend_full str h⟩
  · exact .inr ⟨h, seedAppend_room str h⟩

/-- Settles O21: with room the answer is the pushed entry, counted; EUG - 1 is 0 where EUG is 1. -/
theorem appendCountsAndGrows : Obligations.AppendCountsAndGrows := by
  intro s str
  refine ⟨append_full str, fun hroom => ⟨_, append_room str hroom, rfl, memGet_pushEntry_new str s,
    fun k hk => memGet_pushEntry_ne str hk, fun h => ?_, fun h => ?_⟩⟩
  · exact countEntry_of_eug_ne_one (s := pushEntry str s) h
  · exact countEntry_of_eug_one (s := pushEntry str s) h

/-- Settles O22: with room the answer is the pushed entry alone. -/
theorem seedAppendIsUncounted : Obligations.SeedAppendIsUncounted := fun s str =>
  ⟨seedAppend_full str, fun hroom => ⟨_, seedAppend_room str hroom, rfl, memGet_pushEntry_new str s,
    fun _ hk => memGet_pushEntry_ne str hk⟩⟩

/-- Settles O24: within MAX_OUT the writes are one run of stores from OUT_LEN on. -/
theorem emitWritesInOrderOrRaises : Obligations.EmitWritesInOrderOrRaises := fun s str =>
  ⟨emit_full str, fun hfit => ⟨_, emit_room str hfit, rfl, writeOut_outLen_toNat hfit,
    fun _ hi => memGet_memPutAll_inside s.out _ str hi, fun _ ha => memGet_memPutAll_outside s.out _ str ha⟩⟩

/-- Settles O23: below MAX_DICT the width invariant is kept (`countEntry_widthOk`), and it bounds EUG
(`width_arith`). -/
theorem appendKeepsTheWidthInvariant : Obligations.AppendKeepsTheWidthInvariant := by
  intro s t str h4 hle hw happend
  rcases append_cases str s with ⟨_, h⟩ | ⟨hne, h⟩ <;> rw [h] at happend <;> cases happend
  have hroom : s.dictLen.toNat < 2 ^ 32 - 1 := by bv_omega
  obtain ⟨hwidth, hlen⟩ := countEntry_widthOk s str h4 hroom hw
  obtain ⟨hpos, hhalf, -⟩ := width_arith (by omega) hwidth.1 hwidth.2
  exact ⟨hwidth, hpos, hhalf⟩

/-! ## Growth -/

/-- From `s` to `t` the dictionary, the code width and the output only grew: every entry and every character below
OUT_LEN is still there (41_dictionary.md R131). -/
structure Extends (s t : State) : Prop where
  dictLen : s.dictLen.toNat ≤ t.dictLen.toNat
  indexBits : s.indexBits.toNat ≤ t.indexBits.toNat
  outLen : s.outLen.toNat ≤ t.outLen.toNat
  entries : ∀ k str, memGet s.dict k = some str → memGet t.dict k = some str
  chars : ∀ a, a < s.outLen.toNat → memGet t.out a = memGet s.out a

/-- The cursor did not move back either. -/
structure Grown (s t : State) : Prop extends Extends s t where
  cursor : consumed s ≤ consumed t

theorem Grown.refl (s : State) : Grown s s where
  dictLen := le_rfl
  indexBits := le_rfl
  outLen := le_rfl
  entries _ _ h := h
  chars _ _ := rfl
  cursor := le_rfl

theorem Grown.trans {s t u : State} (h : Grown s t) (h' : Grown t u) : Grown s u where
  dictLen := h.dictLen.trans h'.dictLen
  indexBits := h.indexBits.trans h'.indexBits
  outLen := h.outLen.trans h'.outLen
  entries k str hk := h'.entries k str (h.entries k str hk)
  chars a ha := (h'.chars a (ha.trans_le h.outLen)).trans (h.chars a ha)
  cursor := h.cursor.trans h'.cursor

theorem extends_of_sameButReader {s t : State} (h : sameButReader s t) : Extends s t := by
  rw [h]
  exact { Grown.refl s with }

theorem grown_errorEntry (e : ErrKind) (w : Word) (s : State) : Grown s (errorEntry e w s) := { Grown.refl s with }

theorem grown_endRun (s : State) : Grown s (endRun s) := { Grown.refl s with }

theorem grown_setLast (tok : Str) (s : State) : Grown s (setLast tok s) := { Grown.refl s with }

/-- INDEXBITS has 6 bits, so below 63 it can be incremented. -/
theorem indexBits_succ {s : State} (h : s.indexBits.toNat < 63) :
    (s.indexBits + 1).toNat = s.indexBits.toNat + 1 := by bv_omega

theorem grown_enterLoop {s : State} (h : s.indexBits.toNat < 63) : Grown s (enterLoop s) :=
  { Grown.refl s with indexBits := by rw [enterLoop_indexBits, indexBits_succ h]; omega }

/-- No entry stands at DICTLEN yet, so a new one there rewrites none. -/
theorem grown_pushEntry {s : State} (hb : BaseOk s) (hne : s.dictLen ≠ s.config.maxDict) (str : Str) :
    Grown s (pushEntry str s) :=
  { Grown.refl s with
    dictLen := by rw [pushEntry_dictLen, hb.dictLen_succ hne]; omega
    entries := fun k old hk => by
      obtain ⟨-, hlt⟩ := hb.dictBelow _ (memGet_isSome_mem hk)
      exact (memGet_pushEntry_old str hlt).trans hk }

/-- Counting an entry widens the code by at most one bit. -/
theorem countEntry_indexBits_le {s : State} (h : s.indexBits.toNat < 63) :
    s.indexBits.toNat ≤ (countEntry s).indexBits.toNat ∧
      (countEntry s).indexBits.toNat ≤ s.indexBits.toNat + 1 := by
  by_cases he : s.eug = 1
  · rw [(countEntry_of_eug_one he).2, indexBits_succ h]; omega
  · rw [(countEntry_of_eug_ne_one he).2]; omega

theorem grown_countEntry {s : State} (h : s.indexBits.toNat < 63) : Grown s (countEntry s) :=
  { Grown.refl s with indexBits := (countEntry_indexBits_le h).1 }

theorem grown_writeOut {s : State} {str : Str} (hfit : s.outLen.toNat + str.length ≤ s.config.maxOut.toNat) :
    Grown s (writeOut str s) :=
  { Grown.refl s with
    outLen := by rw [writeOut_outLen_toNat hfit]; omega
    chars := fun _ ha => memGet_memPutAll_outside _ _ _ (.inl ha) }

/-! ## Growth over the operations -/

/-- Whatever state the operation answers has grown from `s`, and a value comes with a state that satisfies `Q`. -/
def Eff.Grows (s : State) (Q : State → Prop) : Eff α → Prop
  | .ok _ t => Grown s t ∧ Q t
  | .raised _ _ t => Grown s t
  | .stop _ => True

theorem Eff.Grows.andThen {s : State} {m : Eff α} {f : α → State → Eff β} {Q R : State → Prop} (hm : m.Grows s Q)
    (hf : ∀ a u, Q u → (f a u).Grows u R) : (m.andThen f).Grows s R := by
  cases m with
  | ok a u =>
    obtain ⟨hsu, hu⟩ := hm
    have hfu := hf a u hu
    rw [andThen_ok]
    cases hr : f a u <;> rw [hr] at hfu
    case ok b t => exact ⟨hsu.trans hfu.1, hfu.2⟩
    case raised e w t => exact hsu.trans hfu
    case stop r => trivial
  | raised e w u => exact hm
  | stop r => trivial

theorem Eff.Grows.of_conclude {s t : State} {m : Eff Unit} {Q : State → Prop} (hm : m.Grows s Q)
    (h : conclude m = .next t) : Grown s t := by
  rcases conclude_eq_next h with rfl | ⟨e, w, u, rfl, rfl⟩
  · exact hm.1
  · exact Grown.trans hm (grown_errorEntry e w u)

theorem append_grows {s : State} (hb : BaseOk s) (hi : s.indexBits.toNat < 63) (str : Str) :
    (append str s).Grows s fun t => BaseOk t ∧ t.indexBits.toNat ≤ s.indexBits.toNat + 1 := by
  rcases append_cases str s with ⟨_, h⟩ | ⟨hne, h⟩ <;> rw [h]
  · exact Grown.refl s
  · exact ⟨(grown_pushEntry hb hne str).trans (grown_countEntry (s := pushEntry str s) hi),
      (hb.pushEntry hne str).countEntry, (countEntry_indexBits_le (s := pushEntry str s) hi).2⟩

theorem seedAppend_grows {s : State} (hb : BaseOk s) (str : Str) :
    (seedAppend str s).Grows s fun t => t.indexBits = s.indexBits := by
  rcases seedAppend_cases str s with ⟨_, h⟩ | ⟨hne, h⟩ <;> rw [h]
  · exact Grown.refl s
  · exact ⟨grown_pushEntry hb hne str, rfl⟩

theorem emit_grows {s : State} (str : Str) {Q : State → Prop}
    (hQ : s.outLen.toNat + str.length ≤ s.config.maxOut.toNat → Q (writeOut str s)) : (emit str s).Grows s Q := by
  rcases emit_cases str s with ⟨_, h⟩ | ⟨hfit, h⟩ <;> rw [h]
  · exact Grown.refl s
  · exact ⟨grown_writeOut hfit, hQ hfit⟩

theorem lookupEntry_grows {s : State} (k : Nat) : (lookupEntry k s).Grows s (· = s) := by
  unfold lookupEntry
  cases memGet s.dict k with
  | none => trivial
  | some str => exact ⟨Grown.refl s, rfl⟩

theorem firstChar_grows {s : State} (str : Str) : (firstChar str s).Grows s (· = s) := by
  cases str with
  | nil => trivial
  | cons c cs => exact ⟨Grown.refl s, rfl⟩

theorem finishFirst_grows {s : State} (hi : s.indexBits.toNat < 63) (tok : Str) :
    (finishFirst tok s).Grows s fun _ => True :=
  (emit_grows tok (Q := fun t => t.indexBits = s.indexBits) fun _ => rfl).andThen fun _ u hu =>
    have hu' : (setLast tok u).indexBits.toNat < 63 := by rw [setLast_indexBits, hu]; exact hi
    ⟨(grown_setLast tok u).trans (grown_enterLoop hu'), trivial⟩

theorem finishLoop_grows {s : State} (hb : BaseOk s) (hi : s.indexBits.toNat < 63) (tok : Str) :
    (finishLoop tok s).Grows s fun _ => True := by
  refine (emit_grows tok (Q := fun t => BaseOk t ∧ t.indexBits = s.indexBits)
    fun hfit => ⟨hb.writeOut hfit, rfl⟩).andThen fun _ u ⟨hbu, hu⟩ => ?_
  refine (firstChar_grows tok).andThen fun c v hv => ?_
  subst hv
  exact (append_grows hbu (hu ▸ hi) _).andThen fun _ w _ => ⟨grown_setLast tok w, trivial⟩

/-! ## Growth over the tokens -/

theorem widthOk_indexBits_le {s : State} (h : widthOk s) : s.indexBits.toNat ≤ 32 := by
  by_contra hlt
  have hpow : 2 ^ 33 ≤ 2 ^ s.indexBits.toNat := Nat.pow_le_pow_right (by decide) (by omega)
  have heug := s.eug.isLt
  have hdict := s.dictLen.isLt
  have hsum := h.2
  omega

/-- The width of a run: 2 in FIRST, that of a 32-bit DICTLEN in LOOP. -/
theorem EngineInv.indexBits_le {s : State} (h : EngineInv s) (hp : s.phase = .first ∨ s.phase = .loop) :
    s.indexBits.toNat ≤ 32 := by
  rcases hp with hp | hp
  · rw [(h.first hp).indexBits]; decide
  · exact widthOk_indexBits_le (h.loop hp).width

section Tokens

variable {s t : State}

theorem literal_grown (hb : BaseOk s) (hi : s.indexBits.toNat ≤ 32) {ch : Char16} (ht : literal ch s = .next t) :
    Grown s t := by
  unfold literal at ht
  cases hp : s.phase <;> rw [hp] at ht
  case first =>
    exact ((seedAppend_grows hb [ch]).andThen fun _ u hu =>
      finishFirst_grows (by rw [hu]; omega) [ch]).of_conclude ht
  case loop =>
    exact ((append_grows hb (by omega) [ch]).andThen fun _ u ⟨hbu, hu⟩ =>
      finishLoop_grows hbu (by omega) [ch]).of_conclude ht
  all_goals cases ht

theorem execEndMark_grown (ht : execEndMark s = .next t) : Grown s t := by
  unfold execEndMark at ht
  cases hp : s.phase <;> rw [hp] at ht <;> cases ht <;> exact grown_endRun s

theorem execRef_grown (hb : BaseOk s) (hi : s.indexBits.toNat ≤ 32) {k : Nat} (ht : execRef k s = .next t) :
    Grown s t := by
  unfold execRef at ht
  cases hp : s.phase <;> rw [hp] at ht
  case loop =>
    simp only at ht
    split_ifs at ht
    refine ((lookupEntry_grows k).andThen (R := fun _ => True) fun tok u hu => ?_).of_conclude ht
    subst hu
    exact finishLoop_grows hb (by omega) tok
  all_goals cases ht

theorem execSelfRef_grown (hb : BaseOk s) (hi : s.indexBits.toNat ≤ 32) (ht : execSelfRef s = .next t) :
    Grown s t := by
  unfold execSelfRef at ht
  cases hp : s.phase <;> rw [hp] at ht
  case first => cases ht; exact grown_errorEntry _ _ s
  case loop =>
    refine ((firstChar_grows s.last).andThen (R := fun _ => True) fun c u hu => ?_).of_conclude ht
    subst hu
    exact finishLoop_grows hb (by omega) _
  all_goals cases ht

theorem execBadLoop_grown {c : Nat} (ht : execBadLoop c s = .next t) : Grown s t := by
  unfold execBadLoop at ht
  cases hp : s.phase <;> rw [hp] at ht <;> simp only at ht
  case first => split_ifs at ht; cases ht; exact grown_errorEntry _ _ s
  case loop => split_ifs at ht; cases ht; exact grown_errorEntry _ _ s
  all_goals cases ht

theorem execBadFirst_grown (ht : execBadFirst s = .next t) : Grown s t := by
  unfold execBadFirst at ht
  cases hp : s.phase <;> rw [hp] at ht <;> cases ht
  exact grown_errorEntry _ _ s

/-- Every token, also where it raises an error: what it has done by then stays done. -/
theorem exec_grown (hb : BaseOk s) (hi : s.indexBits.toNat ≤ 32) {i : Instr} (ht : exec i s = .next t) :
    Grown s t := by
  cases i with
  | lit8 ch => exact literal_grown hb hi ht
  | lit16 ch => exact literal_grown hb hi ht
  | endMark => exact execEndMark_grown ht
  | ref k => exact execRef_grown hb hi ht
  | selfRef => exact execSelfRef_grown hb hi ht
  | badLoop c => exact execBadLoop_grown ht
  | badFirst => exact execBadFirst_grown ht

end Tokens

/-! ## Growth over the steps of a run -/

/-- A value that is read is the decoder's, and the cursor has moved past it. -/
theorem Eff.RefinesRead.moved_of_ok {s t : State} {a : α} {answer : Option (α × List Bool)}
    (h : (Eff.ok a t).RefinesRead s answer) : ∃ rest, answer = some (a, rest) ∧ CursorMoved s t rest := by
  by_cases hroom : ∃ b rest, answer = some (b, rest) ∧ (rest ≠ [] ∨ restUnmapped s = none)
  · obtain ⟨b, rest, hb, hr⟩ := hroom
    obtain ⟨u, hu, hmoved⟩ := h.value b rest hb hr
    cases hu
    exact ⟨rest, hb, hmoved⟩
  · push Not at hroom
    cases hk : restUnmapped s with
    | none =>
      have hnone : answer = none := Option.eq_none_iff_forall_ne_some.2 fun p hp => (hroom p.1 p.2 hp).2 hk
      obtain ⟨u, hu, -⟩ := h.ended hnone hk
      cases hu
    | some k =>
      obtain ⟨u, hu, -⟩ := h.illegal k hk fun b rest hb => (hroom b rest hb).1
      cases hu

/-- A token takes at least its code's bits. -/
theorem length_of_decodeBits {x : TokenCtx} {bits rest : List Bool} {i : Instr}
    (h : decodeBits x bits = some (i, rest)) : x.width + rest.length ≤ bits.length := by
  obtain ⟨c, mid, hc, ho⟩ := decodeBits_eq_some_iff.1 h
  have hbits := congrArg List.length (takeField_eq_some hc).2
  have hmid := congrArg List.length (takeOperand_eq_some ho).2
  rw [List.length_append, fieldBits_length] at hbits
  rw [List.length_append] at hmid
  omega

/-- Fetching a token moves the cursor past the code at least (40_bit_reader.md R105). -/
theorem fetchToken_consumed {s t : State} {i : Instr} (hr : ReaderOk s) (h : fetchToken s = .ok i t) :
    consumed s + s.indexBits.toNat ≤ consumed t := by
  obtain ⟨rest, hdec, hmoved⟩ := (h ▸ fetchToken_refinesRead hr).moved_of_ok
  have hlen : s.indexBits.toNat + rest.length ≤ (restBits s).length := length_of_decodeBits hdec
  have hcons := hmoved.consumed
  omega

theorem fetchToken_grown {s t : State} {i : Instr} (hr : ReaderOk s) (h : fetchToken s = .ok i t) : Grown s t :=
  { extends_of_sameButReader (fetchToken_frame h) with
    cursor := (Nat.le_add_right _ _).trans (fetchToken_consumed hr h) }

/-- Of everything a token's step answers, only an error met while the token is read may move the cursor back. -/
theorem tokenStep_extends {s t : State} (h : EngineInv s) (hp : s.phase = .first ∨ s.phase = .loop)
    (ht : tokenStep s = .next t) : Extends s t ∧ (t.err = .none → consumed s ≤ consumed t) := by
  have hr := (h.run hp).reader
  have hk := fetchToken_keeps h.base hr
  unfold tokenStep at ht
  cases hf : fetchToken s with
  | ok i u =>
    rw [hf] at hk ht
    obtain ⟨hsu, hru⟩ := hk
    have hi : u.indexBits.toNat ≤ 32 := by rw [hsu]; exact h.indexBits_le hp
    have hst : Grown s t := (fetchToken_grown hr hf).trans (exec_grown (h.base.of_readerOk hsu hru) hi ht)
    exact ⟨hst.toExtends, fun _ => hst.cursor⟩
  | raised e w u =>
    rw [hf] at hk ht
    cases ht
    exact ⟨{ extends_of_sameButReader (fetchToken_raised_frame hf) with }, fun he => absurd he hk.1⟩
  | stop r => rw [hf] at ht; cases ht

theorem loopStep_extends {s t : State} (h : EngineInv s) (hp : s.phase = .loop) (ht : loopStep s = .next t) :
    Extends s t ∧ (t.err = .none → consumed s ≤ consumed t) := by
  unfold loopStep at ht
  split_ifs at ht
  · cases ht
    exact ⟨(grown_errorEntry _ _ s).toExtends, fun _ => (grown_errorEntry _ _ s).cursor⟩
  · exact tokenStep_extends h (.inr hp) ht

theorem engineStep_of_first {s : State} (h : s.phase = .first) : engineStep s = tokenStep s := by
  simp only [engineStep, h, firstStep]

theorem engineStep_of_loop {s : State} (h : s.phase = .loop) : engineStep s = loopStep s := by
  simp only [engineStep, h]

/-- Settles O57: the step is that of a token, or the error that a drained reader raises in LOOP. -/
theorem runNeverShrinks : Obligations.RunNeverShrinks := by
  intro s t h hs hp ht
  rw [step_of_no_script hs] at ht
  obtain ⟨hst, hcursor⟩ : Extends s t ∧ (t.err = .none → consumed s ≤ consumed t) := by
    rcases hp with hp | hp
    · rw [engineStep_of_first hp] at ht
      exact tokenStep_extends h (.inl hp) ht
    · rw [engineStep_of_loop hp] at ht
      exact loopStep_extends h hp ht
  exact ⟨hst.dictLen, hst.indexBits, hst.outLen, hcursor, hst.entries, hst.chars⟩

/-! ## The first token -/

/-- Where a literal in FIRST leaves the machine, once there was room for its entry and its character (42_tokens.md
R141, 43_driver.md R164). -/
def afterFirst (c : Char16) (s : State) : State := enterLoop (setLast [c] (writeOut [c] (pushEntry [c] s)))

/-- Everything a literal in FIRST can answer. -/
theorem literal_first_cases {s : State} (hp : s.phase = .first) (c : Char16) :
    literal c s = .next (errorEntry .capacityExceeded 2 s) ∨
    literal c s = .next (errorEntry .capacityExceeded 3 (pushEntry [c] s)) ∨
    literal c s = .next (afterFirst c s) := by
  rw [literal, hp]
  rcases seedAppend_cases [c] s with ⟨_, h⟩ | ⟨_, h⟩
  · exact .inl (by simp only [h, andThen_raised, conclude_raised])
  · rcases emit_cases [c] (pushEntry [c] s) with ⟨_, h'⟩ | ⟨_, h'⟩
    · exact .inr (.inl (by simp only [h, andThen_ok, finishFirst, h', andThen_raised, conclude_raised]))
    · exact .inr (.inr (by simp only [h, andThen_ok, finishFirst, h', conclude_ok, afterFirst]))

theorem literal_enters_loop {s t : State} {c : Char16} (hp : s.phase = .first) (ht : literal c s = .next t)
    (hl : t.phase = .loop) : t = afterFirst c s := by
  rcases literal_first_cases hp c with h | h | h <;> rw [h] at ht <;> cases ht
  · cases hl
  · cases hl
  · rfl

/-- The only tokens that lead from FIRST to LOOP are the literals (43_driver.md R164). -/
theorem exec_enters_loop {s t : State} {i : Instr} (hp : s.phase = .first) (ht : exec i s = .next t)
    (hl : t.phase = .loop) : ∃ c, t = afterFirst c s := by
  cases i with
  | lit8 ch => exact ⟨zext16 ch, literal_enters_loop hp ht hl⟩
  | lit16 ch => exact ⟨ch, literal_enters_loop hp ht hl⟩
  | endMark =>
    simp only [exec, execEndMark, hp] at ht
    cases ht; cases hl
  | ref k =>
    simp only [exec, execRef, hp] at ht
    cases ht
  | selfRef =>
    simp only [exec, execSelfRef, hp] at ht
    cases ht; cases hl
  | badLoop c =>
    rw [exec_badLoop_of_run (.inl hp)] at ht
    split_ifs at ht
    cases ht; cases hl
  | badFirst =>
    simp only [exec, execBadFirst, hp] at ht
    cases ht; cases hl

/-- From the starting values of R163. -/
theorem afterFirst_registers {s : State} (h : FirstOk s) (c : Char16) :
    (afterFirst c s).dictLen = 4 ∧ (afterFirst c s).eug = 4 ∧ (afterFirst c s).indexBits = 3 ∧
      (afterFirst c s).outLen = 1 ∧ (afterFirst c s).last = [c] ∧ memGet (afterFirst c s).dict 3 = some [c] ∧
      memGet (afterFirst c s).out 0 = some c := by
  simp [afterFirst, h.dictLen, h.eug, h.indexBits, h.outLen, memPutAll]

/-- A step that does not end the run fetched a token and ran it. -/
theorem tokenStep_runs_token {s t : State} (ht : tokenStep s = .next t) (hp : t.phase ≠ .done) :
    ∃ i u, fetchToken s = .ok i u ∧ exec i u = .next t := by
  unfold tokenStep at ht
  cases hf : fetchToken s with
  | ok i u => rw [hf] at ht; exact ⟨i, u, rfl, ht⟩
  | raised e w u => rw [hf] at ht; cases ht; exact absurd rfl hp
  | stop r => rw [hf] at ht; cases ht

/-- Settles O59: reading the token leaves the starting values, and the token was a literal. -/
theorem firstTokenLeavesTheWidthAtThree : Obligations.FirstTokenLeavesTheWidthAtThree := by
  intro s t h hs hp ht hl
  rw [step_of_no_script hs, engineStep_of_first hp] at ht
  obtain ⟨i, u, hf, he⟩ := tokenStep_runs_token ht (by rw [hl]; decide)
  have hsu := fetchToken_frame hf
  obtain ⟨c, rfl⟩ := exec_enters_loop (s := u) (by rw [hsu]; exact hp) he hl
  have hu : FirstOk u := by rw [hsu]; exact { h.first hp with }
  obtain ⟨hdict, heug, hbits, hout, hlast, hentry, hchar⟩ := afterFirst_registers hu c
  exact ⟨hdict, heug, hbits, hout, c, hlast, hentry, hchar⟩

end Sys2Proof.Machine
end

section
/-! The tokens of a run (spec/42_tokens.md R140 to R147): the step that reads a token, the tail that REF, SELF and the
literals of LOOP share (`afterLoop`), what a token leaves unchanged (`KeepsOutside`), END and the illegal codes. -/

namespace Sys2Proof.Machine

open Sys2Proof

/-! ## The step that reads a token (R140) -/

/-- Settles O10, word by word by running the decoder. -/
theorem wordsOfTheSpecDecode : Obligations.WordsOfTheSpecDecode := by
  unfold Obligations.WordsOfTheSpecDecode
  decide

theorem EngineInv.tokenCtx_legal {s : State} (h : EngineInv s) (hp : s.phase = .first ∨ s.phase = .loop) :
    (tokenCtx s).legal := by
  rcases hp with hp | hp
  · have hf := h.first hp
    exact .inl ⟨by simp [tokenCtx, hp], by simp [tokenCtx, hf.indexBits], by simp [tokenCtx, hf.dictLen]⟩
  · have hl := h.loop hp
    exact .inr ⟨by simp [tokenCtx, hp], hl.dictLen, hl.width.1⟩

/-- An empty script and an entry `engineTurn` give the engine the same turn (log entry 7). -/
theorem step_of_engineTurnState {s u : State} (h : engineTurnState s = some u) : step s = engineStep u := by
  unfold engineTurnState at h
  split at h
  · next hs => cases h; exact step_of_no_script hs
  · next hs => cases h; exact step_of_move hs
  · cases h

theorem engineStep_of_undrained {s : State} (hp : s.phase = .first ∨ s.phase = .loop) (hd : s.drained = false) :
    engineStep s = tokenStep s := by
  rcases hp with hp | hp
  · exact engineStep_of_first hp
  · rw [engineStep_of_loop hp, loopStep, hd, if_neg Bool.false_ne_true]

/-- A drained reader has no bit ahead, and a token has at least the two of its code. -/
theorem drained_of_decodeBits {s : State} {i : Instr} {rest : List Bool} (hr : ReaderOk s) (hx : (tokenCtx s).legal)
    (h : decodeBits (tokenCtx s) (restBits s) = some (i, rest)) : s.drained = false := by
  by_contra hd
  have hwidth := Laws.CodeFits.two_le_width hx
  have hlen := length_of_decodeBits h
  rw [(restBits_of_drained hr (by simpa using hd)).1, List.length_nil] at hlen
  omega

/-- Settles O17: the fetch refines the decoder, and the bits that the token took are its encoding. -/
theorem stepRunsDecodedInstruction : Obligations.StepRunsDecodedInstruction := by
  intro s u i rest hturn hinv hp ha
  have hr := (hinv.run hp).reader
  have hx := hinv.tokenCtx_legal hp
  rcases decodeAhead_cases u with ⟨j, l, hdec, hroom, h⟩ | ⟨_, _, _, h⟩ | ⟨_, _, h⟩ <;> rw [ha] at h <;> cases h
  obtain ⟨t, hfetch, hmoved⟩ := (fetchToken_refinesRead hr).value i rest hdec hroom
  obtain ⟨hi, hbits⟩ := encodeOfDecodeIsTheStream (tokenCtx u) i (restBits u) rest hx hdec
  have hstep : step s = exec i t := by
    have hd := drained_of_decodeBits hr hx hdec
    rw [step_of_engineTurnState hturn, engineStep_of_undrained hp hd, tokenStep, hfetch]
  have hcons := hmoved.consumed
  rw [hbits, List.length_append] at hcons
  exact ⟨t, hstep, hmoved.frame, hmoved.reader, hi, by omega, hmoved.bits⟩

/-- Where a token answers a next state, it was run in FIRST or in LOOP (43_driver.md R173). -/
theorem run_of_exec_next {s t : State} {i : Instr} (ht : exec i s = .next t) :
    s.phase = .first ∨ s.phase = .loop := by
  cases hp : s.phase with
  | first => exact .inl rfl
  | loop => exact .inr rfl
  | idle | init | done =>
    cases i <;>
      simp [exec, execLit8, execLit16, literal, execEndMark, execRef, execSelfRef, execBadLoop, execBadFirst, hp] at ht

/-! ## END and the illegal codes (R143, R146, R147) -/

/-- Settles O30: a code above DICTLEN takes the error branch. -/
theorem illegalLoopCodeRaises : Obligations.IllegalLoopCodeRaises := by
  intro s c hp hc
  rw [exec_badLoop_of_run hp.symm, if_pos hc, errorEntry]

theorem exec_badFirst_of_first {s : State} (h : s.phase = .first) :
    exec .badFirst s = .next (errorEntry .badEncoding 3 s) := by
  simp only [exec, execBadFirst, h]

/-- Settles O31: it is error entry. -/
theorem illegalFirstCodeRaises : Obligations.IllegalFirstCodeRaises := fun _ hp => exec_badFirst_of_first hp

theorem exec_endMark_of_run {s : State} (h : s.phase = .first ∨ s.phase = .loop) :
    exec .endMark s = .next (endRun s) := by
  rcases h with h | h <;> simp only [exec, execEndMark, h]

/-- END ends the run, and an illegal code enters its error: nothing else. -/
theorem control_next {s t : State} {i : Instr} (hi : i = .endMark ∨ (∃ c, i = .badLoop c) ∨ i = .badFirst)
    (ht : exec i s = .next t) : t = endRun s ∨ ∃ w, t = errorEntry .badEncoding w s := by
  have hp := run_of_exec_next ht
  rcases hi with rfl | ⟨c, rfl⟩ | rfl
  · rw [exec_endMark_of_run hp] at ht
    cases ht
    exact .inl rfl
  · rw [exec_badLoop_of_run hp] at ht
    split_ifs at ht
    cases ht
    exact .inr ⟨_, rfl⟩
  · rcases hp with hp | hp
    · rw [exec_badFirst_of_first hp] at ht
      cases ht
      exact .inr ⟨_, rfl⟩
    · simp only [exec, execBadFirst, hp] at ht
      cases ht

/-- Settles O39: neither the end of a run nor error entry stores anything. -/
theorem controlTokenFrame : Obligations.ControlTokenFrame := by
  intro s t i hi ht
  rcases control_next hi ht with rfl | ⟨w, rfl⟩
  · exact ⟨rfl, fun _ => ⟨rfl, rfl⟩⟩
  · exact ⟨rfl, fun _ => ⟨rfl, rfl⟩⟩

/-! ## The tail of a LOOP step (43_driver.md R165) -/

/-- Where the tail of a LOOP step leaves the machine with the token `c :: cs`, once there was room for its characters
and for its entry. -/
def afterLoop (c : Char16) (cs : Str) (s : State) : State :=
  setLast (c :: cs) (countEntry (pushEntry (s.last ++ [c]) (writeOut (c :: cs) s)))

theorem afterLoop_eq (c : Char16) (cs : Str) (s : State) :
    afterLoop c cs s =
      { s with dict := (afterLoop c cs s).dict, dictLen := s.dictLen + 1, eug := (afterLoop c cs s).eug,
               indexBits := (afterLoop c cs s).indexBits, out := (afterLoop c cs s).out,
               outLen := (afterLoop c cs s).outLen, last := c :: cs } := rfl

theorem finishLoop_room {s : State} {c : Char16} {cs : Str} (hroom : s.dictLen ≠ s.config.maxDict)
    (hfit : s.outLen.toNat + (c :: cs).length ≤ s.config.maxOut.toNat) :
    finishLoop (c :: cs) s = .ok () (afterLoop c cs s) := by
  have happend := append_room (s := writeOut (c :: cs) s) (s.last ++ [c]) hroom
  simp only [finishLoop, emit_room _ hfit, andThen_ok, firstChar_cons, writeOut_last, happend, afterLoop]

theorem dictLen_ne_maxDict {s : State} (h : s.dictLen.toNat + 1 ≤ s.config.maxDict.toNat) :
    s.dictLen ≠ s.config.maxDict := by
  intro he
  rw [he] at h
  omega

/-- Below MAX_DICT a counted append keeps the width invariant and does not wrap DICTLEN (41_dictionary.md R127). -/
theorem widthOk_counted {s : State} (str : Str) (h4 : 4 ≤ s.dictLen.toNat) (hw : widthOk s)
    (hroom : s.dictLen.toNat + 1 ≤ s.config.maxDict.toNat) :
    widthOk (countEntry (pushEntry str s)) ∧ (countEntry (pushEntry str s)).dictLen.toNat = s.dictLen.toNat + 1 := by
  have hmax := s.config.maxDict.isLt
  exact countEntry_widthOk s str h4 (by omega) hw

theorem widthOk_afterLoop {s : State} (c : Char16) (cs : Str) (h4 : 4 ≤ s.dictLen.toNat) (hw : widthOk s)
    (hroom : s.dictLen.toNat + 1 ≤ s.config.maxDict.toNat) : widthOk (afterLoop c cs s) :=
  (widthOk_counted (s := writeOut (c :: cs) s) (s.last ++ [c]) h4 hw hroom).1

theorem memGet_afterLoop_dict_new (c : Char16) (cs : Str) (s : State) :
    memGet (afterLoop c cs s).dict s.dictLen.toNat = some (s.last ++ [c]) :=
  memGet_pushEntry_new (s.last ++ [c]) (writeOut (c :: cs) s)

theorem memGet_afterLoop_dict_ne {c : Char16} {cs : Str} {s : State} {k : Nat} (h : k ≠ s.dictLen.toNat) :
    memGet (afterLoop c cs s).dict k = memGet s.dict k :=
  memGet_pushEntry_ne (s := writeOut (c :: cs) s) (s.last ++ [c]) h

theorem memGet_afterLoop_out_inside {c : Char16} {cs : Str} {s : State} {j : Nat} (h : j < (c :: cs).length) :
    memGet (afterLoop c cs s).out (s.outLen.toNat + j) = (c :: cs)[j]? :=
  memGet_memPutAll_inside s.out _ _ h

theorem memGet_afterLoop_out_outside {c : Char16} {cs : Str} {s : State} {a : Nat}
    (h : a < s.outLen.toNat ∨ s.outLen.toNat + (c :: cs).length ≤ a) :
    memGet (afterLoop c cs s).out a = memGet s.out a :=
  memGet_memPutAll_outside s.out _ _ h

theorem afterLoop_outLen {c : Char16} {cs : Str} {s : State}
    (hfit : s.outLen.toNat + (c :: cs).length ≤ s.config.maxOut.toNat) :
    (afterLoop c cs s).outLen.toNat = s.outLen.toNat + (c :: cs).length :=
  writeOut_outLen_toNat hfit

theorem lookupEntry_some {s : State} {k : Nat} {str : Str} (h : memGet s.dict k = some str) :
    lookupEntry k s = .ok str s := by simp only [lookupEntry, h]

/-- Settles O27: past the lookup of entry k, REF is the tail of a LOOP step. -/
theorem backReferenceCompletes : Obligations.BackReferenceCompletes := by
  intro s k c cs hp h3 hk hget h4 hw hroom hfit
  have hexec : exec (.ref k) s = .next (afterLoop c cs s) := by
    rw [exec_ref_of_loop hp, if_pos ⟨h3, hk⟩, lookupEntry_some hget, andThen_ok,
      finishLoop_room (dictLen_ne_maxDict hroom) hfit, conclude_ok]
  exact ⟨_, hexec, afterLoop_eq c cs s, memGet_afterLoop_dict_new c cs s, fun _ => memGet_afterLoop_dict_ne,
    afterLoop_outLen hfit, fun _ => memGet_afterLoop_out_inside, fun _ => memGet_afterLoop_out_outside,
    widthOk_afterLoop c cs h4 hw hroom⟩

/-- Settles O28: SELF is the tail of a LOOP step with LAST and its first character, which is also the string that the
tail appends. -/
theorem selfExtensionCompletes : Obligations.SelfExtensionCompletes := by
  intro s c cs hp hlast h4 hw hroom hfit
  have hexec : exec .selfRef s = .next (afterLoop c (cs ++ [c]) s) := by
    rw [exec_selfRef_of_loop hp, hlast, firstChar_cons, andThen_ok, hlast, List.cons_append,
      finishLoop_room (cs := cs ++ [c]) (dictLen_ne_maxDict hroom) hfit, conclude_ok]
  have hentry : memGet (afterLoop c (cs ++ [c]) s).dict s.dictLen.toNat = some (c :: cs ++ [c]) := by
    rw [memGet_afterLoop_dict_new, hlast]
  exact ⟨_, hexec, afterLoop_eq c (cs ++ [c]) s, hentry, fun _ => memGet_afterLoop_dict_ne,
    afterLoop_outLen hfit, fun _ => memGet_afterLoop_out_inside, fun _ => memGet_afterLoop_out_outside,
    widthOk_afterLoop c _ h4 hw hroom⟩

/-! ## The literals (R141, R142) -/

theorem exec_literal {i : Instr} {ch : Char16}
    (hi : (∃ b : BitVec 8, i = .lit8 b ∧ ch = b.setWidth 16) ∨ i = .lit16 ch) (s : State) :
    exec i s = literal ch s := by
  rcases hi with ⟨b, rfl, rfl⟩ | rfl <;> rfl

theorem writeOut_outLen_succ (c : Char16) (s : State) : (writeOut [c] s).outLen = s.outLen + 1 := by
  rw [writeOut_outLen, List.length_singleton, BitVec.ofNat_add, BitVec.ofNat_toNat, BitVec.setWidth_eq]
  rfl

theorem literal_first_room {s : State} (hp : s.phase = .first) (hroom : s.dictLen ≠ s.config.maxDict)
    (c : Char16) (hfit : s.outLen.toNat + 1 ≤ s.config.maxOut.toNat) : literal c s = .next (afterFirst c s) := by
  have hemit : emit [c] (pushEntry [c] s) = .ok () (writeOut [c] (pushEntry [c] s)) := emit_room [c] hfit
  simp only [literal, hp, seedAppend_room [c] hroom, andThen_ok, finishFirst, hemit, conclude_ok, afterFirst]

/-- The registers of R123, R124 and R164 after a literal that is the first token. -/
theorem afterFirst_eq {s : State} (h3 : s.dictLen = 3) (c : Char16) :
    afterFirst c s =
      { s with dict := memPut s.dict 3 [c], dictLen := 4, out := memPut s.out s.outLen.toNat c,
               outLen := s.outLen + 1, last := [c], indexBits := s.indexBits + 1, phase := .loop } := by
  have hdict : (afterFirst c s).dict = memPut s.dict 3 [c] := by simp [afterFirst, h3]
  have hlen : (afterFirst c s).dictLen = 4 := by simp [afterFirst, h3]
  have hout : (afterFirst c s).outLen = s.outLen + 1 := writeOut_outLen_succ c (pushEntry [c] s)
  rw [← hdict, ← hlen, ← hout]
  rfl

/-- Settles O25: both are one literal, and there is room for it. -/
theorem firstLiteralCompletes : Obligations.FirstLiteralCompletes := by
  intro s hp h3 hmax hfit
  have hroom : s.dictLen ≠ s.config.maxDict := fun h => hmax (h.symm.trans h3)
  have hliteral (c : Char16) := (literal_first_room hp hroom c hfit).trans (congrArg _ (afterFirst_eq h3 c))
  exact ⟨fun ch => hliteral (ch.setWidth 16), hliteral⟩

/-- In LOOP a literal appends its character, counted, and goes on as every token does. -/
theorem literal_of_loop {s : State} (hp : s.phase = .loop) (c : Char16) :
    literal c s = conclude ((append [c] s).andThen fun _ u => finishLoop [c] u) := by
  simp only [literal, hp]

/-- Where a literal in LOOP leaves the machine, once there was room for its two entries and its character. -/
def afterLoopLiteral (c : Char16) (s : State) : State := afterLoop c [] (countEntry (pushEntry [c] s))

theorem afterLoopLiteral_eq (c : Char16) (s : State) :
    afterLoopLiteral c s =
      { s with dict := (afterLoopLiteral c s).dict, dictLen := s.dictLen + 2, eug := (afterLoopLiteral c s).eug,
               indexBits := (afterLoopLiteral c s).indexBits, out := (afterLoopLiteral c s).out,
               outLen := s.outLen + 1, last := [c] } := by
  have hlen : s.dictLen + 1 + 1 = s.dictLen + 2 := BitVec.add_assoc s.dictLen 1 1
  have hout : (afterLoopLiteral c s).outLen = s.outLen + 1 := writeOut_outLen_succ c s
  rw [← hlen, ← hout]
  exact afterLoop_eq c [] (countEntry (pushEntry [c] s))

theorem literal_loop_room {s : State} (hp : s.phase = .loop) (hroom : s.dictLen ≠ s.config.maxDict)
    (hroom' : s.dictLen + 1 ≠ s.config.maxDict) (c : Char16) (hfit : s.outLen.toNat + 1 ≤ s.config.maxOut.toNat) :
    literal c s = .next (afterLoopLiteral c s) := by
  have htail : finishLoop [c] (countEntry (pushEntry [c] s)) = .ok () (afterLoopLiteral c s) :=
    finishLoop_room (s := countEntry (pushEntry [c] s)) hroom' hfit
  rw [literal_of_loop hp, append_room [c] hroom, andThen_ok, htail, conclude_ok]

/-- An index of DICT at which only the literal's first append can have stored. -/
theorem memGet_afterLoopLiteral_dict_ne {c : Char16} {s : State} {k : Nat} (h : k ≠ (s.dictLen + 1).toNat) :
    memGet (afterLoopLiteral c s).dict k = memGet (pushEntry [c] s).dict k :=
  memGet_afterLoop_dict_ne (s := countEntry (pushEntry [c] s)) h

/-- Settles O26: the tail of a LOOP step behind the counted append of the character's own entry. -/
theorem loopLiteralCompletes : Obligations.LoopLiteralCompletes := by
  intro s i ch hi hp h4 hw hmax hfit
  obtain ⟨hwidth, hlen⟩ := widthOk_counted [ch] h4 hw (by omega)
  have hsucc : (s.dictLen + 1).toNat = s.dictLen.toNat + 1 := hlen
  have hexec : exec i s = .next (afterLoopLiteral ch s) :=
    (exec_literal hi s).trans
      (literal_loop_room hp (dictLen_ne_maxDict (by omega)) (fun h => by rw [← h] at hmax; omega) ch hfit)
  refine ⟨_, hexec, afterLoopLiteral_eq ch s, ?_, ?_, fun k hk hk' => ?_, ?_, fun a ha => ?_, ?_⟩
  · rw [memGet_afterLoopLiteral_dict_ne (by omega), memGet_pushEntry_new]
  · rw [← hsucc]
    exact memGet_afterLoop_dict_new ch [] (countEntry (pushEntry [ch] s))
  · rw [memGet_afterLoopLiteral_dict_ne (by omega), memGet_pushEntry_ne [ch] hk]
  · exact memGet_afterLoop_out_inside (s := countEntry (pushEntry [ch] s)) (j := 0) (Nat.zero_lt_succ _)
  · exact memGet_afterLoop_out_outside (s := countEntry (pushEntry [ch] s)) (ha.lt_or_gt.imp_right Nat.succ_le_of_lt)
  · exact widthOk_afterLoop ch [] (by rw [hlen]; omega) hwidth (by rw [hlen]; exact hmax)

/-! ## What a token leaves unchanged (41_dictionary.md R121, R130) -/

/-- `t` is `s` but for the registers that a token writes: the reader, the latched inputs and the host's side are the
same, and so are OUT outside the `len` characters from OUT_LEN on and DICT outside `entries`. -/
structure KeepsOutside (s t : State) (len : Nat) (entries : List Nat) : Prop where
  frame : t = { s with phase := t.phase, indexBits := t.indexBits, eug := t.eug, dictLen := t.dictLen, dict := t.dict,
                       last := t.last, out := t.out, outLen := t.outLen, err := t.err, errInfo := t.errInfo }
  out : ∀ a, a < s.outLen.toNat ∨ s.outLen.toNat + len ≤ a → memGet t.out a = memGet s.out a
  dict : ∀ k, k ∉ entries → memGet t.dict k = memGet s.dict k

/-- The run goes on in LOOP, or a capacity was exceeded before LAST was set (60_exceptions.md R184). -/
def goesOnOrFull (s t : State) : Prop :=
  (t.phase = .loop ∧ t.err = s.err ∧ t.errInfo = s.errInfo) ∨
    (t.phase = .done ∧ t.err = .capacityExceeded ∧ (t.errInfo = 2 ∨ t.errInfo = 3) ∧ t.last = s.last)

theorem KeepsOutside.errorEntry (e : ErrKind) (w : Word) (s : State) (len : Nat) (entries : List Nat) :
    KeepsOutside s (errorEntry e w s) len entries :=
  ⟨rfl, fun _ _ => rfl, fun _ _ => rfl⟩

/-- Everything a concluded tail of a LOOP step can answer. -/
theorem finishLoop_next {s t : State} {tok : Str} (h : conclude (finishLoop tok s) = .next t) :
    t = errorEntry .capacityExceeded 3 s ∨ t = errorEntry .capacityExceeded 2 (writeOut tok s) ∨
      ∃ c cs, tok = c :: cs ∧ t = afterLoop c cs s := by
  rcases finishLoop_cases tok s with h' | h' | h' | ⟨c, cs, rfl, _, _, h'⟩ <;> rw [h'] at h <;> cases h
  · exact .inl rfl
  · exact .inr (.inl rfl)
  · exact .inr (.inr ⟨c, cs, rfl, rfl⟩)

theorem finishLoop_keepsOutside {s t : State} {tok : Str} (hp : s.phase = .loop)
    (h : conclude (finishLoop tok s) = .next t) :
    KeepsOutside s t tok.length [s.dictLen.toNat] ∧ goesOnOrFull s t := by
  rcases finishLoop_next h with rfl | rfl | ⟨c, cs, rfl, rfl⟩
  · exact ⟨.errorEntry _ _ s _ _, .inr ⟨rfl, rfl, .inr rfl, rfl⟩⟩
  · exact ⟨⟨rfl, fun _ => memGet_memPutAll_outside _ _ _, fun _ _ => rfl⟩, .inr ⟨rfl, rfl, .inl rfl, rfl⟩⟩
  · exact ⟨⟨rfl, fun _ => memGet_afterLoop_out_outside,
      fun _ hk => memGet_afterLoop_dict_ne (List.ne_of_not_mem_cons hk)⟩, .inl ⟨hp, rfl, rfl⟩⟩

/-- Everything REF and SELF can answer: the tail of a LOOP step with the string they emit, or, for SELF in FIRST, the
error of log entry 10. -/
theorem backReference_next {s t : State} {i : Instr} (hi : (∃ k, i = .ref k) ∨ i = .selfRef)
    (ht : exec i s = .next t) :
    (s.phase = .loop ∧ ∃ tok, tokenString s i = some tok ∧ conclude (finishLoop tok s) = .next t) ∨
      (s.phase = .first ∧ t = errorEntry .badEncoding s.dictLen s) := by
  rcases run_of_exec_next ht with hp | hp
  · obtain ⟨-, hrefFirst, -, -, hselfFirst, -⟩ := tokensThatCannotOccurStop s
    rcases hi with ⟨k, rfl⟩ | rfl
    · rw [hrefFirst k hp] at ht
      cases ht
    · rw [hselfFirst hp] at ht
      cases ht
      exact .inr ⟨hp, rfl⟩
  · refine .inl ⟨hp, ?_⟩
    rcases hi with ⟨k, rfl⟩ | rfl
    · rw [exec_ref_of_loop hp] at ht
      split_ifs at ht
      cases hget : memGet s.dict k with
      | none => rw [lookupEntry_none hget] at ht; cases ht
      | some tok =>
        rw [lookupEntry_some hget, andThen_ok] at ht
        exact ⟨tok, hget, ht⟩
    · rw [exec_selfRef_of_loop hp] at ht
      cases hlast : s.last with
      | nil => rw [hlast] at ht; cases ht
      | cons c cs =>
        rw [hlast, firstChar_cons, andThen_ok] at ht
        exact ⟨s.last ++ [c], by simp [tokenString, hlast], ht⟩

/-- Settles O38: the tail of a LOOP step, or the error of SELF in FIRST. -/
theorem backReferenceFrame : Obligations.BackReferenceFrame := by
  intro s t i hi ht
  rcases backReference_next hi ht with ⟨hp, tok, htok, hconc⟩ | ⟨hp, rfl⟩
  · obtain ⟨⟨hframe, hout, hdict⟩, hend⟩ := finishLoop_keepsOutside hp hconc
    rw [hframe]
    exact ⟨rfl, rfl, rfl, rfl, rfl, rfl, rfl, rfl, rfl, rfl, rfl, rfl, rfl, rfl,
      fun str hstr => Option.some.inj (htok.symm.trans hstr) ▸ hout,
      fun hnone => absurd (htok.symm.trans hnone) nofun,
      fun k hk => hdict k (mt List.mem_singleton.1 hk),
      hend.imp_right fun ⟨hdone, herr, hinfo, hlast⟩ => ⟨hdone, hlast, .inl ⟨herr, hinfo⟩⟩⟩
  · exact ⟨rfl, rfl, rfl, rfl, rfl, rfl, rfl, rfl, rfl, rfl, rfl, rfl, rfl, rfl, fun _ _ _ _ => rfl, fun _ => rfl,
      fun _ _ => rfl, .inr ⟨rfl, rfl, .inr ⟨hp, rfl⟩⟩⟩

/-- Everything a literal in LOOP can answer. -/
theorem literal_loop_next {s t : State} {c : Char16} (hp : s.phase = .loop) (ht : literal c s = .next t) :
    t = errorEntry .capacityExceeded 2 s ∨
      conclude (finishLoop [c] (countEntry (pushEntry [c] s))) = .next t := by
  rw [literal_of_loop hp] at ht
  rcases append_cases [c] s with ⟨_, h⟩ | ⟨_, h⟩ <;> rw [h] at ht
  · cases ht
    exact .inl rfl
  · exact .inr ht

/-- A literal stores one character and at most two entries. -/
theorem literal_keepsOutside {s t : State} {c : Char16} (hp : s.phase = .first ∨ s.phase = .loop)
    (ht : literal c s = .next t) :
    KeepsOutside s t 1 [s.dictLen.toNat, (s.dictLen + 1).toNat] ∧ goesOnOrFull s t := by
  have hentry (k : Nat) (hk : k ∉ [s.dictLen.toNat, (s.dictLen + 1).toNat]) :
      memGet (pushEntry [c] s).dict k = memGet s.dict k :=
    memGet_pushEntry_ne [c] (List.ne_of_not_mem_cons hk)
  rcases hp with hp | hp
  · rcases literal_first_cases hp c with h | h | h <;> rw [h] at ht <;> cases ht
    · exact ⟨.errorEntry _ _ s _ _, .inr ⟨rfl, rfl, .inl rfl, rfl⟩⟩
    · exact ⟨⟨rfl, fun _ _ => rfl, hentry⟩, .inr ⟨rfl, rfl, .inr rfl, rfl⟩⟩
    · exact ⟨⟨rfl, fun _ => memGet_memPutAll_outside s.out _ [c], hentry⟩, .inl ⟨rfl, rfl, rfl⟩⟩
  · rcases literal_loop_next hp ht with rfl | htail
    · exact ⟨.errorEntry _ _ s _ _, .inr ⟨rfl, rfl, .inl rfl, rfl⟩⟩
    · obtain ⟨⟨hframe, hout, hdict⟩, hend⟩ :=
        finishLoop_keepsOutside (s := countEntry (pushEntry [c] s)) hp htail
      exact ⟨⟨hframe, hout, fun k hk => (hdict k (List.not_mem_of_not_mem_cons hk)).trans (hentry k hk)⟩, hend⟩

/-- Settles O37: both are one literal. -/
theorem literalFrame : Obligations.LiteralFrame := by
  intro s t i hi ht
  obtain ⟨c, hc⟩ : ∃ c, literal c s = .next t := by
    rcases hi with ⟨ch, rfl⟩ | ⟨ch, rfl⟩
    · exact ⟨zext16 ch, ht⟩
    · exact ⟨ch, ht⟩
  obtain ⟨⟨hframe, hout, hdict⟩, hend⟩ := literal_keepsOutside (run_of_exec_next ht) hc
  rw [hframe]
  exact ⟨rfl, rfl, rfl, rfl, rfl, rfl, rfl, rfl, rfl, rfl, rfl, rfl, rfl, rfl, fun a ha => hout a (by omega),
    fun k hk hk' => hdict k (List.not_mem_cons_of_ne_of_not_mem hk (mt List.mem_singleton.1 hk')), hend⟩

end Sys2Proof.Machine
end

section
/-! The driver, step by step (spec/43_driver.md R160 to R167, R173): START, everything INIT_STEP can answer, the two
ends of a run, and where a step leaves PHASE. -/

namespace Sys2Proof.Machine

open Sys2Proof

/-! ## START (R160) -/

theorem statusWord_of_init {s : State} (h : s.phase = .init) : statusWord s = 1 := by
  simp [statusWord, busy, done, statusErr, h]

theorem statusWord_of_success {s : State} (hp : s.phase = .done) (he : s.err = .none) : statusWord s = 2 := by
  simp [statusWord, busy, done, statusErr, ErrKind.code, hp, he]

theorem ctrlWrite_of_not_busy {s : State} (h : busy s = false) (data : Word) :
    ctrlWrite data s =
      if ctrlStartOf data then .next (startRun { s with ctrlAlphabet := ctrlAlphabetOf data })
      else .next { s with ctrlAlphabet := ctrlAlphabetOf data } := by
  simp [ctrlWrite, h]

/-- Settles O41: a write of CTRL outside BUSY; in INIT STATUS reads BUSY alone. -/
theorem startInIdleOrDone : Obligations.StartInIdleOrDone := by
  intro s data rest hs hp
  have hbusy : busy { s with host := rest } = false := by rcases hp with hp | hp <;> simp [busy, hp]
  have hstep : step s = ctrlWrite data { s with host := rest } := step_csrWrite rfl hs
  rw [hstep, ctrlWrite_of_not_busy hbusy, ctrlStartOf]
  refine ⟨fun hstart => ⟨_, if_pos hstart, rfl, statusWord_of_init rfl⟩, fun hstart => if_neg ?_⟩
  rw [hstart]
  exact Bool.false_ne_true

/-! ## INIT_STEP (R161 to R163) -/

theorem engineStep_of_init {s : State} (h : s.phase = .init) : engineStep s = initStep s := by
  simp only [engineStep, h]

theorem initStep_of_tooLong {s : State} (h : s.config.maxIn < s.inLen) :
    initStep s = .next (errorEntry .capacityExceeded 1 (latchRun s)) := if_pos h

theorem initStep_of_empty {s : State} (h : s.inLen = 0) : initStep s = .next (endRun (latchRun s)) := by
  have hmax : ¬ s.config.maxIn < s.inLen := by rw [h]; exact BitVec.not_lt_zero
  exact (if_neg hmax).trans (if_pos h)

/-- An input that is neither too long nor empty is seeded by its first symbol, if that symbol is mapped (R162). -/
theorem initStep_of_mapped {s : State} {v : BitVec 7} (hmax : ¬ s.config.maxIn < s.inLen) (h0 : s.inLen ≠ 0)
    (hv : mapSymbol s.ctrlAlphabet (inSymbol s 0) = some v) : initStep s = .next (seedRun v (latchRun s)) := by
  have hv' : mapSymbol (latchRun s).alpha (inSymbol (latchRun s) 0) = some v := hv
  exact ((if_neg hmax).trans (if_neg h0)).trans (by rw [hv'])

theorem initStep_of_unmapped {s : State} (hmax : ¬ s.config.maxIn < s.inLen) (h0 : s.inLen ≠ 0)
    (hv : mapSymbol s.ctrlAlphabet (inSymbol s 0) = none) :
    initStep s = .next (errorEntry .illegalCharacter 0 (latchRun s)) := by
  have hv' : mapSymbol (latchRun s).alpha (inSymbol (latchRun s) 0) = none := hv
  exact ((if_neg hmax).trans (if_neg h0)).trans (by rw [hv'])

/-- Settles O43, by the rule of each branch. -/
theorem initStepSeedsOrEnds : Obligations.InitStepSeedsOrEnds := by
  intro s hs hp
  rw [step_of_no_script hs, engineStep_of_init hp]
  exact ⟨fun h => ⟨_, initStep_of_tooLong h, rfl, rfl, rfl, rfl⟩,
    fun h => ⟨_, initStep_of_empty h, rfl, rfl, rfl, rfl⟩,
    fun h0 hmax hv => ⟨_, initStep_of_unmapped hmax h0 hv, rfl, rfl, rfl, rfl⟩,
    fun _ h0 hmax hv => initStep_of_mapped hmax h0 hv⟩

/-- INIT_STEP ends the run at once, or seeds it. -/
theorem initStep_cases (s : State) :
    (∃ t, initStep s = .next t ∧ t.phase = .done) ∨
      ∃ v, initStep s = .next (seedRun v (latchRun s)) := by
  by_cases hmax : s.config.maxIn < s.inLen
  · exact .inl ⟨_, initStep_of_tooLong hmax, rfl⟩
  · by_cases h0 : s.inLen = 0
    · exact .inl ⟨_, initStep_of_empty h0, rfl⟩
    · cases hv : mapSymbol s.ctrlAlphabet (inSymbol s 0) with
      | none => exact .inl ⟨_, initStep_of_unmapped hmax h0 hv, rfl⟩
      | some v => exact .inr ⟨v, initStep_of_mapped hmax h0 hv⟩

/-! ## The ends of a run (R165 to R167) -/

/-- Settles O19: neither check of the step comes before the fetch, whose error the step enters. -/
theorem readErrorEndsTheRun : Obligations.ReadErrorEndsTheRun := by
  intro s t e info hs hp hf
  have hstep : step s = tokenStep s := by
    rw [step_of_no_script hs]
    rcases hp with hp | ⟨hp, hd⟩
    · exact engineStep_of_first hp
    · exact engineStep_of_undrained (.inr hp) hd
  rw [hstep, tokenStep, hf]
  exact ⟨rfl, rfl⟩

theorem loopStep_of_drained {s : State} (h : s.drained = true) :
    loopStep s = .next (errorEntry .unexpectedEndOfBuffer 0 s) := if_pos h

/-- Settles O20: the DRAINED check is the first of LOOP_STEP. -/
theorem loopStepOnDrainedRaises : Obligations.LoopStepOnDrainedRaises := fun _ hs hp hd =>
  (step_of_no_script hs).trans ((engineStep_of_loop hp).trans (loopStep_of_drained hd))

/-- Settles O29: END is the successful end, after which every character below OUT_LEN is a result's. -/
theorem endMarkCompletes : Obligations.EndMarkCompletes := by
  intro s hp
  refine ⟨endRun s, exec_endMark_of_run hp, rfl, statusWord_of_success rfl rfl, fun a ha => ?_⟩
  exact if_pos ⟨resultValid_of_done rfl rfl, ha⟩

/-- Settles O35: token by token, from the phases in which a token has no effect. -/
theorem tokensOutsideARunStop : Obligations.TokensOutsideARunStop := by
  intro s i hfirst hloop
  obtain hp | hp | hp : s.phase = .idle ∨ s.phase = .init ∨ s.phase = .done := by
    cases h : s.phase <;> simp_all
  all_goals
    cases i with
    | lit8 ch | lit16 ch => simp only [exec, execLit8, execLit16, literal, hp]
    | endMark => simp only [exec, execEndMark, hp]
    | ref k => simp only [exec, execRef, hp]
    | selfRef => simp only [exec, execSelfRef, hp]
    | badLoop c => simp only [exec, execBadLoop, hp]
    | badFirst => simp only [exec, execBadFirst, hp]

/-! ## Where a step leaves PHASE (R173) -/

/-- N stays as it is, and PHASE goes to LOOP or to DONE. -/
def staysInRun (s t : State) : Prop := t.n = s.n ∧ (t.phase = .loop ∨ t.phase = .done)

theorem staysInRun_errorEntry (e : ErrKind) (w : Word) (s : State) : staysInRun s (errorEntry e w s) :=
  ⟨rfl, .inr rfl⟩

theorem KeepsOutside.staysInRun {s t : State} {len : Nat} {entries : List Nat} (h : KeepsOutside s t len entries)
    (hend : goesOnOrFull s t) : staysInRun s t :=
  ⟨by rw [h.frame], hend.imp And.left And.left⟩

theorem exec_staysInRun {s t : State} {i : Instr} (ht : exec i s = .next t) : staysInRun s t := by
  have hliteral {c : Char16} (h : literal c s = .next t) : staysInRun s t := by
    obtain ⟨hkeeps, hend⟩ := literal_keepsOutside (run_of_exec_next ht) h
    exact hkeeps.staysInRun hend
  have hreference (hi : (∃ k, i = .ref k) ∨ i = .selfRef) : staysInRun s t := by
    rcases backReference_next hi ht with ⟨hp, tok, -, hconc⟩ | ⟨-, rfl⟩
    · obtain ⟨hkeeps, hend⟩ := finishLoop_keepsOutside hp hconc
      exact hkeeps.staysInRun hend
    · exact staysInRun_errorEntry _ _ s
  have hcontrol (hi : i = .endMark ∨ (∃ c, i = .badLoop c) ∨ i = .badFirst) : staysInRun s t := by
    rcases control_next hi ht with rfl | ⟨w, rfl⟩
    · exact ⟨rfl, .inr rfl⟩
    · exact staysInRun_errorEntry _ w s
  cases i with
  | lit8 ch | lit16 ch => exact hliteral ht
  | ref k => exact hreference (.inl ⟨k, rfl⟩)
  | selfRef => exact hreference (.inr rfl)
  | endMark => exact hcontrol (.inl rfl)
  | badLoop c => exact hcontrol (.inr (.inl ⟨c, rfl⟩))
  | badFirst => exact hcontrol (.inr (.inr rfl))

theorem tokenStep_staysInRun {s t : State} (ht : tokenStep s = .next t) : staysInRun s t := by
  unfold tokenStep at ht
  cases hf : fetchToken s with
  | ok i u =>
    rw [hf] at ht
    obtain ⟨hn, hp⟩ := exec_staysInRun ht
    have hsu : u.n = s.n := by rw [fetchToken_frame hf]
    exact ⟨hn.trans hsu, hp⟩
  | raised e w u =>
    rw [hf] at ht
    cases ht
    have hsu : u.n = s.n := by rw [fetchToken_raised_frame hf]
    exact ⟨hsu, .inr rfl⟩
  | stop r => rw [hf] at ht; cases ht

theorem loopStep_of_undrained {s : State} (h : s.drained = false) : loopStep s = tokenStep s :=
  if_neg (by rw [h]; exact Bool.false_ne_true)

theorem loopStep_staysInRun {s t : State} (ht : loopStep s = .next t) : staysInRun s t := by
  cases hd : s.drained with
  | true =>
    rw [loopStep_of_drained hd] at ht
    cases ht
    exact staysInRun_errorEntry _ _ s
  | false =>
    rw [loopStep_of_undrained hd] at ht
    exact tokenStep_staysInRun ht

theorem initStep_next_phase {s t : State} (ht : initStep s = .next t) : t.phase = .first ∨ t.phase = .done := by
  rcases initStep_cases s with ⟨u, h, hp⟩ | ⟨v, h⟩ <;> rw [h] at ht <;> cases ht
  · exact .inr hp
  · exact .inl rfl

theorem engineStep_of_idle {s : State} (h : s.phase = .idle) : engineStep s = .next s := by
  simp only [engineStep, h]

theorem engineStep_of_done {s : State} (h : s.phase = .done) : engineStep s = .next s := by
  simp only [engineStep, h]

/-- Settles O53, phase by phase. -/
theorem phaseTransitionTable : Obligations.PhaseTransitionTable := by
  intro s t hs ht
  rw [step_of_no_script hs] at ht
  refine ⟨fun hp => ?_, fun hp => ?_, fun hp => ?_, fun hp => ?_, fun hp => ?_⟩
  · rw [engineStep_of_idle hp] at ht
    cases ht
    rfl
  · rw [engineStep_of_done hp] at ht
    cases ht
    rfl
  · rw [engineStep_of_init hp] at ht
    exact initStep_next_phase ht
  · rw [engineStep_of_first hp] at ht
    exact (tokenStep_staysInRun ht).2
  · rw [engineStep_of_loop hp] at ht
    exact (loopStep_staysInRun ht).2

end Sys2Proof.Machine
end

section
/-! Every run ends (spec/43_driver.md R169). Under the invariant no step of a run stops, and one that does not end the
run moves the cursor past the two bits of a code at least (`engineStep_progress`); the cursor stays within the 6N bits
of the input, so the steps that are left are counted by the bits that are left. -/

namespace Sys2Proof.Machine

open Sys2Proof

/-! ## The invariant rules out the stops -/

/-- FIRSTCHAR never stops the tail of a LOOP step whose token is not empty. -/
theorem finishLoop_cons_next (c : Char16) (cs : Str) (s : State) :
    ∃ t, conclude (finishLoop (c :: cs) s) = .next t := by
  rcases emit_cases (c :: cs) s with ⟨-, hfull⟩ | ⟨-, hemit⟩
  · exact ⟨_, by rw [finishLoop, hfull, andThen_raised, conclude_raised]⟩
  · rcases append_cases ((writeOut (c :: cs) s).last ++ [c]) (writeOut (c :: cs) s) with ⟨-, h⟩ | ⟨-, h⟩ <;>
      exact ⟨_, by rw [finishLoop, hemit, andThen_ok, firstChar_cons, andThen_ok, h]; rfl⟩

theorem literal_progress {s : State} (hp : s.phase = .first ∨ s.phase = .loop) (c : Char16) :
    ∃ t, literal c s = .next t := by
  rcases hp with hp | hp
  · rcases literal_first_cases hp c with h | h | h <;> exact ⟨_, h⟩
  · rw [literal_of_loop hp]
    rcases append_cases [c] s with ⟨-, h⟩ | ⟨-, h⟩ <;> rw [h]
    · exact ⟨_, rfl⟩
    · exact finishLoop_cons_next c [] _

/-- LAST is an entry, and no entry is empty (10_state.md R33, 41_dictionary.md R132). -/
theorem LoopOk.last_ne_nil {s : State} (h : LoopOk s) : s.last ≠ [] := by
  obtain ⟨k, h3, hk, hget⟩ := h.last
  obtain ⟨str, hstr, hne, -⟩ := h.entries k h3 hk
  obtain rfl : str = s.last := Option.some.inj (hstr.symm.trans hget)
  exact hne

theorem loop_of_not_isFirst {s : State} (hp : s.phase = .first ∨ s.phase = .loop)
    (h : (tokenCtx s).isFirst = false) : s.phase = .loop :=
  hp.resolve_left (of_decide_eq_false h)

/-- A token that can stand where it is has an effect there. -/
theorem exec_progress {s : State} (h : EngineInv s) (hp : s.phase = .first ∨ s.phase = .loop) {i : Instr}
    (hi : i.wellFormed (tokenCtx s) = true) : ∃ t, exec i s = .next t := by
  cases i with
  | lit8 ch => exact literal_progress hp (zext16 ch)
  | lit16 ch => exact literal_progress hp ch
  | endMark => exact ⟨_, exec_endMark_of_run hp⟩
  | ref k =>
    simp only [Instr.wellFormed, Bool.and_eq_true, Bool.not_eq_true', decide_eq_true_eq] at hi
    obtain ⟨⟨hloop, h3⟩, hk⟩ := hi
    have hp := loop_of_not_isFirst hp hloop
    obtain ⟨str, hget, hne, -⟩ := (h.loop hp).entries k h3 hk
    obtain ⟨c, cs, rfl⟩ := List.exists_cons_of_ne_nil hne
    rw [exec_ref_of_loop hp, if_pos ⟨h3, hk⟩, lookupEntry_some hget, andThen_ok]
    exact finishLoop_cons_next c cs s
  | selfRef =>
    simp only [Instr.wellFormed, Bool.not_eq_true'] at hi
    have hp := loop_of_not_isFirst hp hi
    obtain ⟨c, cs, hlast⟩ := List.exists_cons_of_ne_nil (h.loop hp).last_ne_nil
    rw [exec_selfRef_of_loop hp, hlast, firstChar_cons, andThen_ok, hlast, List.cons_append]
    exact finishLoop_cons_next c _ s
  | badLoop c =>
    simp only [Instr.wellFormed, Bool.and_eq_true, decide_eq_true_eq] at hi
    obtain ⟨⟨-, hc⟩, -⟩ := hi
    exact ⟨_, (exec_badLoop_of_run hp c).trans (if_pos hc)⟩
  | badFirst => exact ⟨_, exec_badFirst_of_first (of_decide_eq_true hi)⟩

/-! ## A step that does not end the run moves the cursor (R169) -/

/-- A fetched token can stand where it was fetched: what decodes is well-formed. -/
theorem wellFormed_of_fetchToken {s t : State} {i : Instr} (hr : ReaderOk s) (hx : (tokenCtx s).legal)
    (h : fetchToken s = .ok i t) : i.wellFormed (tokenCtx s) = true := by
  obtain ⟨rest, hdec, -⟩ := (h ▸ fetchToken_refinesRead hr).moved_of_ok
  exact (encodeOfDecodeIsTheStream _ i _ rest hx hdec).1

theorem tokenStep_progress {s : State} (h : EngineInv s) (hp : s.phase = .first ∨ s.phase = .loop) :
    ∃ t, tokenStep s = .next t ∧ (t.phase ≠ .done → consumed s + 2 ≤ consumed t) := by
  have hr := (h.run hp).reader
  have hx := h.tokenCtx_legal hp
  have hk := fetchToken_keeps h.base hr
  unfold tokenStep
  cases hf : fetchToken s with
  | ok i u =>
    rw [hf] at hk
    obtain ⟨hsu, hru⟩ := hk
    have hu : EngineInv u := h.of_reader hp hsu hru
    have hpu : u.phase = .first ∨ u.phase = .loop := by rw [hsu]; exact hp
    have hctx : tokenCtx u = tokenCtx s := by rw [hsu]; rfl
    have hi : i.wellFormed (tokenCtx u) = true := hctx ▸ wellFormed_of_fetchToken hr hx hf
    obtain ⟨t, ht⟩ := exec_progress hu hpu hi
    have hgrown := exec_grown hu.base (hu.indexBits_le hpu) ht
    refine ⟨t, ht, fun _ => ?_⟩
    calc consumed s + 2 ≤ consumed s + s.indexBits.toNat := Nat.add_le_add_left (Laws.CodeFits.two_le_width hx) _
      _ ≤ consumed u := fetchToken_consumed hr hf
      _ ≤ consumed t := hgrown.cursor
  | raised e w u => exact ⟨_, rfl, fun hdone => absurd rfl hdone⟩
  | stop r => exact absurd hf (fetchToken_no_stop s r)

theorem engineStep_progress {s : State} (h : EngineInv s) (hp : s.phase = .first ∨ s.phase = .loop) :
    ∃ t, engineStep s = .next t ∧ (t.phase ≠ .done → consumed s + 2 ≤ consumed t) := by
  rcases hp with hp | hp
  · rw [engineStep_of_first hp]
    exact tokenStep_progress h (.inl hp)
  · rw [engineStep_of_loop hp]
    cases hd : s.drained with
    | true =>
      rw [loopStep_of_drained hd]
      exact ⟨_, rfl, fun hdone => absurd rfl hdone⟩
    | false =>
      rw [loopStep_of_undrained hd]
      exact tokenStep_progress h (.inr hp)

/-! ## Counting the steps -/

theorem consumed_le {s : State} (h : ReaderOk s) : consumed s ≤ 6 * s.n.toNat := by
  have hle := h.symIdx_le
  unfold consumed
  split <;> omega

/-- A run between two of its steps, with no host move to come. -/
structure Running (s : State) : Prop where
  inv : EngineInv s
  noScript : s.host = []
  phase : s.phase = .first ∨ s.phase = .loop

/-- A step of a run ends it, or leaves a run on the same input with two bits fewer ahead. -/
theorem Running.step {s : State} (h : Running s) :
    ∃ t, step s = .next t ∧ (t.phase = .done ∨ Running t ∧ t.inLen = s.inLen ∧ consumed s + 2 ≤ consumed t) := by
  obtain ⟨t, ht, hcons⟩ := engineStep_progress h.inv h.phase
  rw [← step_of_no_script h.noScript] at ht
  refine ⟨t, ht, or_iff_not_imp_left.2 fun hdone => ?_⟩
  obtain ⟨-, -, -, hfirst, hloop⟩ := phaseTransitionTable s t h.noScript ht
  obtain ⟨-, hlen, -, -, -, -, hscript, -⟩ := engineNeverWritesTheHostSide s t h.noScript ht
  have hp : t.phase = .loop := (h.phase.elim hfirst hloop).resolve_right hdone
  exact ⟨⟨invariantKeptByEveryStep s t h.inv ht, hscript, .inr hp⟩, hlen, hcons hdone⟩

/-- Two bits a step: a run with at most 2m bits ahead has at most m + 1 steps to go. -/
theorem Running.reachesDone {m : Nat} : ∀ {s : State}, Running s → 6 * s.inLen.toNat ≤ consumed s + 2 * m →
    ∃ k t, k ≤ m + 1 ∧ Host.Core.run core k s = .next t ∧ t.phase = .done := by
  induction m with
  | zero =>
    intro s h hm
    obtain ⟨t, ht, hdone | ⟨hrun, hlen, hcons⟩⟩ := h.step
    · exact ⟨1, t, le_rfl, run_core_of_step 0 s t ht, hdone⟩
    · have hrunOk := hrun.inv.run hrun.phase
      have hle := consumed_le hrunOk.reader
      rw [hrunOk.n_eq, hlen] at hle
      omega
  | succ m ih =>
    intro s h hm
    obtain ⟨t, ht, hdone | ⟨hrun, hlen, hcons⟩⟩ := h.step
    · exact ⟨1, t, by omega, run_core_of_step 0 s t ht, hdone⟩
    · obtain ⟨k, u, hk, hu, hdone⟩ := ih hrun (by rw [hlen]; omega)
      exact ⟨k + 1, u, by omega, (run_core_of_step k s t ht).trans hu, hdone⟩

/-- Settles O55: one step for INIT, one for each two of the 6N bits, and one that finds none left. -/
theorem everyRunReachesDone : Obligations.EveryRunReachesDone := by
  intro s h hs hp
  have hstep : step s = initStep s := (step_of_no_script hs).trans (engineStep_of_init hp)
  rcases initStep_cases s with ⟨t, ht, hdone⟩ | ⟨v, hv⟩
  · exact ⟨1, t, by omega, run_core_of_step 0 s t (hstep.trans ht), hdone⟩
  · have ht := hstep.trans hv
    have hrun : Running (seedRun v (latchRun s)) := ⟨invariantKeptByEveryStep s _ h ht, hs, .inl rfl⟩
    have hbits : 6 * (seedRun v (latchRun s)).inLen.toNat ≤
        consumed (seedRun v (latchRun s)) + 2 * (3 * s.inLen.toNat) := by
      rw [seedRun_inLen, latchRun_inLen]
      omega
    obtain ⟨k, t, hk, hrunk, hdone⟩ := hrun.reachesDone hbits
    exact ⟨k + 1, t, by omega, (run_core_of_step k s _ ht).trans hrunk, hdone⟩

end Sys2Proof.Machine
end

section
/-! A run depends on its input alone (spec/43_driver.md R168, 70_reset_and_hazards.md R203, R204, R206). Two machines
are alike when both stand in INIT on the same input and limits (`StartAlike`), at the same place of the same run
(`RunAlike`: one is a graft of the other's registers), or at the same end (`EndAlike`). The engine's steps take alike
machines to alike ones (`engineStep_alike`), and a move of the host during a run leaves a machine as alike as it was
(`Alike.hostMoved`). -/

namespace Sys2Proof.Machine

open Sys2Proof

/-! ## Two machines on the same run -/

structure StartAlike (s t : State) : Prop where
  phase : s.phase = .init
  phase' : t.phase = .init
  limits : sameLimits s t
  alphabet : t.ctrlAlphabet = s.ctrlAlphabet
  inLen : t.inLen = s.inLen
  input : ∀ i, i < s.inLen.toNat → inSymbol t i = inSymbol s i

structure RunAlike (s t : State) : Prop where
  phase : s.phase = .first ∨ s.phase = .loop
  registers : t = graft s t
  limits : sameLimits s t
  latched : t.inLen = s.n
  input : sameInput s t
  output : sameOutput s t

structure EndAlike (s t : State) : Prop where
  phase : s.phase = .done
  result : sameResult s t

/-- Alike once INIT has latched the input. -/
def LatchedAlike (s t : State) : Prop := RunAlike s t ∨ EndAlike s t

def Alike (s t : State) : Prop := StartAlike s t ∨ LatchedAlike s t

/-- What a graft takes from `s` is the same in both. -/
theorem RunAlike.register_eq {α : Type} {s t : State} (h : RunAlike s t) (f : State → α) (hf : f (graft s t) = f s) :
    f s = f t :=
  hf.symm.trans (congrArg f h.registers.symm)

theorem RunAlike.result {s t : State} (h : RunAlike s t) : sameResult s t :=
  ⟨h.register_eq State.phase rfl, h.register_eq State.err rfl, h.register_eq State.errInfo rfl,
    h.register_eq State.outLen rfl, fun i hi => (h.output i hi).symm⟩

theorem LatchedAlike.result {s t : State} (h : LatchedAlike s t) : sameResult s t :=
  h.elim RunAlike.result EndAlike.result

theorem Alike.phase_eq {s t : State} (h : Alike s t) : t.phase = s.phase := by
  rcases h with h | h
  · rw [h.phase, h.phase']
  · exact h.result.1.symm

/-- Only in INIT do alike machines hold different results. -/
theorem Alike.result_of_done {s t : State} (h : Alike s t) (hp : t.phase = .done) : sameResult s t := by
  rcases h with h | h
  · rw [h.phase'] at hp
    cases hp
  · exact h.result

theorem Alike.busy_of_not_done {s t : State} (h : Alike s t) (hp : t.phase ≠ .done) : busy t = true := by
  rw [busy_iff]
  rcases h with h | h | h
  · exact .inl h.phase'
  · exact .inr (h.result.1 ▸ h.phase)
  · exact absurd (h.result.1.symm.trans h.phase) hp

/-! ## The engine's steps -/

/-- The second machine stops where the first one stops, and where that goes on it goes on alike. -/
def answersAlike (a b : Host.Outcome State Fault Refusal) : Prop :=
  match a with
  | .next u => ∃ v, b = .next v ∧ LatchedAlike u v
  | .fault r => b = .fault r
  | .refused r => b = .refused r

theorem answersAlike_next {u v : State} (h : LatchedAlike u v) : answersAlike (.next u) (.next v) := ⟨v, rfl, h⟩

theorem exists_next_of_answersAlike {a b : Host.Outcome State Fault Refusal} (h : answersAlike a b) {v : State}
    (hb : b = .next v) : ∃ u, a = .next u ∧ LatchedAlike u v := by
  subst hb
  cases a with
  | next u =>
    obtain ⟨w, hw, hu⟩ := h
    cases hw
    exact ⟨u, rfl, hu⟩
  | fault r => cases h
  | refused r => cases h

theorem endAlike_errorEntry {s t : State} (hout : sameOutput s t) (hlen : s.outLen = t.outLen) (e : ErrKind)
    (w : Word) : EndAlike (errorEntry e w s) (errorEntry e w t) :=
  ⟨rfl, rfl, rfl, rfl, hlen, fun i hi => (hout i hi).symm⟩

theorem sameOutput_latchRun (s t : State) : sameOutput (latchRun s) (latchRun t) :=
  fun i hi => absurd hi (Nat.not_lt_zero i)

/-- INIT_STEP takes the same branch on the same input, and the starting values of R163 leave nothing of what the
registers held before. -/
theorem initStep_alike {s t : State} (h : StartAlike s t) : answersAlike (initStep s) (initStep t) := by
  obtain ⟨-, -, hlimits, halpha, hlen, hinput⟩ := h
  have hmaxIn : t.config.maxIn = s.config.maxIn := hlimits.1
  by_cases hmax : s.config.maxIn < s.inLen
  · rw [initStep_of_tooLong hmax, initStep_of_tooLong (by rwa [hmaxIn, hlen])]
    exact answersAlike_next (.inr (endAlike_errorEntry (sameOutput_latchRun s t) rfl _ _))
  have hmax' : ¬ t.config.maxIn < t.inLen := by rwa [hmaxIn, hlen]
  by_cases h0 : s.inLen = 0
  · rw [initStep_of_empty h0, initStep_of_empty (hlen.trans h0)]
    exact answersAlike_next (.inr ⟨rfl, rfl, rfl, rfl, rfl, fun i hi => absurd hi (Nat.not_lt_zero i)⟩)
  have h0' : t.inLen ≠ 0 := by rwa [hlen]
  have hsymbol : mapSymbol t.ctrlAlphabet (inSymbol t 0) = mapSymbol s.ctrlAlphabet (inSymbol s 0) := by
    rw [halpha, hinput 0 (Nat.pos_of_ne_zero fun hz => h0 (BitVec.eq_of_toNat_eq hz))]
  cases hv : mapSymbol s.ctrlAlphabet (inSymbol s 0) with
  | none =>
    rw [initStep_of_unmapped hmax h0 hv, initStep_of_unmapped hmax' h0' (hsymbol.trans hv)]
    exact answersAlike_next (.inr (endAlike_errorEntry (sameOutput_latchRun s t) rfl _ _))
  | some v =>
    rw [initStep_of_mapped hmax h0 hv, initStep_of_mapped hmax' h0' (hsymbol.trans hv)]
    refine answersAlike_next (.inl ⟨.inl rfl, ?_, hlimits, hlen, hinput, sameOutput_latchRun s t⟩)
    simp only [graft, seedRun, latchRun, halpha, hlen]

/-- What a step that stays in the run leaves, put over the other machine's buffers. -/
theorem RunAlike.graft_next {s t u : State} {o : Memory Char16} (h : RunAlike s t) (hstay : staysInRun s u)
    (hside : u.hostSide = s.hostSide) (ho : sameOutput u { t with out := o }) :
    LatchedAlike u (graft u { t with out := o }) := by
  obtain ⟨hn, hloop | hdone⟩ := hstay
  · simp only [State.hostSide, HostSide.mk.injEq] at hside
    obtain ⟨hin, -, -, hconfig, hepoch, -⟩ := hside
    refine .inl ⟨.inr hloop, rfl, ?_, h.latched.trans hn.symm, fun i hi => ?_, ho⟩
    · simp only [sameLimits, hconfig]
      exact h.limits
    · have hu : inSymbol u i = inSymbol s i := by simp only [inSymbol, hin, hepoch]
      rw [hu]
      exact h.input i (hn ▸ hi)
  · exact .inr ⟨hdone, rfl, rfl, rfl, rfl, fun i hi => (ho i hi).symm⟩

theorem tokenStep_alike {s t : State} (h : RunAlike s t) : answersAlike (tokenStep s) (tokenStep t) := by
  have hf : follows t (tokenStep s) (tokenStep t) := by
    have hgraft := tokenStep_follows s t h.input h.limits h.output
    rwa [← h.registers] at hgraft
  cases hs : tokenStep s with
  | next u =>
    rw [hs] at hf
    obtain ⟨o, hv, ho⟩ := hf
    exact ⟨_, hv, h.graft_next (tokenStep_staysInRun hs) (tokenStep_hostSide hs) ho⟩
  | fault r => rw [hs] at hf; exact hf
  | refused r => rw [hs] at hf; exact hf

theorem loopStep_alike {s t : State} (h : RunAlike s t) : answersAlike (loopStep s) (loopStep t) := by
  have hdrained : t.drained = s.drained := (h.register_eq State.drained rfl).symm
  cases hd : s.drained with
  | true =>
    rw [loopStep_of_drained hd, loopStep_of_drained (hdrained.trans hd)]
    exact answersAlike_next (.inr (endAlike_errorEntry h.output (h.register_eq State.outLen rfl) _ _))
  | false =>
    rw [loopStep_of_undrained hd, loopStep_of_undrained (hdrained.trans hd)]
    exact tokenStep_alike h

theorem engineStep_alike {s t : State} (h : Alike s t) : answersAlike (engineStep s) (engineStep t) := by
  have hphase := h.phase_eq
  rcases h with h | h | h
  · rw [engineStep_of_init h.phase, engineStep_of_init h.phase']
    exact initStep_alike h
  · rcases h.phase with hp | hp
    · rw [engineStep_of_first hp, engineStep_of_first (hphase.trans hp)]
      exact tokenStep_alike h
    · rw [engineStep_of_loop hp, engineStep_of_loop (hphase.trans hp)]
      exact loopStep_alike h
  · rw [engineStep_of_done h.phase, engineStep_of_done (hphase.trans h.phase)]
    exact answersAlike_next (.inr h)

/-! ## The host's moves during a run -/

/-- What the host's moves may change while BUSY: the script, what the model keeps of a read, and IN from IN_LEN on
(70_reset_and_hazards.md R204). -/
structure HostMoved (s t : State) : Prop where
  frame : t = { s with host := t.host, readData := t.readData, draws := t.draws, input := t.input }
  input : ∀ i, i < s.inLen.toNat → inSymbol t i = inSymbol s i

theorem hostMoved_script (s : State) (host : List HostMove) : HostMoved s { s with host := host } :=
  ⟨rfl, fun _ _ => rfl⟩

theorem hostMoved_of_sameButReadData {s t : State} (h : sameButReadData s t) : HostMoved s t ∧ t.host = s.host := by
  rw [h]
  exact ⟨⟨rfl, fun _ _ => rfl⟩, rfl⟩

/-- While BUSY no register of the host changes (70_reset_and_hazards.md R204, R206). -/
theorem csrWriteWord_of_busy {s t : State} {offset : Nat} {data : Word} (hb : busy s = true)
    (h : csrWriteWord offset data s = .next t) : t = s := by
  simp only [csrWriteWord, ctrlWrite, inLenWrite, hb, if_true] at h
  split_ifs at h <;> cases h <;> rfl

theorem inWrite_hostMoved {s t : State} {i : Nat} {b : Symbol} (hb : busy s = true) (h : inWrite i b s = .next t) :
    HostMoved s t ∧ t.host = s.host := by
  unfold inWrite at h
  split_ifs at h with _ hbelow
  cases h
  refine ⟨⟨rfl, fun j hj => ?_⟩, rfl⟩
  have hne : j ≠ i := by
    rintro rfl
    exact hbelow ⟨hb, hj⟩
  simp only [inSymbol, memGet_memPut_ne _ _ hne]

theorem agentMove_hostMoved {m : HostMove} {s t : State} (hb : busy s = true) (hreset : m ≠ .reset)
    (hturn : m ≠ .engineTurn) (h : agentMove m s = .next t) : HostMoved s t ∧ t.host = s.host := by
  cases m with
  | engineTurn => exact absurd rfl hturn
  | reset => exact absurd rfl hreset
  | csrWrite offset width data =>
    rw [csrWriteWord_of_busy hb (csrAccess_eq_next h)]
    exact hostMoved_of_sameButReadData rfl
  | csrRead offset width => exact hostMoved_of_sameButReadData (csrReadWord_sameButReadData (csrAccess_eq_next h))
  | inWrite i b => exact inWrite_hostMoved hb h
  | inRead i => exact hostMoved_of_sameButReadData (inRead_sameButReadData h)
  | outRead i => exact hostMoved_of_sameButReadData (outReadWith_sameButReadData h)
  | outReadByte a => exact hostMoved_of_sameButReadData (outReadWith_sameButReadData h)

theorem Alike.hostMoved {s t u : State} (h : Alike s t) (hm : HostMoved t u) : Alike s u := by
  obtain ⟨hframe, hinput⟩ := hm
  rcases h with h | h | h
  · refine .inl ⟨h.phase, ?_, ?_, ?_, ?_, fun i hi => ?_⟩
    · rw [hframe]; exact h.phase'
    · rw [hframe]; exact h.limits
    · rw [hframe]; exact h.alphabet
    · rw [hframe]; exact h.inLen
    · exact (hinput i (h.inLen ▸ hi)).trans (h.input i hi)
  · refine .inr (.inl ⟨h.phase, ?_, ?_, ?_, fun i hi => ?_, ?_⟩)
    · rw [hframe, h.registers]; rfl
    · rw [hframe]; exact h.limits
    · rw [hframe]; exact h.latched
    · exact (hinput i (h.latched ▸ hi)).trans (h.input i hi)
    · rw [hframe]; exact h.output
  · refine .inr (.inr ⟨h.phase, ?_⟩)
    rw [hframe]
    exact h.result

/-- With no reset in the script, a step during a run is a move of the host, or the engine's once the script's entry has
been taken. -/
theorem step_of_script {s t : State} (hb : busy s = true) (hreset : .reset ∉ s.host) (ht : step s = .next t) :
    .reset ∉ t.host ∧ (HostMoved s t ∨ ∃ u, HostMoved s u ∧ engineStep u = .next t) := by
  have hengine {u : State} (hu : .reset ∉ u.host) (h : engineStep u = .next t) : .reset ∉ t.host := by
    have hhost : t.host = u.host := congrArg HostSide.host (engineStep_hostSide h)
    rwa [hhost]
  cases hs : s.host with
  | nil =>
    rw [step_of_no_script hs] at ht
    exact ⟨hengine hreset ht, .inr ⟨s, hostMoved_script s s.host, ht⟩⟩
  | cons m rest =>
    rw [step_of_move hs] at ht
    rw [hs, List.mem_cons, not_or] at hreset
    obtain ⟨hm, hrest⟩ := hreset
    by_cases hturn : m = .engineTurn
    · subst hturn
      exact ⟨hengine hrest ht, .inr ⟨_, hostMoved_script s rest, ht⟩⟩
    · obtain ⟨⟨hframe, hinput⟩, hhost⟩ := agentMove_hostMoved (s := { s with host := rest }) hb (Ne.symm hm) hturn ht
      exact ⟨hhost ▸ hrest, .inl ⟨hframe, hinput⟩⟩

/-! ## Whole runs -/

theorem run_succ_eq_next {k : Nat} {s u : State} (h : Host.Core.run core (k + 1) s = .next u) :
    ∃ t, step s = .next t ∧ Host.Core.run core k t = .next u := by
  simp only [Host.Core.run] at h
  split at h
  · next t hs => exact ⟨t, hs, h⟩
  · cases h
  · cases h

theorem host_of_step {s t : State} (hs : s.host = []) (h : step s = .next t) : t.host = [] := by
  rw [step_of_no_script hs] at h
  exact (congrArg HostSide.host (engineStep_hostSide h)).trans hs

theorem step_alike {s t u : State} (h : Alike s t) (hs : s.host = []) (ht : t.host = []) (hu : step s = .next u) :
    ∃ v, step t = .next v ∧ LatchedAlike u v := by
  have hstep := engineStep_alike h
  rwa [← step_of_no_script hs, ← step_of_no_script ht, hu] at hstep

/-- With no host move to come, alike machines stay alike step by step. -/
theorem run_alike {k : Nat} : ∀ {s t u : State}, LatchedAlike s t → s.host = [] → t.host = [] →
    Host.Core.run core k s = .next u → ∃ v, Host.Core.run core k t = .next v ∧ LatchedAlike u v := by
  induction k with
  | zero =>
    intro s t u h _ _ hu
    cases hu
    exact ⟨t, rfl, h⟩
  | succ k ih =>
    intro s t u h hs ht hu
    obtain ⟨s', hs', hrun⟩ := run_succ_eq_next hu
    obtain ⟨t', ht', hlatched⟩ := step_alike (.inr h) hs ht hs'
    obtain ⟨v, hv, hend⟩ := ih hlatched (host_of_step hs hs') (host_of_step ht ht') hrun
    exact ⟨v, (run_core_of_step k t t' ht').trans hv, hend⟩

/-- A run that the host's moves come between ends as the run without them does, in no fewer steps. -/
theorem run_alike_of_script {k : Nat} : ∀ {s t v : State}, Alike s t → s.host = [] → .reset ∉ t.host →
    Host.Core.run core k t = .next v → v.phase = .done →
    (∀ (j : Nat) (u : State), j < k → Host.Core.run core j t = .next u → u.phase ≠ .done) →
    ∃ (j : Nat) (u : State), j ≤ k ∧ Host.Core.run core j s = .next u ∧ sameResult u v := by
  induction k with
  | zero =>
    intro s t v h _ _ hv hdone _
    cases hv
    exact ⟨0, s, le_rfl, rfl, h.result_of_done hdone⟩
  | succ k ih =>
    intro s t v h hs hreset hv hdone hbefore
    have hbusy := h.busy_of_not_done (hbefore 0 t (Nat.succ_pos k) rfl)
    obtain ⟨t', ht', hrun⟩ := run_succ_eq_next hv
    have hbefore' (j : Nat) (u : State) (hj : j < k) (hu : Host.Core.run core j t' = .next u) : u.phase ≠ .done :=
      hbefore (j + 1) u (Nat.succ_lt_succ hj) ((run_core_of_step j t t' ht').trans hu)
    obtain ⟨hreset', hmoved | ⟨u, hmoved, hengine⟩⟩ := step_of_script hbusy hreset ht'
    · obtain ⟨j, s', hj, hs', hend⟩ := ih (h.hostMoved hmoved) hs hreset' hrun hdone hbefore'
      exact ⟨j, s', hj.trans (Nat.le_succ k), hs', hend⟩
    · obtain ⟨s', hs', hlatched⟩ := exists_next_of_answersAlike (engineStep_alike (h.hostMoved hmoved)) hengine
      rw [← step_of_no_script hs] at hs'
      obtain ⟨j, w, hj, hw, hend⟩ := ih (.inr hlatched) (host_of_step hs hs') hreset' hrun hdone hbefore'
      exact ⟨j + 1, w, Nat.succ_le_succ hj, (run_core_of_step j s s' hs').trans hw, hend⟩

/-- Settles O56: the two states are alike at the start. -/
theorem runDependsOnlyOnItsInput : Obligations.RunDependsOnlyOnItsInput := by
  intro s t hs ht hhost hmaxIn hmaxDict hmaxOut halpha hlen hinput
  have h : Alike s t := .inl ⟨hs, ht, ⟨hmaxIn.symm, hmaxDict.symm, hmaxOut.symm⟩, halpha.symm, hlen.symm,
    fun i hi => (hinput i hi).symm⟩
  refine ⟨fun k u hhost' hk hu => ?_, fun k v hreset hv hdone hbefore =>
    run_alike_of_script h hhost hreset hv hdone hbefore⟩
  obtain ⟨k, rfl⟩ := Nat.exists_eq_succ_of_ne_zero hk.ne'
  obtain ⟨s', hs', hrun⟩ := run_succ_eq_next hu
  obtain ⟨t', ht', hlatched⟩ := step_alike h hhost hhost' hs'
  obtain ⟨v, hv, hend⟩ := run_alike hlatched (host_of_step hhost hs') (host_of_step hhost' ht') hrun
  exact ⟨v, (run_core_of_step k t t' ht').trans hv, hend.result⟩

end Sys2Proof.Machine
end

section
/-! Error entry, and the order in which a token meets the limits (spec/60_exceptions.md R184, R185, R187). Each place
where the tail of a LOOP step raises has one rule (`finishLoop_out_full`, `finishLoop_dict_full`); the tokens reach it
as a literal does, behind its own append, or as REF and SELF do, at once. -/

namespace Sys2Proof.Machine

open Sys2Proof

/-! ## Error entry (R185) -/

/-- In DONE, STATUS reads BUSY 0, DONE 1 and the code of ERR (10_state.md R38). -/
theorem statusWord_of_done {s : State} (h : s.phase = .done) :
    statusWord s = 2 ||| (s.err.code.setWidth 32 <<< 4) := by
  simp [statusWord, busy, done, statusErr, h]

/-- Settles O40: STATUS is that of DONE with ERR = e, and what follows the raising operation is skipped. -/
theorem errorEntrySetsTheRegisters : Obligations.ErrorEntrySetsTheRegisters := fun _ _ _ =>
  ⟨rfl, statusWord_of_done rfl, fun _ => by rw [andThen_raised, conclude_raised]⟩

/-! ## A literal in FIRST (43_driver.md R164) -/

theorem literal_first_dict_full {s : State} (hp : s.phase = .first) (hfull : s.dictLen = s.config.maxDict)
    (c : Char16) : literal c s = .next (errorEntry .capacityExceeded 2 s) := by
  simp only [literal, hp, seedAppend_full [c] hfull, andThen_raised, conclude_raised]

theorem literal_first_out_full {s : State} (hp : s.phase = .first) (hroom : s.dictLen ≠ s.config.maxDict)
    (c : Char16) (hfull : s.config.maxOut.toNat < s.outLen.toNat + 1) :
    literal c s = .next (errorEntry .capacityExceeded 3 (pushEntry [c] s)) := by
  have hemit : emit [c] (pushEntry [c] s) = .raised .capacityExceeded 3 (pushEntry [c] s) := emit_full [c] hfull
  simp only [literal, hp, seedAppend_room [c] hroom, andThen_ok, finishFirst, hemit, andThen_raised, conclude_raised]

/-- Settles O33: both are one literal, whose append comes before its EMIT. -/
theorem firstLiteralCapacity : Obligations.FirstLiteralCapacity := by
  intro s i hi hp
  obtain ⟨c, hc⟩ : ∃ c, exec i s = literal c s := by
    rcases hi with ⟨ch, rfl⟩ | ⟨ch, rfl⟩
    · exact ⟨zext16 ch, rfl⟩
    · exact ⟨ch, rfl⟩
  rw [hc]
  exact ⟨fun hfull => literal_first_dict_full hp hfull c,
    fun hroom hfull => ⟨_, literal_first_out_full hp hroom c hfull, rfl, rfl, rfl, rfl, rfl, rfl⟩⟩

/-! ## Where the tail of a LOOP step raises (43_driver.md R165) -/

/-- EMIT checks its capacity before it writes (41_dictionary.md R130), and it comes first. -/
theorem finishLoop_out_full {s : State} {tok : Str} (hfull : s.config.maxOut.toNat < s.outLen.toNat + tok.length) :
    finishLoop tok s = .raised .capacityExceeded 3 s := by
  rw [finishLoop, emit_full tok hfull, andThen_raised]

/-- The append finds no room once the token is in OUT. -/
theorem finishLoop_dict_full {s : State} {tok : Str} (hne : tok ≠ [])
    (hfit : s.outLen.toNat + tok.length ≤ s.config.maxOut.toNat) (hfull : s.dictLen = s.config.maxDict) :
    finishLoop tok s = .raised .capacityExceeded 2 (writeOut tok s) := by
  obtain ⟨c, cs, rfl⟩ := List.exists_cons_of_ne_nil hne
  have happend := append_full (s := writeOut (c :: cs) s) ((writeOut (c :: cs) s).last ++ [c]) hfull
  rw [finishLoop, emit_room _ hfit, andThen_ok, firstChar_cons, andThen_ok, happend, andThen_raised]

/-! ## A literal in LOOP (R187) -/

theorem literal_loop_dict_full {s : State} (hp : s.phase = .loop) (hfull : s.dictLen = s.config.maxDict)
    (c : Char16) : literal c s = .next (errorEntry .capacityExceeded 2 s) := by
  rw [literal_of_loop hp, append_full [c] hfull, andThen_raised, conclude_raised]

/-- With room for its first entry a literal is the tail of a LOOP step behind that entry. -/
theorem literal_loop_counted {s : State} (hp : s.phase = .loop) (hroom : s.dictLen ≠ s.config.maxDict) (c : Char16) :
    literal c s = conclude (finishLoop [c] (countEntry (pushEntry [c] s))) := by
  rw [literal_of_loop hp, append_room [c] hroom, andThen_ok]

/-- Settles O32: the literal's own append, then the tail's EMIT, then the tail's append. -/
theorem literalCapacityOrder : Obligations.LiteralCapacityOrder := by
  intro s i ch hi hp
  rw [exec_literal hi s]
  refine ⟨fun hfull => literal_loop_dict_full hp hfull ch, fun hroom hfull => ?_, fun hroom hfit hfull => ?_⟩
  · have htail := finishLoop_out_full (s := countEntry (pushEntry [ch] s)) (tok := [ch]) hfull
    rw [literal_loop_counted hp hroom, htail, conclude_raised]
    exact ⟨_, rfl, rfl, rfl, rfl, rfl, rfl, rfl, rfl⟩
  · have htail := finishLoop_dict_full (s := countEntry (pushEntry [ch] s)) (List.cons_ne_nil ch []) hfit hfull
    rw [literal_loop_counted hp hroom, htail, conclude_raised]
    exact ⟨_, rfl, rfl, rfl, rfl, rfl, memGet_memPut_self s.out _ ch, rfl⟩

/-! ## REF and SELF (R144, R145, R187) -/

theorem firstChar_of_head? {tok : Str} {c : Char16} (h : tok.head? = some c) (s : State) :
    firstChar tok s = .ok c s := by
  obtain ⟨cs, rfl⟩ := List.head?_eq_some_iff.1 h
  rfl

/-- Past the lookup of what they emit, REF and SELF are the tail of a LOOP step. -/
theorem exec_backReference {s : State} {i : Instr} {tok : Str} (hp : s.phase = .loop)
    (hi : (∃ k, i = .ref k ∧ 3 ≤ k ∧ k < s.dictLen.toNat) ∨ i = .selfRef) (htok : tokenString s i = some tok) :
    exec i s = conclude (finishLoop tok s) := by
  rcases hi with ⟨k, rfl, h3, hk⟩ | rfl
  · have hget : memGet s.dict k = some tok := htok
    rw [exec_ref_of_loop hp, if_pos ⟨h3, hk⟩, lookupEntry_some hget, andThen_ok]
  · obtain ⟨c, hc, rfl⟩ := Option.map_eq_some_iff.1 htok
    rw [exec_selfRef_of_loop hp, firstChar_of_head? hc, andThen_ok]

/-- Settles O34: the tail's EMIT, with nothing before it, then the tail's append. -/
theorem backReferenceCapacityOrder : Obligations.BackReferenceCapacityOrder := by
  intro s i tok hp hi htok hne
  rw [exec_backReference hp hi htok]
  refine ⟨fun hfull => ?_, fun hfit hfull => ?_⟩
  · rw [finishLoop_out_full hfull, conclude_raised]
  · rw [finishLoop_dict_full hne hfit hfull, conclude_raised]
    exact ⟨_, rfl, rfl, rfl, rfl, writeOut_outLen_toNat hfit, fun _ hj => memGet_memPutAll_inside s.out _ tok hj,
      rfl, rfl, rfl⟩

end Sys2Proof.Machine
end

section
/-! Reset and the hazards between host and engine (spec/70_reset_and_hazards.md R200, R204 to R206, R209). Each branch
of the host port's writes and of its reads of an open value has one rule, under the condition that the branch tests;
the statements turn PHASE and ERR into that condition (`busy_iff`, `resultValid_iff`). -/

namespace Sys2Proof.Machine

open Sys2Proof

/-! ## The engine always has a step (R209) -/

/-- Settles O54, phase by phase: only INIT, FIRST and LOOP have anything to do. -/
theorem engineAlwaysProgresses : Obligations.EngineAlwaysProgresses := by
  intro s h hs
  rw [step_of_no_script hs]
  cases hp : s.phase with
  | idle => exact ⟨s, engineStep_of_idle hp, fun _ => rfl, by simp⟩
  | done => exact ⟨s, engineStep_of_done hp, fun _ => rfl, by simp⟩
  | init =>
    rw [engineStep_of_init hp]
    rcases initStep_cases s with ⟨t, ht, -⟩ | ⟨v, ht⟩ <;> exact ⟨_, ht, by simp, by simp⟩
  | first =>
    obtain ⟨t, ht, hcursor⟩ := engineStep_progress h (.inl hp)
    exact ⟨t, ht, by simp, fun _ => hcursor⟩
  | loop =>
    obtain ⟨t, ht, hcursor⟩ := engineStep_progress h (.inr hp)
    exact ⟨t, ht, by simp, fun _ => hcursor⟩

/-! ## Reset (R200) -/

theorem statusWord_of_idle {s : State} (hp : s.phase = .idle) (he : s.err = .none) : statusWord s = 0 := by
  simp [statusWord, busy, done, statusErr, ErrKind.code, hp, he]

/-- Settles O2: the move is `resetFrom`, which does not look at PHASE. -/
theorem resetAbandonsAnyRun : Obligations.ResetAbandonsAnyRun :=
  fun _ _ hs => ⟨_, step_of_move hs, rfl, rfl, rfl, rfl, rfl, rfl, statusWord_of_idle rfl rfl, rfl, rfl⟩

/-! ## Writes of the host, by BUSY (R204, R206) -/

theorem busy_eq_false_iff (s : State) : busy s = false ↔ s.phase = .idle ∨ s.phase = .done := by
  unfold busy
  cases s.phase <;> simp

/-- Bit 1 of a word of CTRL is the alphabet that the word selects (10_state.md R37). -/
theorem ctrlAlphabetOf_eq_iff (data : Word) (a : Alphabet) :
    ctrlAlphabetOf data = a ↔ data.getLsbD 1 = alphabetBit a := by
  unfold ctrlAlphabetOf
  cases data.getLsbD 1 <;> cases a <;> decide

theorem ctrlWrite_of_busy {s : State} (h : busy s = true) (data : Word) :
    ctrlWrite data s =
      if data.getLsbD 1 = alphabetBit s.ctrlAlphabet then .next s else .refused .alphabetChangeWhileBusy := by
  simp only [ctrlWrite, h, if_true, ctrlAlphabetOf_eq_iff]

theorem inLenWrite_of_busy {s : State} (h : busy s = true) (data : Word) :
    inLenWrite data s = .refused .inLenWriteWhileBusy := if_pos h

theorem inLenWrite_of_not_busy {s : State} (h : busy s = false) (data : Word) :
    inLenWrite data s = .next { s with inLen := data } := if_neg (Bool.eq_false_iff.1 h)

theorem inWrite_of_hazard {s : State} {i : Nat} {b : Symbol} (hmax : i < s.config.maxIn.toNat) (hb : busy s = true)
    (hlen : i < s.inLen.toNat) : inWrite i b s = .refused .inWriteWhileBusy :=
  (if_neg (Nat.not_le.2 hmax)).trans (if_pos ⟨hb, hlen⟩)

theorem inWrite_of_free {s : State} {i : Nat} {b : Symbol} (hmax : i < s.config.maxIn.toNat)
    (hfree : ¬ (busy s = true ∧ i < s.inLen.toNat)) :
    inWrite i b s = .next { s with input := memPut s.input i b } :=
  (if_neg (Nat.not_le.2 hmax)).trans (if_neg hfree)

/-- Settles O42: while BUSY a word of CTRL that keeps ALPHABET has no other effect, START or not. -/
theorem startWhileBusyIsIgnored : Obligations.StartWhileBusyIsIgnored := by
  intro s data rest hs hp hkeep
  have hbusy : busy { s with host := rest } = true := (busy_iff _).2 hp
  have hstep : step s = ctrlWrite data { s with host := rest } := step_csrWrite rfl hs
  rw [hstep, ctrlWrite_of_busy hbusy]
  exact if_pos hkeep

/-! ## IN as it is read back (20_memory.md R50) -/

theorem inRead_inside {s : State} {i : Nat} (h : i < s.config.maxIn.toNat) :
    inRead i s = returnWord ((inSymbol s i).setWidth 32) s := if_neg (Nat.not_le.2 h)

/-- A write of IN that was made put the symbol in its cell. -/
theorem inWrite_next {s t : State} {i : Nat} {b : Symbol} (h : inWrite i b s = .next t) :
    t = { s with input := memPut s.input i b } := by
  unfold inWrite at h
  split_ifs at h
  cases h
  rfl

theorem inSymbol_memPut_self (s : State) (i : Nat) (b : Symbol) :
    inSymbol { s with input := memPut s.input i b } i = b := by
  simp only [inSymbol, memGet_memPut_self, Option.getD_some]

theorem inSymbol_memPut_ne (s : State) {i j : Nat} (b : Symbol) (h : j ≠ i) :
    inSymbol { s with input := memPut s.input i b } j = inSymbol s j := by
  simp only [inSymbol, memGet_memPut_ne _ _ h]

/-- Settles O50: BUSY decides each write, and what a write that was made leaves in IN is read back. -/
theorem inputHazardHasNoMove : Obligations.InputHazardHasNoMove := by
  intro s rest
  refine ⟨fun hp => ?_, fun hp => ?_, fun i hs hmax => ?_, fun i b t hs ht => ?_⟩
  · have hbusy : busy { s with host := rest } = true := (busy_iff _).2 hp
    refine ⟨fun i b hs hmax hlen => ?_, fun i b hs hmax hlen => ?_, fun data hs => ?_, fun data hs hchange => ?_⟩
    · exact (step_of_move hs).trans (inWrite_of_hazard hmax hbusy hlen)
    · exact (step_of_move hs).trans (inWrite_of_free hmax (fun hhazard => Nat.not_lt.2 hlen hhazard.2))
    · exact (step_csrWrite rfl hs).trans (inLenWrite_of_busy hbusy data)
    · have hstep : step s = ctrlWrite data { s with host := rest } := step_csrWrite rfl hs
      rw [hstep, ctrlWrite_of_busy hbusy]
      exact if_neg hchange
  · have hbusy : busy { s with host := rest } = false := (busy_eq_false_iff _).2 hp
    refine ⟨fun i b hs hmax => ?_, fun data hs => ?_⟩
    · have hfree : ¬ (busy { s with host := rest } = true ∧ i < s.inLen.toNat) := by simp [hbusy]
      exact (step_of_move hs).trans (inWrite_of_free hmax hfree)
    · exact (step_csrWrite rfl hs).trans (inLenWrite_of_not_busy hbusy data)
  · exact (step_of_move hs).trans (inRead_inside hmax)
  · rw [step_of_move hs] at ht
    rw [inWrite_next ht]
    exact ⟨inSymbol_memPut_self _ i b, fun j hj => inSymbol_memPut_ne _ b hj⟩

/-! ## Reads of an open value (R205) -/

theorem resultValid_iff (s : State) : resultValid s = true ↔ s.phase = .done ∧ s.err = .none := by
  simp [resultValid]

theorem resultChar_of_no_result {s : State} {i : Nat}
    (h : ¬ (s.phase = .done ∧ s.err = .none ∧ i < s.outLen.toNat)) : resultChar s i = none :=
  if_neg (by rwa [resultValid_iff, and_assoc])

/-- Where OUT is no result a read of it draws a character, seen through `f`. -/
theorem outReadWith_of_no_result {s : State} {i : Nat} (f : Char16 → Word) (hmax : i < s.config.maxOut.toNat)
    (h : ¬ (s.phase = .done ∧ s.err = .none ∧ i < s.outLen.toNat)) : outReadWith f i s = returnFreeChar f s := by
  rw [outReadWith, if_neg (Nat.not_le.2 hmax), resultChar_of_no_result h]

theorem outLenRead_of_no_result {s : State} (hidle : s.phase ≠ .idle) (h : ¬ (s.phase = .done ∧ s.err = .none)) :
    outLenRead s = returnFreeWord s :=
  if_neg (by rw [resultValid_iff]; exact not_or.2 ⟨hidle, h⟩)

theorem errInfoRead_of_busy {s : State} (h : busy s = true) : errInfoRead s = returnFreeWord s := if_pos h

theorem errInfoRead_of_not_busy {s : State} (h : busy s = false) : errInfoRead s = returnWord s.errInfo s :=
  if_neg (Bool.eq_false_iff.1 h)

/-- Settles O48: OUT is open where it is no result, OUT_LEN where that is so outside IDLE, ERR_INFO while BUSY. -/
theorem unspecifiedReadsAreFree : Obligations.UnspecifiedReadsAreFree := by
  intro s rest
  refine ⟨fun i hmax hopen hs => ?_, fun a hmax hopen hs => ?_, fun hp hs => ?_, fun hp hs => ?_, fun hp hs => ?_⟩
  · exact (step_of_move hs).trans (outReadWith_of_no_result _ hmax hopen)
  · rw [← charByte_eq]
    exact (step_of_move hs).trans (outReadWith_of_no_result _ hmax hopen)
  · have hidle : s.phase ≠ .idle := fun h => by simp [h] at hp
    have hopen : ¬ (s.phase = .done ∧ s.err = .none) := fun ⟨h, he⟩ => by simp [h, he] at hp
    exact (step_csrRead rfl hs).trans (outLenRead_of_no_result (s := { s with host := rest }) hidle hopen)
  · exact (step_csrRead rfl hs).trans (errInfoRead_of_busy ((busy_iff _).2 hp))
  · exact (step_csrRead rfl hs).trans (errInfoRead_of_not_busy ((busy_eq_false_iff _).2 (.inr hp)))

end Sys2Proof.Machine
end
